-- ==== Sys2Proof/Word.lean ====
section
/-! DEFINITION. The words CORE's registers, bytes and CRC values are made of (spec 10_state, 00_scope R11 to R14). -/

namespace Sys2Proof

/-- A byte: the unit of RAW, WORK, commands and events (20_memory R50, R56); bit 7 is the most significant (R11). -/
abbrev Byte := BitVec 8

/-- A 16-bit word: a CRC value (40_crc R110), a length field (30_encoding R70, R90). -/
abbrev Word16 := BitVec 16

/-- A 32-bit word: a status word (10_state R33). -/
abbrev Word32 := BitVec 32

end Sys2Proof
end

