-- ==== Sys2Proof/Machine/Operands.lean ====
section
/-! DEFINITION. Every operand form CORE reads or writes: big-endian words (00_scope R14, 20_memory R53, R54), the
packed 12-bit AU offsets (30_encoding R86), and the format byte (30_encoding R84, R85). -/

namespace Sys2Proof

/-- The bits of a byte from bit 7 to bit 0: MSB-first (00_scope R11). -/
def byteBits (b : Byte) : List Bool :=
  [b.getLsbD 7, b.getLsbD 6, b.getLsbD 5, b.getLsbD 4, b.getLsbD 3, b.getLsbD 2, b.getLsbD 1, b.getLsbD 0]

/-- `be16(x, y)`, the big-endian value of two bytes, x first (00_scope R14). -/
def be16 (x y : Byte) : Word16 := (x.setWidth 16 <<< 8) ||| y.setWidth 16

/-- `BE16(v)`: v[15:8], v[7:0] (00_scope R14). -/
def be16Bytes (v : Word16) : List Byte := [v.extractLsb' 8 8, v.extractLsb' 0 8]

/-- `BE32(v)`: v[31:24], v[23:16], v[15:8], v[7:0] (00_scope R14). -/
def be32Bytes (v : Word32) : List Byte :=
  [v.extractLsb' 24 8, v.extractLsb' 16 8, v.extractLsb' 8 8, v.extractLsb' 0 8]

/-- BE16 of a length; every length CORE writes fits 16 bits (30_encoding R90). -/
def be16Nat (n : Nat) : List Byte := be16Bytes (BitVec.ofNat 16 n)

/-- A 12-bit offset whose high bits fill the earlier byte: `(x << 4) | (y >> 4)` (30_encoding R86). -/
def offsetHigh (x y : Byte) : Nat := ((x.setWidth 12 <<< 4) ||| (y.setWidth 12 >>> 4)).toNat

/-- A 12-bit offset whose low bits fill the later byte: `((x & 0x0F) << 8) | y` (30_encoding R86). -/
def offsetLow (x y : Byte) : Nat := (((x &&& 0x0F#8).setWidth 12 <<< 8) ||| y.setWidth 12).toNat

/-- mpeg_surround_config, b[2:0]: 0 none, 1 is 5.1, 2 is 7.1, others unknown (30_encoding R84). -/
inductive Surround where
  | none
  | s51
  | s71
  | unknown
deriving DecidableEq, Repr

/-- The format descriptor (10_state R27, 30_encoding R84). -/
structure Format where
  /-- b[6]: 48 kHz core. -/
  dacRate : Bool
  /-- b[5]: SBR present. -/
  sbrFlag : Bool
  /-- b[4]: stereo core. -/
  aacChannelMode : Bool
  /-- b[3]: Parametric Stereo present. -/
  psFlag : Bool
  /-- b[2:0]. -/
  mpegSurround : Surround
deriving DecidableEq, Repr

/-- b[2:0] as a surround configuration (30_encoding R84). -/
def surroundOf (b : Byte) : Surround :=
  match b.toNat % 8 with
  | 0 => .none
  | 1 => .s51
  | 2 => .s71
  | _ => .unknown

/-- `fmt(b)`: b[7] is ignored (30_encoding R84). -/
def fmt (b : Byte) : Format where
  dacRate := b.getLsbD 6
  sbrFlag := b.getLsbD 5
  aacChannelMode := b.getLsbD 4
  psFlag := b.getLsbD 3
  mpegSurround := surroundOf b

/-- N, the number of AUs, from (dac_rate, sbr_flag) (30_encoding R85). -/
def auCount (f : Format) : Nat :=
  match f.dacRate, f.sbrFlag with
  | false, false => 4
  | false, true => 2
  | true, false => 6
  | true, true => 3

/-- au_start[0] from (dac_rate, sbr_flag) (30_encoding R85). -/
def firstOffset (f : Format) : Nat :=
  match f.dacRate, f.sbrFlag with
  | false, false => 8
  | false, true => 5
  | true, false => 11
  | true, true => 6

end Sys2Proof
end

