-- ==== Sys2Proof/Syntax.lean ====
section
/-! DEFINITION. The six commands of CORE (30_encoding R72) and the command as it stands in the byte stream. -/

namespace Sys2Proof

/-- One constructor per row of spec/opcode_table.json. A payload is a list of bytes, first byte first (R12). -/
inductive Instr where
  /-- FEED: one logical frame (42_superframe R160). -/
  | feed (frame : List Byte)
  /-- FIRE_CRC: the message (40_crc R117). -/
  | fireCrc (message : List Byte)
  /-- CCITT_CRC: the message (40_crc R118). -/
  | ccittCrc (message : List Byte)
  /-- RS_DECODE: word positions 0..119 (41_reed_solomon R145). -/
  | rsDecode (word : List Byte)
  /-- READ_STATUS (45_control R252). -/
  | readStatus
  /-- SOFT_RESET (45_control R253). -/
  | softReset
deriving DecidableEq, Repr

/-- A command as it stands in the stream (30_encoding R70): OPC, RSV and the payload, LEN being its length. -/
structure Command where
  opc : Byte
  rsv : Byte
  payload : List Byte
deriving DecidableEq, Repr

/-- Why the decoder rejects a command (30_encoding R75, 45_control R255). -/
inductive CmdReason where
  | illegalOpcode
  | reservedNonzero
  | badLength
deriving DecidableEq, Repr

/-- What the decoder answers: the command's instruction, or the reason it is rejected, by name. -/
inductive Decoded where
  | instr (i : Instr)
  | rejected (why : CmdReason)
deriving DecidableEq, Repr

end Sys2Proof
end

