-- ==== Sys2Proof/WellFormed.lean ====
section
/-! DEFINITION. Which terms of Instr stand for a command: those whose payload the LEN field can carry and whose LEN
30_encoding R74 accepts. -/

namespace Sys2Proof

/-- The payload bytes of an instruction (30_encoding R70). -/
def Instr.payload : Instr → List Byte
  | .feed frame => frame
  | .fireCrc message => message
  | .ccittCrc message => message
  | .rsDecode word => word
  | .readStatus => []
  | .softReset => []

/-- FEED, FIRE_CRC and CCITT_CRC: LEN is 0..65535; RS_DECODE: LEN is 120 (30_encoding R70, R72, R74). -/
def Instr.wellFormed : Instr → Bool
  | .feed frame => frame.length ≤ 65535
  | .fireCrc message => message.length ≤ 65535
  | .ccittCrc message => message.length ≤ 65535
  | .rsDecode word => word.length == 120
  | .readStatus => true
  | .softReset => true

end Sys2Proof
end

