-- ==== Sys2Proof/Decode.lean ====
section
/-! DEFINITION. The command decoder (30_encoding R70 to R75), total on any bytes and rejecting by name, and after it
the encoder, written from the same table. -/

namespace Sys2Proof

/-- Takes the first command off the stream: OPC, RSV, LEN (big-endian), then LEN payload bytes, and the bytes after
them. Its length is 4 + LEN whatever the opcode is (30_encoding R70, R71). Nothing while a byte of it has not arrived
(70_reset R312). -/
def splitCommand : List Byte → Option (Command × List Byte)
  | opc :: rsv :: len1 :: len0 :: rest =>
    if (be16 len1 len0).toNat ≤ rest.length then
      some (⟨opc, rsv, rest.take (be16 len1 len0).toNat⟩, rest.drop (be16 len1 len0).toNat)
    else none
  | _ => none

/-- The legal opcodes (30_encoding R72). -/
def legalOpcode (opc : Byte) : Bool :=
  [0x01#8, 0x02#8, 0x03#8, 0x04#8, 0x05#8, 0x06#8].contains opc

/-- The LEN constraints (30_encoding R74): RS_DECODE 120, READ_STATUS and SOFT_RESET 0, the others any. -/
def legalLength (opc : Byte) (len : Nat) : Bool :=
  if opc = 0x04#8 then len == 120
  else if opc = 0x05#8 ∨ opc = 0x06#8 then len == 0
  else true

/-- The instruction of a legal command (30_encoding R72). -/
def instrOf (opc : Byte) (payload : List Byte) : Instr :=
  if opc = 0x01#8 then .feed payload
  else if opc = 0x02#8 then .fireCrc payload
  else if opc = 0x03#8 then .ccittCrc payload
  else if opc = 0x04#8 then .rsDecode payload
  else if opc = 0x05#8 then .readStatus
  else .softReset

/-- The decoder's checks in their order: opcode, RSV, LEN; the first that applies decides (30_encoding R75,
45_control R257). -/
def decode (c : Command) : Decoded :=
  if !legalOpcode c.opc then .rejected .illegalOpcode
  else if c.rsv ≠ 0x00#8 then .rejected .reservedNonzero
  else if !legalLength c.opc c.payload.length then .rejected .badLength
  else .instr (instrOf c.opc c.payload)

/-- The reason code of a CmdError (30_encoding R91, 45_control R255). -/
def CmdReason.code : CmdReason → Byte
  | .illegalOpcode => 0x01#8
  | .reservedNonzero => 0x02#8
  | .badLength => 0x03#8

/-- The opcode of an instruction (30_encoding R72). -/
def Instr.opcode : Instr → Byte
  | .feed _ => 0x01#8
  | .fireCrc _ => 0x02#8
  | .ccittCrc _ => 0x03#8
  | .rsDecode _ => 0x04#8
  | .readStatus => 0x05#8
  | .softReset => 0x06#8

/-- The bytes of a command: OPC, RSV, LEN, payload (30_encoding R70). -/
def Command.bytes (c : Command) : List Byte :=
  c.opc :: c.rsv :: (be16Nat c.payload.length ++ c.payload)

/-- An instruction as a command: RSV is 00 (30_encoding R73). -/
def Instr.command (i : Instr) : Command := ⟨i.opcode, 0x00#8, i.payload⟩

/-- The encoder (30_encoding R70, R72, R73). -/
def encode (i : Instr) : List Byte := i.command.bytes

/-- One 32-bit word of a numbered instruction, laid out as the stream carries it: most significant byte first
(30_encoding R70: H = be32(byte0, byte1, byte2, byte3)). -/
def tableBytes (w : Nat) : Nat → List Byte
  | 0 => []
  | n + 1 => be32Bytes (BitVec.ofNat 32 w) ++ tableBytes (w / 2 ^ 32) n

/-- The bytes of the instruction whose bits the opcode table numbers as w: the words of its nbits bits, then zero
payload bytes up to 4 + LEN (log 12). -/
def tableWordBytes (nbits w : Nat) : List Byte :=
  let given := tableBytes (w % 2 ^ nbits) (max 1 ((nbits + 31) / 32))
  match given with
  | _ :: _ :: len1 :: len0 :: rest =>
    given.take 4 ++ (rest ++ List.replicate (be16 len1 len0).toNat 0x00#8).take (be16 len1 len0).toNat
  | _ => given

/-- The instruction the decoder reads from an instruction of nbits table bits w; none where it rejects. -/
def decodeTableWord (nbits w : Nat) : Option Instr :=
  match splitCommand (tableWordBytes nbits w) with
  | some (c, _) =>
    match decode c with
    | .instr i => some i
    | .rejected _ => none
  | none => none

end Sys2Proof
end

