-- ==== Sys2Proof/Config.lean ====
section
/-! DEFINITION. What the spec leaves to an implementation: the parameters of 00_scope R9 as plain data, and the one
open function, the Reed–Solomon decoder beyond its correcting power (41_reed_solomon R134 law 3). -/

namespace Sys2Proof

/-- What rsDecode answers (41_reed_solomon R134): Corrected(k, w') or Uncorrectable. -/
inductive RsResult where
  | corrected (count : Nat) (word : List Byte)
  | uncorrectable
deriving DecidableEq, Repr, Inhabited

/-- Which instance of rsDecode decides the words beyond five errors: the reference instance of 41_reed_solomon R135
(the spec's default), or any other lawful one, about which nothing is known but law 3 (log 3). -/
inductive RsChoice where
  | reference
  | implementation
deriving DecidableEq, Repr

/-- The parameters of 00_scope R9 (92_eei_decisions, OPEN parameters), fixed for a machine. They are plain data in
State so that a statement about every state holds for every value (log 2). -/
structure Params where
  /-- L_MAX, the largest frame length the buffers hold (D14). -/
  lMax : Nat
  /-- EVT_DEPTH, the capacity of EVQ (D26). -/
  evtDepth : Nat
  /-- FIRE_POLY (40_crc R111, D6). -/
  firePoly : Word16
  /-- FIRE_INIT. -/
  fireInit : Word16
  /-- FIRE_XOROUT. -/
  fireXorOut : Word16
  /-- CCITT_INIT (40_crc R114, D7). -/
  ccittInit : Word16
  /-- CCITT_XOROUT. -/
  ccittXorOut : Word16
  /-- Who decodes beyond five errors (D9). -/
  rs : RsChoice
deriving DecidableEq, Repr

/-- FREE VALUE. What an implementation's own decoder answers for a word that is farther than five errors from every
codeword: 41_reed_solomon R134 law 3 leaves it open, law 4 makes it a function of the word alone (log 3). -/
opaque Config.rsBeyond : List Byte → RsResult

end Sys2Proof
end

