-- ==== Sys2Proof/Machine/Params.lean ====
section
/-! DEFINITION. The numbers of 00_scope R8 and the default parameters of 00_scope R9. -/

namespace Sys2Proof

/-- The defaults of 00_scope R9: L_MAX = 14280 (D14), the Fire constants of 40_crc R111 (D6), the CCITT constants of
40_crc R114 (D7), the reference decoder (D9). DESIGN CHOICE: EVT_DEPTH has no default; 16 is the least depth with which
CORE never holds a host that drains between commands (70_reset R311) (log 2; unsafe for a statement that rests on it). -/
def Params.default : Params where
  lMax := 14280
  evtDepth := 16
  firePoly := 0x782F#16
  fireInit := 0x0000#16
  fireXorOut := 0x0000#16
  ccittInit := 0xFFFF#16
  ccittXorOut := 0xFFFF#16
  rs := .reference

/-- The constraints of 92_eei_decisions: L_MAX mod 24 = 0, 24 ≤ L_MAX ≤ 14280 (D14), EVT_DEPTH ≥ 1 (D26). -/
def Params.legal (p : Params) : Bool :=
  p.lMax % 24 == 0 && 24 ≤ p.lMax && p.lMax ≤ 14280 && 1 ≤ p.evtDepth

/-- FRAMES_PER_SF: logical frames per Superframe (00_scope R8). -/
def framesPerSf : Nat := 5

/-- L_MIN: the least length of a logical frame (00_scope R8). -/
def lMin : Nat := 10

/-- K = 5·L/120: the number of interleaved codewords (00_scope R8, 41_reed_solomon R137). -/
def codewords (l : Nat) : Nat := framesPerSf * l / 120

/-- The sentinel K·110, the end of the RS payload region (00_scope R8, 30_encoding R87). -/
def sentinel (l : Nat) : Nat := codewords l * 110

/-- FPAD_LEN: the length of the F-PAD (00_scope R8). -/
def fpadLen : Nat := 2

/-- The generator of the CCITT CRC, given by the source (00_scope R8, 40_crc R114). -/
def ccittPoly : Word16 := 0x1021#16

end Sys2Proof
end

