-- ==== Sys2Proof/Machine/State.lean ====
section
/-! DEFINITION. Everything the spec gives the machine, as plain data (10_state), the machine after reset, and the
reasons a step can stop. -/

namespace Sys2Proof.Machine

/-- A byte buffer as the (index, byte) pairs that differ from what an unlisted index reads as, indices rising. -/
abbrev Memory := List Host.Cell

/-- The thirteen event codes (30_encoding R91). -/
inductive EvCode where
  | format
  | pad
  | padReset
  | au
  | frameReject
  | rsStatus
  | syncStart
  | syncOk
  | auCrcErr
  | crc
  | rsResult
  | status
  | cmdErr
deriving DecidableEq, Repr

/-- An event record: CODE, ARG and EPAYLOAD; ELEN is the payload's length (30_encoding R90). -/
structure Event where
  code : EvCode
  arg : Byte
  payload : List Byte
deriving DecidableEq, Repr

/-- The architectural state of 10_state (R21 to R30), less the ports. -/
structure Regs where
  /-- LATCHED (R21). -/
  latched : Bool
  /-- L (R21). -/
  l : Word16
  /-- C (R22). -/
  c : BitVec 3
  /-- RAW (R23). -/
  raw : Memory
  /-- WORK (R24). -/
  work : Memory
  /-- SYNC_FRAMES (R26). -/
  syncFrames : Word32
  /-- FMT_SET (R27). -/
  fmtSet : Bool
  /-- FMT_RAW (R27). -/
  fmtRaw : Byte
  /-- RS_CORR (R28). -/
  rsCorr : Word32
  /-- RS_UNCORR (R28). -/
  rsUncorr : Bool
  /-- LAST_SYNC (R29). -/
  lastSync : BitVec 3
  /-- N (R30). -/
  n : BitVec 3
  /-- AU_START[0..6] (R30). -/
  auStart : Vector Word32 7
deriving DecidableEq, Repr

/-- One effect of a command, in the order of its pseudocode: the registers become r, or a record is emitted. -/
inductive Effect where
  | write (r : Regs)
  | emit (e : Event)
deriving DecidableEq, Repr

/-- What the host can do to CORE (70_reset R318): send command bytes, take the record at the head of EVQ, assert RST. -/
inductive HostAct where
  | send (bytes : List Byte)
  | take
  | rst
deriving DecidableEq, Repr

/-- Whose turn a step is (log 6). -/
inductive Turn where
  | core
  | host (a : HostAct)
deriving DecidableEq, Repr

/-- The machine. -/
structure State where
  /-- The parameters (00_scope R9); no step changes them (log 2). -/
  params : Params
  /-- The architectural registers and buffers. -/
  regs : Regs
  /-- EVQ, the event FIFO, head first (10_state R31). -/
  evq : List Event
  /-- Command bytes received and not yet executed (10_state R20, 70_reset R300). -/
  rx : List Byte
  /-- What is left of the command that holds at an emit (70_reset R311); empty when no command is in progress (log 5). -/
  held : List Effect
  /-- The turns to come; when it is empty it is CORE's turn (log 6). -/
  script : List Turn
  /-- The records the host has taken, in order (70_reset R319; log 7). -/
  taken : List Event
deriving DecidableEq, Repr

/-- Why the machine stops. The architecture has no fault (60_exceptions R272, R273). -/
inductive Fault where
  /-- Raised by FEED alone, and only in a state no run reaches: LATCHED = 1 with an L the gate never admits, so that
  the indices of 20_memory R65 leave the buffers of 5·L bytes. Safe (log 8). -/
  | bufferBounds
deriving DecidableEq, Repr

/-- Why an instruction has no meaning. -/
inductive Refusal where
  /-- Raised by no one: every row of the opcode table has its meaning. Safe. -/
  | notModelled (mnemonic : String)
deriving DecidableEq, Repr

/-- The reset values of 10_state R35. RAW and WORK are not allocated (log 1). -/
def Regs.reset : Regs where
  latched := false
  l := 0#16
  c := 0#3
  raw := []
  work := []
  syncFrames := 0#32
  fmtSet := false
  fmtRaw := 0x00#8
  rsCorr := 0#32
  rsUncorr := false
  lastSync := 0#3
  n := 0#3
  auStart := #v[0#32, 0#32, 0#32, 0#32, 0#32, 0#32, 0#32]

/-- The machine right after power-on: the registers of R35, EVQ empty, no byte received, no command in progress
(70_reset R300, R302), the parameters at their defaults (log 2). -/
def State.reset : State where
  params := Params.default
  regs := Regs.reset
  evq := []
  rx := []
  held := []
  script := []
  taken := []

end Sys2Proof.Machine
end

