-- ==== Sys2Proof/Machine/Ops.lean ====
section
/-! DEFINITION. The shared operations: bytes of a buffer, emitting an event, carrying out a command's effects, what
`raise CmdError` does (this hardware's only exception), and the two resets. -/

namespace Sys2Proof.Machine

/-! ## Buffers (20_memory R50, R56) -/

/-- What a byte of RAW or WORK reads as while nothing has written it. The spec lets a model fill them with any value
and no rule observes it (10_state R25). DESIGN CHOICE, unsafe outside reachable states (log 1). -/
def Memory.unlisted : Byte := 0x00#8

/-- Reads one byte. -/
def Memory.read : Memory → Nat → Byte
  | [], _ => Memory.unlisted
  | (a, b) :: rest, i => if a = i then b else Memory.read rest i

/-- Writes one byte and keeps the canonical form. -/
def Memory.write : Memory → Nat → Byte → Memory
  | [], i, v => if v = Memory.unlisted then [] else [(i, v)]
  | (a, b) :: rest, i, v =>
    if i < a then
      if v = Memory.unlisted then (a, b) :: rest else (i, v) :: (a, b) :: rest
    else if i = a then
      if v = Memory.unlisted then rest else (i, v) :: rest
    else (a, b) :: Memory.write rest i v

/-- The canonical form: indices strictly rising, and no entry equal to what an unlisted index reads as. -/
abbrev Memory.wf (m : Memory) : Prop :=
  (m.map Prod.fst).Pairwise (· < ·) ∧ ∀ cell ∈ m, cell.2 ≠ Memory.unlisted

/-- The bytes [i..i+n) of a buffer (00_scope R12). -/
def Memory.readBlock (m : Memory) (i n : Nat) : List Byte :=
  (List.range n).map fun j => Memory.read m (i + j)

/-- Writes a byte string from index i on. -/
def Memory.writeBlock : Memory → Nat → List Byte → Memory
  | m, _, [] => m
  | m, i, b :: rest => Memory.writeBlock (Memory.write m i b) (i + 1) rest

/-! ## Events (30_encoding R90 to R93) -/

/-- CODE (30_encoding R91). -/
def EvCode.byte : EvCode → Byte
  | .format => 0x10#8
  | .pad => 0x11#8
  | .padReset => 0x12#8
  | .au => 0x13#8
  | .frameReject => 0x20#8
  | .rsStatus => 0x21#8
  | .syncStart => 0x22#8
  | .syncOk => 0x23#8
  | .auCrcErr => 0x24#8
  | .crc => 0x30#8
  | .rsResult => 0x31#8
  | .status => 0x32#8
  | .cmdErr => 0x3F#8

/-- The record as the byte string the event port carries: CODE, ARG, ELEN, EPAYLOAD (30_encoding R90, R92). -/
def Event.record (e : Event) : List Byte :=
  e.code.byte :: e.arg :: (be16Nat e.payload.length ++ e.payload)

/-- EV_FORMAT: the new format byte (R91). -/
def evFormat (b : Byte) : Event := ⟨.format, 0x00#8, [b]⟩

/-- EV_PAD of AU i: the PAD region (R91). -/
def evPad (i : Nat) (region : List Byte) : Event := ⟨.pad, BitVec.ofNat 8 i, region⟩

/-- The zero F-PAD every EV_PAD_RESET carries (R91, 44_pad R237). -/
def zeroFPad : List Byte := List.replicate fpadLen 0x00#8

/-- EV_PAD_RESET, cause SYNC_RECOVERY: ARG 0x0F (R93). -/
def evPadResetSync : Event := ⟨.padReset, 0x0F#8, zeroFPad⟩

/-- EV_PAD_RESET, cause AU_CRC: ARG 0x10 | i (R93). -/
def evPadResetCrc (i : Nat) : Event := ⟨.padReset, 0x10#8 ||| BitVec.ofNat 8 i, zeroFPad⟩

/-- EV_PAD_RESET, cause NO_PAD: ARG 0x20 | i (R93). -/
def evPadResetNone (i : Nat) : Event := ⟨.padReset, 0x20#8 ||| BitVec.ofNat 8 i, zeroFPad⟩

/-- EV_AU of AU i: the CRC-stripped payload (R91). -/
def evAu (i : Nat) (d : List Byte) : Event := ⟨.au, BitVec.ofNat 8 i, d⟩

/-- Why a frame is rejected (R91; 42_superframe R161, R162). -/
inductive FrameReject where
  | lenMismatch
  | badLength
deriving DecidableEq, Repr

/-- The ARG of EV_FRAME_REJECT (R91). -/
def FrameReject.code : FrameReject → Byte
  | .lenMismatch => 0x01#8
  | .badLength => 0x02#8

/-- EV_FRAME_REJECT: BE16 of the rejected length (R91). -/
def evFrameReject (why : FrameReject) (n : Nat) : Event := ⟨.frameReject, why.code, be16Nat n⟩

/-- EV_RS_STATUS: ARG is RS_UNCORR, the payload BE16(RS_CORR) (R91, 41_reed_solomon R142). -/
def evRsStatus (unc : Bool) (corr : Word32) : Event :=
  ⟨.rsStatus, if unc then 0x01#8 else 0x00#8, be16Bytes (corr.setWidth 16)⟩

/-- EV_SYNC_START (R91). -/
def evSyncStart : Event := ⟨.syncStart, 0x00#8, []⟩

/-- EV_SYNC_OK: BE32 of SYNC_FRAMES before it is cleared (R91). -/
def evSyncOk (count : Word32) : Event := ⟨.syncOk, 0x00#8, be32Bytes count⟩

/-- EV_AU_CRC_ERR of AU i: the stored, then the computed CRC (R91). -/
def evAuCrcErr (i : Nat) (stored computed : Word16) : Event :=
  ⟨.auCrcErr, BitVec.ofNat 8 i, be16Bytes stored ++ be16Bytes computed⟩

/-- EV_CRC: ARG 0x02 for Fire, 0x03 for CCITT (R91). -/
def evCrc (which : Byte) (v : Word16) : Event := ⟨.crc, which, be16Bytes v⟩

/-- EV_RS_RESULT: the count byte, or 0xFF when uncorrectable, then the 120 codeword bytes (R91, 41_reed_solomon
R145). -/
def evRsResult (sent : List Byte) : RsResult → Event
  | .corrected k w => ⟨.rsResult, 0x00#8, BitVec.ofNat 8 k :: w⟩
  | .uncorrectable => ⟨.rsResult, 0x01#8, 0xFF#8 :: sent⟩

/-- EV_STATUS: the status words (R91). -/
def evStatus (words : List Word32) : Event := ⟨.status, 0x00#8, words.flatMap be32Bytes⟩

/-- EV_CMD_ERR: the reason, then OPC and RSV of the rejected command (R91). -/
def evCmdErr (why : CmdReason) (opc rsv : Byte) : Event := ⟨.cmdErr, why.code, [opc, rsv]⟩

/-! ## Carrying out a command (45_control R250, 10_state R31) -/

/-- EVQ has a free place (10_state R31). -/
def State.evqHasRoom (s : State) : Bool := s.evq.length < s.params.evtDepth

/-- EVT_VALID, the optional output level: EVQ is non-empty (60_exceptions R274). -/
def State.evtValid (s : State) : Bool := !s.evq.isEmpty

/-- The registers become r. -/
def State.setRegs (r : Regs) (s : State) : State := { s with regs := r }

/-- Appends a record to the tail of EVQ (30_encoding R92). -/
def State.pushEvent (e : Event) (s : State) : State := { s with evq := s.evq ++ [e] }

/-- CORE holds: what is left of the command stays to be done. -/
def State.hold (rest : List Effect) (s : State) : State := { s with held := rest }

/-- The command bytes not yet executed become `bytes`. -/
def State.setRx (bytes : List Byte) (s : State) : State := { s with rx := bytes }

/-- The turns to come become `turns`. -/
def State.setScript (turns : List Turn) (s : State) : State := { s with script := turns }

/-- Carries out effects in order. At an emit that finds EVQ full, CORE holds: nothing further changes until the
consumer takes a record (10_state R31, 70_reset R311; log 5). -/
def State.carryOut : List Effect → State → State
  | [], s => s.hold []
  | .write r :: rest, s => State.carryOut rest (s.setRegs r)
  | .emit e :: rest, s =>
    if s.evqHasRoom then State.carryOut rest (s.pushEvent e) else s.hold (.emit e :: rest)

/-- Executes a command whose effects are given: behind what is still held, if anything is (45_control R250, R251). -/
def perform (effects : List Effect) (s : State) : Host.Outcome State Fault Refusal :=
  .next (State.carryOut (s.held ++ effects) s)

/-! ## Command errors and resets -/

/-- `raise CmdError(why)`: exactly one EV_CMD_ERR, no state change (00_scope R15, 45_control R255). It is an event and
not a trap: nothing is saved and nothing returns (60_exceptions R272). -/
def raiseCmdError (why : CmdReason) (opc rsv : Byte) (s : State) : Host.Outcome State Fault Refusal :=
  perform [.emit (evCmdErr why opc rsv)] s

/-- The reset values of 10_state R35, which both resets apply (70_reset R300). -/
def resetRegs (_ : Regs) : Regs := Regs.reset

/-- RST: registers to their reset values, EVQ emptied, received bytes and the command in progress discarded
(70_reset R300, R301). -/
def State.rst (s : State) : State :=
  { s with regs := resetRegs s.regs, evq := [], rx := [], held := [] }

/-- The consumer takes the record at the head of EVQ (30_encoding R92, 20_memory R57); an empty EVQ gives it none and
nothing changes (log 9). -/
def State.take (s : State) : State :=
  match s.evq with
  | [] => s
  | e :: rest => { s with evq := rest, taken := s.taken ++ [e] }

/-- The host sends command bytes (70_reset R318). -/
def State.send (bytes : List Byte) (s : State) : State := { s with rx := s.rx ++ bytes }

end Sys2Proof.Machine
end

