-- ==== Sys2Proof/Machine/Flags.lean ====
section
/-! DEFINITION. Every flag and counter CORE computes: LATCHED with L and C, RS_UNCORR with RS_CORR, SYNC_FRAMES with
the out-of-sync condition, LAST_SYNC, FMT_SET with FMT_RAW (10_state R21 to R32). -/

namespace Sys2Proof.Machine

/-- L as a number of bytes. -/
def Regs.len (r : Regs) : Nat := r.l.toNat

/-- K of the latched L (41_reed_solomon R137). -/
def Regs.k (r : Regs) : Nat := codewords r.len

/-- Out of sync is SYNC_FRAMES ≠ 0, not a separate bit (10_state R26). -/
def Regs.outOfSync (r : Regs) : Bool := r.syncFrames != 0#32

/-- SYNC_FRAMES after a failed window: min(SYNC_FRAMES + 1, 0xFFFFFFFF) (42_superframe R168). -/
def satInc (x : Word32) : Word32 := if x = 0xFFFFFFFF#32 then x else x + 1#32

/-- Latches L on the first accepted frame (42_superframe R161); once latched nothing changes. -/
def Regs.latch (n : Nat) (r : Regs) : Regs :=
  if r.latched then r else { r with latched := true, l := BitVec.ofNat 16 n }

/-- C < 5: the window is not complete (42_superframe R165). -/
def Regs.windowOpen (r : Regs) : Bool := r.c.toNat < framesPerSf

/-- The lengths the gate admits are the multiples of 24 from 24 on (42_superframe R161, 10_state R21). -/
def legalLen (n : Nat) : Bool := 24 ≤ n && n % 24 == 0

/-- The RS totals of a pass (41_reed_solomon R141). -/
def Regs.setRsTotals (corr : Nat) (unc : Bool) (r : Regs) : Regs :=
  { r with rsCorr := BitVec.ofNat 32 corr, rsUncorr := unc }

/-- LAST_SYNC of a failed check (42_superframe R168 step 1). -/
def Regs.setLastSync (reason : BitVec 3) (r : Regs) : Regs := { r with lastSync := reason }

/-- SYNC_FRAMES counts a failed window (42_superframe R168 step 3). -/
def Regs.countFailure (r : Regs) : Regs := { r with syncFrames := satInc r.syncFrames }

/-- SYNC_FRAMES is cleared on recovery (42_superframe R170). -/
def Regs.clearSync (r : Regs) : Regs := { r with syncFrames := 0#32 }

/-- Entry j of AU_START after a success with table t: t[j] up to the sentinel, 0 above (42_superframe R171). -/
def auEntry (nAu : Nat) (t : List Nat) (j : Nat) : Word32 :=
  if j ≤ nAu then BitVec.ofNat 32 (t.getD j 0) else 0#32

/-- The AU table update of a successful check (42_superframe R171). -/
def Regs.setAuTable (nAu : Nat) (t : List Nat) (r : Regs) : Regs :=
  { r with
    lastSync := 1#3
    n := BitVec.ofNat 3 nAu
    auStart := #v[auEntry nAu t 0, auEntry nAu t 1, auEntry nAu t 2, auEntry nAu t 3, auEntry nAu t 4,
      auEntry nAu t 5, auEntry nAu t 6] }

/-- AU_START[j]; there is no entry above 6 (10_state R30). -/
def Regs.auStartAt (r : Regs) (j : Nat) : Nat := (r.auStart.toList.getD j 0#32).toNat

/-- The format changed: none was ever set, or WORK[2] differs from FMT_RAW in any of its 8 bits (42_superframe
R172). -/
def Regs.formatChanged (r : Regs) : Bool := !r.fmtSet || Memory.read r.work 2 != r.fmtRaw

/-- FMT_SET and FMT_RAW on a format change (42_superframe R172). -/
def Regs.setFormat (r : Regs) : Regs := { r with fmtSet := true, fmtRaw := Memory.read r.work 2 }

/-- The window is over: C <- 0 (42_superframe R174). -/
def Regs.closeWindow (r : Regs) : Regs := { r with c := 0#3 }

end Sys2Proof.Machine
end

