-- ==== Sys2Proof/Machine/Control.lean ====
section
/-! DEFINITION. The control commands READ_STATUS and SOFT_RESET (45_control R252, R253). -/

namespace Sys2Proof.Machine

/-- A flag as a status word: bit 0 (10_state R33). -/
def flagWord (b : Bool) : Word32 := if b then 1#32 else 0#32

/-- The seventeen status words in word order (10_state R33). -/
def statusWords (r : Regs) : List Word32 :=
  [flagWord r.latched, r.l.setWidth 32, r.c.setWidth 32, r.syncFrames, flagWord r.fmtSet, r.fmtRaw.setWidth 32,
    r.rsCorr, flagWord r.rsUncorr, r.lastSync.setWidth 32, r.n.setWidth 32] ++ r.auStart.toList

/-- READ_STATUS: one EV_STATUS of 68 bytes; nothing else changes (45_control R252, 20_memory R57). -/
def execReadStatus (s : State) : Host.Outcome State Fault Refusal :=
  perform [.emit (evStatus (statusWords s.regs))] s

/-- SOFT_RESET: the reset values of 10_state R35 to everything but EVQ; no event (45_control R253). -/
def execSoftReset (s : State) : Host.Outcome State Fault Refusal :=
  perform [.write (resetRegs s.regs)] s

end Sys2Proof.Machine
end

