-- ==== Sys2Proof/Machine/Crc.lean ====
section
/-! DEFINITION. The two CRC-16 generators (40_crc R110 to R115) and the commands FIRE_CRC and CCITT_CRC (R117, R118). -/

namespace Sys2Proof.Machine

/-- The engine over the bits that are left: fb = data bit ^ crc[15]; shift left; if fb, XOR the generator (40_crc
R110). -/
def crcBits (poly : Word16) : Word16 → List Bool → Word16
  | crc, [] => crc
  | crc, bit :: rest =>
    if bit ^^ crc.getLsbD 15 then crcBits poly ((crc <<< 1) ^^^ poly) rest else crcBits poly (crc <<< 1) rest

/-- `crc16(P, I, X, data)`: bytes in index order, each from bit 7 to bit 0, not augmented (40_crc R110). -/
def crc16 (poly init xorOut : Word16) (data : List Byte) : Word16 :=
  crcBits poly init (data.flatMap byteBits) ^^^ xorOut

/-- The Fire-code generator (40_crc R111). -/
def fire (p : Params) (data : List Byte) : Word16 := crc16 p.firePoly p.fireInit p.fireXorOut data

/-- The CCITT generator (40_crc R114). -/
def ccitt (p : Params) (data : List Byte) : Word16 := crc16 ccittPoly p.ccittInit p.ccittXorOut data

/-- FIRE_CRC: EV_CRC(0x02, BE16(fire(PAYLOAD))); no other state changes (40_crc R117). -/
def execFireCrc (message : List Byte) (s : State) : Host.Outcome State Fault Refusal :=
  perform [.emit (evCrc 0x02#8 (fire s.params message))] s

/-- CCITT_CRC: EV_CRC(0x03, BE16(ccitt(PAYLOAD))); no other state changes (40_crc R118). -/
def execCcittCrc (message : List Byte) (s : State) : Host.Outcome State Fault Refusal :=
  perform [.emit (evCrc 0x03#8 (ccitt s.params message))] s

end Sys2Proof.Machine
end

