-- ==== Sys2Proof/Machine/Pad.lean ====
section
/-! DEFINITION. The PAD/DSE locator and extractor (44_pad R230 to R240). -/

namespace Sys2Proof.Machine

/-- Byte j of a CRC-stripped AU payload. -/
def byteAt (d : List Byte) (j : Nat) : Byte := d.getD j 0x00#8

/-- A DSE begins the payload: at least 3 bytes, and element id 4 in the top 3 bits of byte 0 (44_pad R231). -/
def startsWithDse (d : List Byte) : Bool := 3 ≤ d.length && (byteAt d 0 >>> 5) == 4#8

/-- pad_len: d[1], or 255 + d[2] when d[1] = 255 (44_pad R232). -/
def padLen (d : List Byte) : Nat :=
  if (byteAt d 1).toNat = 255 then 255 + (byteAt d 2).toNat else (byteAt d 1).toNat

/-- pad_start: 2, or 3 when d[1] = 255 (44_pad R232). -/
def padStart (d : List Byte) : Nat := if (byteAt d 1).toNat = 255 then 3 else 2

/-- The region holds the F-PAD and lies inside d (44_pad R233). -/
def padFits (d : List Byte) : Bool := fpadLen ≤ padLen d && padStart d + padLen d ≤ d.length

/-- The PAD region d[pad_start..pad_start + pad_len) (44_pad R235). -/
def padRegion (d : List Byte) : List Byte := (d.drop (padStart d)).take (padLen d)

/-- PAD_LOCATE(i, d): exactly one event (44_pad R230). -/
def padLocate (i : Nat) (d : List Byte) : Event :=
  if startsWithDse d && padFits d then evPad i (padRegion d) else evPadResetNone i

end Sys2Proof.Machine
end

