-- ==== Sys2Proof/Machine/Au.lean ====
section
/-! DEFINITION. The AU loop and the per-AU CRC validator (43_sync_and_au R200 to R206). -/

namespace Sys2Proof.Machine

/-- The stored CRC of the AU that ends at e: be16(WORK[e−2], WORK[e−1]) (43_sync_and_au R201). -/
def storedCrc (w : Memory) (e : Nat) : Word16 := be16 (Memory.read w (e - 2)) (Memory.read w (e - 1))

/-- The CRC-stripped payload WORK[s..e−2) (43_sync_and_au R204). -/
def auPayload (w : Memory) (s e : Nat) : List Byte := Memory.readBlock w s (e - s - 2)

/-- The pair of events of an AU that is skipped (43_sync_and_au R202, R203). -/
def auErrorEvents (i : Nat) (stored computed : Word16) : List Event :=
  [evAuCrcErr i stored computed, evPadResetCrc i]

/-- The events of AU i, WORK[s..e): shorter than two bytes, CRC mismatch, or PAD event and EV_AU (43_sync_and_au
R200). -/
def auEvents (p : Params) (w : Memory) (i s e : Nat) : List Event :=
  if e - s < 2 then auErrorEvents i 0x0000#16 0x0000#16
  else if storedCrc w e ≠ ccitt p (auPayload w s e) then
    auErrorEvents i (storedCrc w e) (ccitt p (auPayload w s e))
  else [padLocate i (auPayload w s e), evAu i (auPayload w s e)]

/-- AU_LOOP: the AUs 0..N−1 in index order, by the N and AU_START of the registers (43_sync_and_au R200). -/
def auLoop (p : Params) (r : Regs) : List Event :=
  (List.range r.n.toNat).flatMap fun i => auEvents p r.work i (r.auStartAt i) (r.auStartAt (i + 1))

end Sys2Proof.Machine
end

