-- ==== Sys2Proof/Machine/Galois.lean ====
section
/-! DEFINITION. GF(256) with field polynomial 0x11D and primitive element 0x02 (41_reed_solomon R130). -/

namespace Sys2Proof.Machine

/-- Times α: shift left and, if bit 8 comes out, XOR 0x11D (41_reed_solomon R130). -/
def xtime (p : Byte) : Byte := if p.getLsbD 7 then (p <<< 1) ^^^ 0x1D#8 else p <<< 1

/-- The rounds of the product over the bits of the multiplier that are left, highest first: p times α, plus a when the
bit is set (41_reed_solomon R130). -/
def gmulFrom (a : Byte) : Byte → List Bool → Byte
  | p, [] => p
  | p, bit :: rest => gmulFrom a (if bit then xtime p ^^^ a else xtime p) rest

/-- `gmul(a, b)`, over the bits of b from 7 down to 0 (41_reed_solomon R130). -/
def gmul (a b : Byte) : Byte := gmulFrom a 0x00#8 (byteBits b)

/-- α^e, by e multiplications with α. -/
def alphaPow : Nat → Byte
  | 0 => 0x01#8
  | e + 1 => xtime (alphaPow e)

/-- `alpha(e)` = α^(e mod 255) (41_reed_solomon R135). -/
def alpha (e : Nat) : Byte := alphaPow (e % 255)

/-- Squares s and multiplies it into acc, n times. -/
def squareMul : Nat → Byte → Byte → Byte
  | 0, _, acc => acc
  | n + 1, s, acc => squareMul n (gmul s s) (gmul acc (gmul s s))

/-- `inverse(a)` = a^254, since a^255 = 1 for every non-zero a (41_reed_solomon R130); 0 for 0. -/
def ginv (a : Byte) : Byte := squareMul 7 a 0x01#8

/-- Horner's rule from the partial value acc on. A zero acc needs no product: gmul(0, x) = 0. -/
def polyEvalFrom (x : Byte) : Byte → List Byte → Byte
  | acc, [] => acc
  | acc, coef :: rest =>
    if acc = 0x00#8 then polyEvalFrom x coef rest else polyEvalFrom x (gmul acc x ^^^ coef) rest

/-- The value at x of the polynomial with coefficients cs, highest order first (41_reed_solomon R132, R133). -/
def polyEval (x : Byte) (cs : List Byte) : Byte := polyEvalFrom x 0x00#8 cs

end Sys2Proof.Machine
end

