-- ==== Sys2Proof/Machine/ReedSolomon.lean ====
section
/-! DEFINITION. RS(120,110): syndromes, the reference decoder, rsDecode with its laws, the pass over a window, and the
command RS_DECODE (41_reed_solomon R131 to R146). -/

namespace Sys2Proof.Machine

/-- The length of a shortened codeword (41_reed_solomon R132). -/
def rsLen : Nat := 120

/-- The number of check symbols (41_reed_solomon R131). -/
def rsRoots : Nat := 10

/-- The shortening: mother position of word position 0 (41_reed_solomon R132, R136). -/
def rsPad : Nat := 135

/-- S_j = c(α^j), word[0] the highest-order coefficient (41_reed_solomon R132, R133). -/
def syndrome (word : List Byte) (j : Nat) : Byte := polyEval (alpha j) word

/-- S_0..S_9. -/
def syndromes (word : List Byte) : List Byte := (List.range rsRoots).map (syndrome word)

/-- word is a codeword of RS(120,110): 120 bytes with every syndrome zero (41_reed_solomon R132, R133). -/
def isCodeword (word : List Byte) : Bool :=
  word.length == rsLen && (syndromes word).all (· == 0x00#8)

/-- dist(u, v): the number of positions where two words differ (41_reed_solomon R134). -/
def dist (u v : List Byte) : Nat := ((List.zip u v).filter fun q => q.1 != q.2).length

/-! ## The reference instance (41_reed_solomon R135)

The pseudocode keeps b in log form, with A0 for zero. Here b holds the field elements themselves, so A0 is 0 and a sum
of logs is a product (log 13). Polynomials are lists of 11 coefficients, lowest order first. -/

/-- The Berlekamp–Massey registers (R135 step 2). -/
structure BmState where
  lambda : List Byte
  b : List Byte
  el : Nat
deriving DecidableEq, Repr

/-- lambda = 1, b = 1, el = 0. -/
def BmState.start : BmState := ⟨0x01#8 :: List.replicate 10 0x00#8, 0x01#8 :: List.replicate 10 0x00#8, 0⟩

/-- The discrepancy of round r: XOR over i < r of lambda[i]·S_(r−1−i). -/
def discrepancy (s lambda : List Byte) (r : Nat) : Byte :=
  (List.range r).foldl (fun acc i => acc ^^^ gmul (lambda.getD i 0x00#8) (s.getD (r - 1 - i) 0x00#8)) 0x00#8

/-- b shifted up by one place. -/
def shiftUp (b : List Byte) : List Byte := 0x00#8 :: b.take 10

/-- Round r of Berlekamp–Massey (R135 step 2). -/
def bmRound (s : List Byte) (st : BmState) (r : Nat) : BmState :=
  let discr := discrepancy s st.lambda r
  if discr = 0x00#8 then { st with b := shiftUp st.b }
  else
    let t := List.zipWith (fun x y => x ^^^ gmul discr y) st.lambda (shiftUp st.b)
    if 2 * st.el ≤ r - 1 then ⟨t, st.lambda.map (gmul (ginv discr)), r - st.el⟩
    else ⟨t, shiftUp st.b, st.el⟩

/-- lambda after the ten rounds r = 1..10. -/
def errorLocator (s : List Byte) : List Byte :=
  ((List.range rsRoots).foldl (fun st r => bmRound s st (r + 1)) BmState.start).lambda

/-- The largest i with lambda[i] ≠ 0 (lambda[0] = 1). -/
def degree (lambda : List Byte) : Nat :=
  (List.range lambda.length).foldl (fun d i => if lambda.getD i 0x00#8 = 0x00#8 then d else i) 0

/-- The Chien search over n mother positions from x = alpha(i) on: the pairs (i, alpha(i)) where lambda vanishes (R135
step 3). -/
def chien (lambda : List Byte) : Nat → Nat → Byte → List (Nat × Byte)
  | 0, _, _ => []
  | n + 1, i, x =>
    if polyEval x lambda.reverse = 0x00#8 then (i, x) :: chien lambda n (i + 1) (xtime x)
    else chien lambda n (i + 1) (xtime x)

/-- omega(x) = (S(x)·lambda(x)) mod x^deg (R135 step 4). -/
def omega (s lambda : List Byte) (deg : Nat) : List Byte :=
  (List.range deg).map fun i =>
    (List.range (i + 1)).foldl (fun acc j => acc ^^^ gmul (lambda.getD j 0x00#8) (s.getD (i - j) 0x00#8)) 0x00#8

/-- The coefficients of Σ over odd j of lambda[j]·x^(j−1): every other one is zero (R135 step 4, den). -/
def oddPart (lambda : List Byte) : List Byte :=
  (List.range 9).map fun i => if i % 2 = 0 then lambda.getD (i + 1) 0x00#8 else 0x00#8

/-- Forney's correction at one root; a location in the virtual prefix, or with num = 0, changes no byte (R135 step 4,
R136). -/
def forney (s lambda : List Byte) (deg : Nat) (word : List Byte) (root : Nat × Byte) : List Byte :=
  let num := polyEval root.2 (omega s lambda deg).reverse
  let den := polyEval root.2 (oddPart lambda).reverse
  let mag := gmul (gmul num (ginv root.2)) (ginv den)
  let loc := root.1 - 1
  if num ≠ 0x00#8 ∧ rsPad ≤ loc then word.modify (loc - rsPad) (· ^^^ mag) else word

/-- The reference decoder, step by step as R135 writes it. -/
def rsDecodeRef (word : List Byte) : RsResult :=
  let s := syndromes word
  if s.all (· == 0x00#8) then .corrected 0 word
  else
    let lambda := errorLocator s
    let deg := degree lambda
    let roots := (chien lambda 255 1 (alpha 1)).take deg
    if roots.length ≠ deg then .uncorrectable
    else .corrected deg (roots.foldl (forney s lambda deg) word)

/-! ## rsDecode, with the laws of 41_reed_solomon R134 -/

/-- The codeword within five errors that the reference decoder finds, if it finds one (R134 law 2). -/
def rsNearest (word : List Byte) : Option (List Byte) :=
  match rsDecodeRef word with
  | .corrected _ w => if isCodeword w && dist word w ≤ 5 then some w else none
  | .uncorrectable => none

/-- Law 3: an answer beyond five errors is Uncorrectable, or Corrected(k, w') with 1 ≤ k ≤ 10 and dist(word, w') ≤ k.
An answer the law forbids counts as Uncorrectable (log 3, log 4). -/
def lawful (word : List Byte) : RsResult → RsResult
  | .corrected k w =>
    if 1 ≤ k ∧ k ≤ 10 ∧ w.length = word.length ∧ dist word w ≤ k then .corrected k w else .uncorrectable
  | .uncorrectable => .uncorrectable

/-- What decides beyond five errors: the reference instance, or the implementation's own (a FREE VALUE). -/
def rsBeyond (p : Params) (word : List Byte) : RsResult :=
  match p.rs with
  | .reference => rsDecodeRef word
  | .implementation => Config.rsBeyond word

/-- `rsDecode(word)` (R134): law 1 for a codeword, law 2 within five errors, law 3 beyond. It reads no state (law 4). -/
def rsDecode (p : Params) (word : List Byte) : RsResult :=
  if isCodeword word then .corrected 0 word
  else
    match rsNearest word with
    | some w => .corrected (dist word w) w
    | none => lawful word (rsBeyond p word)

/-! ## The RS pass (41_reed_solomon R137 to R144) -/

/-- `extract(B, i)[pos] = B[pos·K + i]` (R138). -/
def extractWord (m : Memory) (k i : Nat) : List Byte :=
  (List.range rsLen).map fun pos => Memory.read m (pos * k + i)

/-- `insert(B, i, w)`: `B[pos·K + i] <- w[pos]`, all 120 positions (R138, R140). -/
def insertWord (m : Memory) (k i : Nat) (w : List Byte) : Memory :=
  (List.range rsLen).foldl (fun m pos => Memory.write m (pos * k + i) (w.getD pos 0x00#8)) m

/-- WORK and the running totals of the pass (R140). -/
structure PassState where
  work : Memory
  corr : Nat
  unc : Bool
deriving DecidableEq, Repr

/-- Codeword i of the pass (R140). -/
def passWord (p : Params) (k : Nat) (st : PassState) (i : Nat) : PassState :=
  match rsDecode p (extractWord st.work k i) with
  | .corrected count w => { st with work := insertWord st.work k i w, corr := st.corr + count }
  | .uncorrectable => { st with unc := true }

/-- The codewords 0..K−1 in order (R139, R140). -/
def passWords (p : Params) (k : Nat) (work : Memory) : PassState :=
  (List.range k).foldl (passWord p k) ⟨work, 0, false⟩

/-- RS_PASS: writes WORK, RS_CORR and RS_UNCORR; never RAW (R140, R141). -/
def rsPass (p : Params) (r : Regs) : Regs :=
  let st := passWords p r.k r.work
  { r.setRsTotals st.corr st.unc with work := st.work }

/-- EV_RS_STATUS when something was corrected or was uncorrectable, and only then (R142). -/
def rsStatusEvents (r : Regs) : List Event :=
  if r.rsCorr ≠ 0#32 ∨ r.rsUncorr = true then [evRsStatus r.rsUncorr r.rsCorr] else []

/-! ## RS_DECODE -/

/-- RS_DECODE: one EV_RS_RESULT; no other state changes (R145). A word that is not 120 bytes long is no payload of the
command: CmdError BAD_LENGTH (30_encoding R74, R75; log 10). -/
def execRsDecode (word : List Byte) (s : State) : Host.Outcome State Fault Refusal :=
  if word.length = rsLen then perform [.emit (evRsResult word (rsDecode s.params word))] s
  else raiseCmdError .badLength 0x04#8 0x00#8 s

end Sys2Proof.Machine
end

