-- ==== Sys2Proof/Machine/Sync.lean ====
section
/-! DEFINITION. The sync check and the AU boundary offset parser (43_sync_and_au R190 to R199). -/

namespace Sys2Proof.Machine

/-- Why a window fails the sync check (43_sync_and_au R198). -/
inductive SyncReason where
  | zeroGuard
  | fireMismatch
  | notIncreasing
deriving DecidableEq, Repr

/-- The reason as LAST_SYNC holds it (10_state R29, 43_sync_and_au R198). -/
def SyncReason.code : SyncReason → BitVec 3
  | .zeroGuard => 2#3
  | .fireMismatch => 3#3
  | .notIncreasing => 4#3

/-- What SYNC_CHECK returns: Fail(reason), or Ok(N, T[0..N]) (43_sync_and_au R190). -/
inductive SyncResult where
  | fail (why : SyncReason)
  | ok (nAu : Nat) (table : List Nat)
deriving DecidableEq, Repr

/-- Bytes 3 and 4 are both zero (43_sync_and_au R192). -/
def zeroGuard (w : Memory) : Bool := Memory.read w 3 == 0x00#8 && Memory.read w 4 == 0x00#8

/-- The stored Fire word equals the computed one over bytes 2..10 (43_sync_and_au R193, 40_crc R112). -/
def fireMatches (p : Params) (w : Memory) : Bool :=
  be16 (Memory.read w 0) (Memory.read w 1) == fire p (Memory.readBlock w 2 9)

/-- The packed offsets au_start[1..5], all five fields; those beyond N−1 are not used (30_encoding R86,
43_sync_and_au R195). -/
def packedOffsets (w : Memory) : List Nat :=
  let b := Memory.read w
  [offsetHigh (b 3) (b 4), offsetLow (b 4) (b 5), offsetHigh (b 6) (b 7), offsetLow (b 7) (b 8),
    offsetHigh (b 9) (b 10)]

/-- T[0..N]: the first offset, the N−1 packed offsets, the sentinel (43_sync_and_au R190 steps 4 and 5). -/
def auTable (w : Memory) (k : Nat) : List Nat :=
  let f := fmt (Memory.read w 2)
  firstOffset f :: ((packedOffsets w).take (auCount f - 1) ++ [k * 110])

/-- Every adjacent pair increases strictly (43_sync_and_au R197). -/
def increasing : List Nat → Bool
  | x :: y :: rest => x < y && increasing (y :: rest)
  | _ => true

/-- SYNC_CHECK: zero guard, Fire code, table, monotonicity; the first test that fails decides (43_sync_and_au R190).
It reads WORK[0..10] and K and writes nothing. -/
def syncCheck (p : Params) (w : Memory) (k : Nat) : SyncResult :=
  if zeroGuard w then .fail .zeroGuard
  else if !fireMatches p w then .fail .fireMismatch
  else if !increasing (auTable w k) then .fail .notIncreasing
  else .ok (auCount (fmt (Memory.read w 2))) (auTable w k)

end Sys2Proof.Machine
end

