-- ==== Sys2Proof/Machine/Feed.lean ====
section
/-! DEFINITION. The Superframe buffer and the command FEED (42_superframe R160 to R178). -/

namespace Sys2Proof.Machine

/-- The first-frame gate: n ≥ 10, 5·n mod 120 = 0 and n ≤ L_MAX (42_superframe R161). -/
def firstFrameOk (p : Params) (n : Nat) : Bool :=
  lMin ≤ n && framesPerSf * n % 120 == 0 && n ≤ p.lMax

/-- Step 1, length gating: why a frame of n bytes is rejected, or nothing (42_superframe R161, R162). -/
def feedGate (p : Params) (r : Regs) (n : Nat) : Option FrameReject :=
  if r.latched then if n = r.len then none else some .lenMismatch
  else if firstFrameOk p n then none else some .badLength

/-- Step 2, sliding accumulation: into slot C while C < 5; else slots 1..4 move down and the frame goes to slot 4
(42_superframe R163). -/
def accumulate (frame : List Byte) (r : Regs) : Regs :=
  if r.windowOpen then
    { r with raw := Memory.writeBlock r.raw (r.c.toNat * r.len) frame, c := r.c + 1#3 }
  else
    { r with
      raw := Memory.writeBlock (Memory.writeBlock r.raw 0 (Memory.readBlock r.raw r.len (4 * r.len)))
        (4 * r.len) frame }

/-- Step 4: WORK[0..5·L) <- RAW[0..5·L) (42_superframe R166). -/
def copyWindow (r : Regs) : Regs :=
  { r with work := Memory.writeBlock r.work 0 (Memory.readBlock r.raw 0 (framesPerSf * r.len)) }

/-- The registers after steps 1 and 2 of an accepted frame. -/
def acceptFrame (frame : List Byte) (r : Regs) : Regs := accumulate frame (r.latch frame.length)

/-- The registers after step 4 of a complete window: the copy, then the RS pass (42_superframe R166, R167). -/
def evaluateWindow (p : Params) (r : Regs) : Regs := rsPass p (copyWindow r)

/-- Step 5, failure: LAST_SYNC, EV_SYNC_START on the 0→1 transition, SYNC_FRAMES; C stays (42_superframe R168). -/
def failEffects (why : SyncReason) (r : Regs) : List Effect :=
  let noted := r.setLastSync why.code
  .write noted ::
    ((if noted.outOfSync then [] else [.emit evSyncStart]) ++ [.write noted.countFailure])

/-- Step 5, recovery: EV_SYNC_OK, SYNC_FRAMES <- 0, EV_PAD_RESET(0x0F); nothing when in sync (42_superframe R170). -/
def recoveryEffects (r : Regs) : List Effect :=
  if r.outOfSync then [.emit (evSyncOk r.syncFrames), .write r.clearSync, .emit evPadResetSync] else []

/-- Step 6, format dispatch (42_superframe R172). -/
def formatEffects (r : Regs) : List Effect :=
  if r.formatChanged then [.write r.setFormat, .emit (evFormat (Memory.read r.work 2))] else []

/-- The registers after step 6. -/
def afterFormat (r : Regs) : Regs := if r.formatChanged then r.setFormat else r

/-- Steps 5 to 8 of a window that passes: AU table, recovery, format, AU loop, C <- 0 (42_superframe R170 to R174). -/
def okEffects (p : Params) (nAu : Nat) (table : List Nat) (r : Regs) : List Effect :=
  let tabled := r.setAuTable nAu table
  let synced := tabled.clearSync
  .write tabled ::
    (recoveryEffects tabled ++ formatEffects synced ++ (auLoop p synced).map .emit ++
      [.write (afterFormat synced).closeWindow])

/-- Steps 4 to 8: what a complete window does (42_superframe R160). -/
def windowEffects (p : Params) (r : Regs) : List Effect :=
  let passed := evaluateWindow p r
  .write passed ::
    ((rsStatusEvents passed).map .emit ++
      match syncCheck p passed.work passed.k with
      | .fail why => failEffects why passed
      | .ok nAu table => okEffects p nAu table passed)

/-- FEED, step by step (42_superframe R160). -/
def feedEffects (p : Params) (frame : List Byte) (r : Regs) : List Effect :=
  match feedGate p r frame.length with
  | some why => [.emit (evFrameReject why frame.length)]
  | none =>
    let accepted := acceptFrame frame r
    if accepted.windowOpen then [.write accepted] else .write accepted :: windowEffects p accepted

/-- An accepted frame finds buffers that hold every index of 20_memory R65: L is a length the gate admits (10_state
R21; log 8). -/
def feedInBounds (p : Params) (frame : List Byte) (r : Regs) : Bool :=
  (feedGate p r frame.length).isSome || legalLen (r.latch frame.length).len

/-- FEED (42_superframe R160). -/
def execFeed (frame : List Byte) (s : State) : Host.Outcome State Fault Refusal :=
  if feedInBounds s.params frame s.regs then perform (feedEffects s.params frame s.regs) s
  else .fault .bufferBounds

end Sys2Proof.Machine
end

