-- ==== Sys2Proof/Machine/Dispatch.lean ====
section
/-! DEFINITION. One arm per command (45_control R250: decode, then the rule of 30_encoding R72). -/

namespace Sys2Proof.Machine

def exec (i : Instr) (s : State) : Host.Outcome State Fault Refusal :=
  match i with
  | .feed frame => Sys2Proof.Machine.execFeed frame s
  | .fireCrc message => Sys2Proof.Machine.execFireCrc message s
  | .ccittCrc message => Sys2Proof.Machine.execCcittCrc message s
  | .rsDecode word => Sys2Proof.Machine.execRsDecode word s
  | .readStatus => Sys2Proof.Machine.execReadStatus s
  | .softReset => Sys2Proof.Machine.execSoftReset s

end Sys2Proof.Machine
end

