-- ==== Sys2Proof/Machine/Sequencer.lean ====
section
/-! DEFINITION. The command sequencer (45_control R250, R251) and the turns of the host (70_reset R318). -/

namespace Sys2Proof.Machine

/-- CORE's turn. A command that holds goes on, if EVQ has room by now (70_reset R311). Otherwise, the first whole
command at the port is executed, or raises its CmdError (45_control R250); while none is whole, CORE waits and
nothing changes (70_reset R312). -/
def coreTurn (s : State) : Host.Outcome State Fault Refusal :=
  match s.held with
  | _ :: _ => .next (State.carryOut s.held s)
  | [] =>
    match splitCommand s.rx with
    | none => .next s
    | some (c, rest) =>
      match decode c with
      | .instr i => exec i (s.setRx rest)
      | .rejected why => raiseCmdError why c.opc c.rsv (s.setRx rest)

/-- The host's turn (70_reset R318). -/
def hostTurn : HostAct → State → State
  | .send bytes, s => s.send bytes
  | .take, s => s.take
  | .rst, s => s.rst

/-- One turn: the script says whose; CORE's when it is empty (log 6). -/
def turn (s : State) : Host.Outcome State Fault Refusal :=
  match s.script with
  | [] => coreTurn s
  | .core :: rest => coreTurn (s.setScript rest)
  | .host a :: rest => .next (hostTurn a (s.setScript rest))

/-- s with the given command bytes at the head of the command port, no command in progress and CORE's turn next
(log 11). -/
def State.placeCommand (bytes : List Byte) (s : State) : State :=
  { s with rx := bytes ++ s.rx, held := [], script := [] }

end Sys2Proof.Machine
end

