-- ==== Sys2Proof/Machine/Step.lean ====
section
/-! DEFINITION. One step of the machine: one turn of the sequencer (45_control R250). -/

namespace Sys2Proof.Machine

/-- One step. -/
def step (s : State) : Host.Outcome State Fault Refusal := turn s

/-- s with the instruction of nbits table bits w where step takes its next command from: the head of the command port
(log 11, log 12). -/
def State.withFetchWord (s : State) (nbits w : Nat) : State := s.placeCommand (tableWordBytes nbits w)

end Sys2Proof.Machine
end

