-- ==== Sys2Proof/Safety.lean ====
section
/-! DEFINITION. What a good state is: the relations between the fields that the spec's rules state, in the terms the
claims use, and the observation of a run. -/

namespace Sys2Proof.Machine

/-! ## Effects -/

/-- The records a list of effects emits, in order. -/
def eventsOf : List Effect → List Event
  | [] => []
  | .write _ :: rest => eventsOf rest
  | .emit e :: rest => e :: eventsOf rest

/-- The registers after a list of effects. -/
def lastRegs : List Effect → Regs → Regs
  | [], r => r
  | .write r :: rest, _ => lastRegs rest r
  | .emit _ :: rest, r => lastRegs rest r

/-- The registers as they will be when the command in progress, if there is one, is done. -/
def State.settledRegs (s : State) : Regs := lastRegs s.held s.regs

/-- EVQ has room for k more records. -/
abbrev State.room (s : State) (k : Nat) : Prop := s.evq.length + k ≤ s.params.evtDepth

/-! ## Good registers -/

/-- Every listed index of a buffer is below n. -/
abbrev Memory.within (m : Memory) (n : Nat) : Prop := ∀ cell ∈ m, cell.1 < n

/-- L, C and LATCHED agree (10_state R21, R22). -/
abbrev Regs.geometryOk (p : Params) (r : Regs) : Prop :=
  (r.latched = false → r.l = 0#16 ∧ r.c = 0#3) ∧
  (r.latched = true → legalLen r.len = true ∧ r.len ≤ p.lMax) ∧ r.c.toNat ≤ framesPerSf

/-- RAW and WORK are in canonical form and lie in their 5·L bytes (20_memory R50, R65). -/
abbrev Regs.buffersOk (r : Regs) : Prop :=
  Memory.wf r.raw ∧ Memory.wf r.work ∧ Memory.within r.raw (framesPerSf * r.len) ∧
  Memory.within r.work (framesPerSf * r.len)

/-- N and AU_START: no table yet, or N starts that increase to the sentinel with zeros above (10_state R30, R33). -/
def Regs.auTableOk (r : Regs) : Bool :=
  let t := r.auStart.toList.map BitVec.toNat
  if r.n = 0#3 then t.all (· == 0)
  else [2, 3, 4, 6].contains r.n.toNat && increasing (t.take (r.n.toNat + 1)) &&
    r.auStartAt r.n.toNat == sentinel r.len && (t.drop (r.n.toNat + 1)).all (· == 0)

/-- FMT_RAW is 0 while FMT_SET = 0, RS_CORR is at most 10·K, LAST_SYNC is 0..4 (10_state R29, R33). -/
abbrev Regs.statusOk (r : Regs) : Prop :=
  (r.fmtSet = false → r.fmtRaw = 0x00#8) ∧ r.rsCorr.toNat ≤ 10 * r.k ∧ r.lastSync.toNat ≤ 4

/-- What holds of the registers at every moment. -/
abbrev Regs.Ok (p : Params) (r : Regs) : Prop :=
  r.geometryOk p ∧ r.buffersOk ∧ r.auTableOk = true ∧ r.statusOk

/-- What holds of them between commands: also, C = 5 only after a failed window (10_state R22). -/
abbrev Regs.Settled (p : Params) (r : Regs) : Prop :=
  r.Ok p ∧ (r.c = 5#3 → r.syncFrames ≠ 0#32)

/-! ## Good states -/

/-- No register write of the list changes LATCHED or L (10_state R21). -/
abbrev keepsLength (r : Regs) (es : List Effect) : Prop :=
  ∀ x ∈ es, ∀ r', x = .write r' → r'.latched = r.latched ∧ r'.l = r.l

/-- Every register write of the list writes good registers. -/
abbrev writesOk (p : Params) (es : List Effect) : Prop := ∀ x ∈ es, ∀ r, x = .write r → r.Ok p

/-- The register writes still to come write good registers with the L there is, and a held command begins with the
emit it holds at (70_reset R311). -/
abbrev heldOk (p : Params) (r : Regs) (held : List Effect) : Prop :=
  writesOk p held ∧ keepsLength r held ∧ ∀ r', held.head? ≠ some (.write r')

/-- The payload's length fits the record's ELEN (30_encoding R90). -/
abbrev Event.fits (e : Event) : Prop := e.payload.length ≤ 65535

/-- The machine's invariant. -/
structure State.Inv (s : State) : Prop where
  params : s.params.legal = true
  queue : s.evq.length ≤ s.params.evtDepth
  regs : s.regs.Ok s.params
  held : heldOk s.params s.regs s.held
  records : ∀ e ∈ s.evq ++ eventsOf s.held, e.fits
  settled : s.settledRegs.Settled s.params

/-- It is CORE's turn (log 6). -/
abbrev State.coreIsNext (s : State) : Prop := ∀ a, s.script.head? ≠ some (.host a)

/-- Two register states that differ at most where no rule looks: in WORK, and in RAW outside the C frames it holds
(10_state R22, R25). -/
structure Regs.Agree (r r' : Regs) : Prop where
  rest : r' = { r with raw := r'.raw, work := r'.work }
  raw : ∀ a, a < r.c.toNat * r.len → Memory.read r'.raw a = Memory.read r.raw a

/-- A run has ended: every command is executed, no partial command is pending, EVQ has been read empty (70_reset
R319). -/
def State.runEnded (s : State) : Bool :=
  s.rx.isEmpty && s.held.isEmpty && s.evq.isEmpty && s.script.isEmpty

/-- The observation of a run: the records read, and the status words of the final state; RAW and WORK are not part of
it (70_reset R319). -/
def State.observation (s : State) : List (List Byte) × List Word32 :=
  (s.taken.map Event.record, statusWords s.regs)

/-- An event of PAD class (43_sync_and_au R206). -/
def EvCode.padClass : EvCode → Bool
  | .pad => true
  | .padReset => true
  | _ => false

end Sys2Proof.Machine
end

