-- ==== Sys2Proof/Certificates/Slice0/Obligations.lean ====
section
/-! DEFINITION. The statements for the provers, from the numbered rules of spec/. -/

open Sys2Proof Sys2Proof.Machine

/-! ## Commands: encoding and decoding (30_encoding) -/

/-- R70 to R74: the encoding of every well-formed command, with any bytes after it, decodes to that command and leaves
those bytes. -/
def Obligations.EncodedCommandDecodesBack : Prop :=
  ∀ (i : Instr) (rest : List Byte), i.wellFormed = true →
    ∃ c, splitCommand (encode i ++ rest) = some (c, rest) ∧ decode c = .instr i

/-- R70 to R74: a stream that decodes to an instruction begins with that instruction's encoding, so each instruction has
one word. -/
def Obligations.DecodedCommandEncodesBack : Prop :=
  ∀ (bytes rest : List Byte) (c : Command) (i : Instr),
    splitCommand bytes = some (c, rest) → decode c = .instr i →
      bytes = encode i ++ rest ∧ i.wellFormed = true

/-- R70, R71: a command is OPC, RSV, LEN (big-endian), LEN bytes, whatever OPC is, and the next one starts right
after. -/
def Obligations.CommandIsHeaderAndPayload : Prop :=
  ∀ (bytes rest : List Byte) (c : Command),
    splitCommand bytes = some (c, rest) ↔
      (c.payload.length ≤ 65535 ∧
        bytes = c.opc :: c.rsv :: BitVec.ofNat 8 (c.payload.length / 256) ::
          BitVec.ofNat 8 (c.payload.length % 256) :: (c.payload ++ rest))

/-- R257: the checks in their order, the first that applies picking the reason; only the payload's length counts. -/
def Obligations.DecoderChecksInOrder : Prop :=
  ∀ c : Command,
    ((c.opc.toNat = 0 ∨ 7 ≤ c.opc.toNat) → decode c = .rejected .illegalOpcode) ∧
    (1 ≤ c.opc.toNat → c.opc.toNat ≤ 6 →
      (c.rsv ≠ 0x00#8 → decode c = .rejected .reservedNonzero) ∧
      (c.rsv = 0x00#8 →
        (c.opc.toNat = 1 → decode c = .instr (.feed c.payload)) ∧
        (c.opc.toNat = 2 → decode c = .instr (.fireCrc c.payload)) ∧
        (c.opc.toNat = 3 → decode c = .instr (.ccittCrc c.payload)) ∧
        (c.opc.toNat = 4 → decode c =
          if c.payload.length = 120 then .instr (.rsDecode c.payload) else .rejected .badLength) ∧
        (c.opc.toNat = 5 → decode c =
          if c.payload.length = 0 then .instr .readStatus else .rejected .badLength) ∧
        (c.opc.toNat = 6 → decode c =
          if c.payload.length = 0 then .instr .softReset else .rejected .badLength)))

/-- Header words in the layout of R70, with the opcodes of R72 and some headers R75 rejects, as the decoder reads them.
A word that carries LEN alone stands for the command with that many payload bytes 00: that fill is decodeTableWord's,
the model's choice (log 12). -/
def Obligations.SpecCommandWordsDecode : Prop :=
  decodeTableWord 32 0x05000000 = some .readStatus ∧ decodeTableWord 32 0x06000000 = some .softReset ∧
  decodeTableWord 32 0x03000000 = some (.ccittCrc []) ∧
  decodeTableWord 32 0x04000078 = some (.rsDecode (List.replicate 120 0x00#8)) ∧
  decodeTableWord 32 0x01000018 = some (.feed (List.replicate 24 0x00#8)) ∧
  decodeTableWord 32 0x02000009 = some (.fireCrc (List.replicate 9 0x00#8)) ∧
  decodeTableWord 32 0x00000000 = none ∧ decodeTableWord 32 0x07000000 = none ∧
  decodeTableWord 32 0x01010000 = none ∧ decodeTableWord 32 0x0400000A = none

/-! ## The sequencer (45_control, 70_reset) -/

/-- R250: on CORE's turn with no command in progress, a whole command that decodes is executed, its bytes consumed. -/
def Obligations.StepRunsDecodedCommand : Prop :=
  ∀ (s : State) (c : Command) (rest : List Byte) (i : Instr),
    s.coreIsNext → s.held = [] → splitCommand s.rx = some (c, rest) → decode c = .instr i →
      step s = exec i { s with rx := rest, script := s.script.tail }

/-- R255, R71: a rejected command emits one EV_CMD_ERR with the reason, OPC and RSV, consumes its bytes and changes
nothing else. -/
def Obligations.RejectedCommandOnlyEmitsError : Prop :=
  ∀ (s : State) (c : Command) (rest : List Byte) (why : CmdReason),
    s.coreIsNext → s.held = [] → s.room 1 →
    splitCommand s.rx = some (c, rest) → decode c = .rejected why →
      step s = .next { s with
        rx := rest
        script := s.script.tail
        evq := s.evq ++ [⟨.cmdErr,
          match why with | .illegalOpcode => 0x01#8 | .reservedNonzero => 0x02#8 | .badLength => 0x03#8,
          [c.opc, c.rsv]⟩] }

/-- R312: while a command is not whole, CORE's turn changes nothing but the turn; the command that the host then
completes runs as if it had arrived at once. -/
def Obligations.PartialCommandWaits : Prop :=
  ∀ (s : State), s.coreIsNext → s.held = [] →
    (splitCommand s.rx = none → step s = .next { s with script := s.script.tail }) ∧
    (∀ (more : List Byte) (rest : List Turn), s.script = .core :: .host (.send more) :: rest →
      splitCommand s.rx = none →
      ∃ t, step s = .next t ∧ step t = .next { s with rx := s.rx ++ more, script := rest })

/-- R300: RST sets every register to its reset value, empties EVQ, and discards the bytes received and the command in
progress. -/
def Obligations.RstResetsEverything : Prop :=
  ∀ (s : State) (rest : List Turn), s.script = .host .rst :: rest →
    ∃ t, step s = .next t ∧ t.regs.latched = false ∧ t.regs.l = 0#16 ∧ t.regs.c = 0#3 ∧
      t.regs.syncFrames = 0#32 ∧ t.regs.fmtSet = false ∧ t.regs.fmtRaw = 0x00#8 ∧ t.regs.rsCorr = 0#32 ∧
      t.regs.rsUncorr = false ∧ t.regs.lastSync = 0#3 ∧ t.regs.n = 0#3 ∧
      t.regs.auStart = Vector.replicate 7 0#32 ∧ t.evq = [] ∧ t.rx = [] ∧ t.held = [] ∧
      t.params = s.params ∧ t.script = rest ∧ t.taken = s.taken

/-- R57, R92, R318: the consumer gets the record at the head of EVQ, which leaves it, and nothing else changes. (An
empty EVQ gives nothing: the model's choice, log 9.) -/
def Obligations.TakeGivesOldestRecord : Prop :=
  ∀ (s : State) (rest : List Turn), s.script = .host .take :: rest →
    (∀ e more, s.evq = e :: more →
      step s = .next { s with script := rest, evq := more, taken := s.taken ++ [e] }) ∧
    (s.evq = [] → step s = .next { s with script := rest })

/-- R311: at an emit with EVQ full CORE changes nothing until a record is taken; with room it appends the record and
goes on with the rest of the command, to its end or to the next emit that finds EVQ full. -/
def Obligations.FullQueueHoldsTheCommand : Prop :=
  ∀ (s : State) (e : Event) (more : List Effect), s.coreIsNext → s.held = .emit e :: more →
    (s.params.evtDepth ≤ s.evq.length → step s = .next { s with script := s.script.tail }) ∧
    (s.evq.length < s.params.evtDepth →
      ∃ t done, step s = .next t ∧ more = done ++ t.held ∧ t.evq = s.evq ++ e :: eventsOf done ∧
        t.regs = lastRegs done s.regs ∧
        (t.held = [] ∨ ∃ next rest, t.held = .emit next :: rest ∧ t.params.evtDepth ≤ t.evq.length))

/-- R250, R311: whether or not a command holds, its effects are those of the whole command in its order: what EVQ has
and what is still held make up all its records, and the registers end as they should. -/
def Obligations.HoldingLosesNothing : Prop :=
  ∀ (s : State) (effects : List Effect), s.held = [] →
    ∃ t, perform effects s = .next t ∧ t.settledRegs = lastRegs effects s.regs ∧
      t.evq ++ eventsOf t.held = s.evq ++ eventsOf effects ∧
      (t.held ≠ [] → s.evq.length ≤ s.params.evtDepth → t.evq.length = s.params.evtDepth)

/-- R31, R62: no step but RST drops, withdraws or reorders a record: those taken and queued only grow at the end. -/
def Obligations.RecordsAreNeverLost : Prop :=
  ∀ (s t : State), step s = .next t → s.script.head? ≠ some (.host .rst) →
    ∃ new, t.taken ++ t.evq = (s.taken ++ s.evq) ++ new

/-- R33, R256: between commands, the registers change only by FEED, SOFT_RESET or RST. -/
def Obligations.OnlyFeedAndResetsChangeRegs : Prop :=
  ∀ (s t : State), step s = .next t → s.held = [] → t.regs ≠ s.regs →
    s.script.head? = some (.host .rst) ∨
    (s.coreIsNext ∧ ∃ c rest, splitCommand s.rx = some (c, rest) ∧
      ((∃ frame, decode c = .instr (.feed frame)) ∨ decode c = .instr .softReset))

/-- R21: once LATCHED, L stays until a reset, also while a command is held. (The premise on the held command is part of
State.Inv, which every step keeps.) -/
def Obligations.LatchedLengthIsImmutable : Prop :=
  ∀ (s t : State), step s = .next t → keepsLength s.regs s.held → s.regs.latched = true →
    (t.regs.latched = true ∧ t.regs.l = s.regs.l) ∨
    s.script.head? = some (.host .rst) ∨
    (s.coreIsNext ∧ s.held = [] ∧
      ∃ c rest, splitCommand s.rx = some (c, rest) ∧ decode c = .instr .softReset)

/-! ## CRC generators (40_crc) -/

/-- R117, R111: FIRE_CRC emits EV_CRC(0x02) with the Fire CRC of the payload, and nothing else changes. -/
def Obligations.FireCrcEmitsItsResult : Prop :=
  ∀ (s : State) (message : List Byte), s.held = [] → s.room 1 →
    exec (.fireCrc message) s = .next { s with
      evq := s.evq ++ [⟨.crc, 0x02#8,
        be16Bytes (crc16 s.params.firePoly s.params.fireInit s.params.fireXorOut message)⟩] }

/-- R118, R114: CCITT_CRC emits EV_CRC(0x03) with the CCITT CRC of the payload, and nothing else changes. -/
def Obligations.CcittCrcEmitsItsResult : Prop :=
  ∀ (s : State) (message : List Byte), s.held = [] → s.room 1 →
    exec (.ccittCrc message) s = .next { s with
      evq := s.evq ++ [⟨.crc, 0x03#8,
        be16Bytes (crc16 0x1021#16 s.params.ccittInit s.params.ccittXorOut message)⟩] }

/-- R116: linearity of the engine, and the Fire CRC with its default constants. -/
def Obligations.CrcIsLinear : Prop :=
  (∀ (poly init xorOut : Word16) (a b : List Byte), a.length = b.length →
    crc16 poly init xorOut (List.zipWith (· ^^^ ·) a b) =
      crc16 poly init xorOut a ^^^ crc16 poly init xorOut b ^^^
        crc16 poly init xorOut (List.replicate a.length 0x00#8)) ∧
  (∀ n, fire Params.default (List.replicate n 0x00#8) = 0x0000#16) ∧
  (∀ a b : List Byte, a.length = b.length →
    fire Params.default (List.zipWith (· ^^^ ·) a b) = fire Params.default a ^^^ fire Params.default b)

/-- R120: the residues, and that comparing with the stored word and testing for the residue agree. -/
def Obligations.CrcResiduesAgree : Prop :=
  ∀ (m : List Byte) (stored : Word16),
    (fire Params.default (m ++ be16Bytes stored) = 0x0000#16 ↔ stored = fire Params.default m) ∧
    (ccitt Params.default (m ++ be16Bytes stored) = 0xE2F0#16 ↔ stored = ccitt Params.default m)

/-! ## Reed–Solomon (41_reed_solomon) -/

/-- R130: α^i · α^j = α^(i+j), and every non-zero byte is α^e for exactly one e in 0..254. -/
def Obligations.PowersOfAlphaMultiply : Prop :=
  (∀ i j, gmul (alpha i) (alpha j) = alpha (i + j)) ∧
  (∀ b : Byte, b ≠ 0x00#8 →
    ∃ e, e < 255 ∧ alpha e = b ∧ ∀ e', e' < 255 → alpha e' = b → e' = e)

/-- R134, laws 1 and 3: a codeword gives Corrected(0, word); a count for another word is 1..10, the word answered has 120
bytes and differs in at most that many places. (That a count is never 0 for another word is law 3; R135's pseudocode
says otherwise for one kind of word, log 4. Law 2 is RestoredWithinFiveErrors.) -/
def Obligations.RsAnswersObeyLaws1And3 : Prop :=
  ∀ (p : Params) (word : List Byte), word.length = 120 →
    (isCodeword word = true → rsDecode p word = .corrected 0 word) ∧
    (∀ count w, rsDecode p word = .corrected count w →
      w.length = 120 ∧ count ≤ 10 ∧ Machine.dist word w ≤ count ∧ (count = 0 ↔ isCodeword word = true))

/-- R134 law 2 and R145, for one error: a codeword with one byte changed is restored, with count 1, wherever the byte
stands. -/
def Obligations.SingleByteErrorIsCorrected : Prop :=
  ∀ (p : Params) (c : List Byte) (pos : Nat) (e : Byte),
    isCodeword c = true → pos < 120 → e ≠ 0x00#8 →
      rsDecode p (c.modify pos (· ^^^ e)) = .corrected 1 c

/-- R134 law 2: a word at distance 1 to 5 from a codeword is restored to it, and the count is the distance, whichever
decoder decides beyond five errors (log 3). -/
def Obligations.RestoredWithinFiveErrors : Prop :=
  ∀ (p : Params) (c word : List Byte), isCodeword c = true → word.length = 120 →
    1 ≤ Machine.dist word c → Machine.dist word c ≤ 5 →
      rsDecode p word = .corrected (Machine.dist word c) c

/-- R145: RS_DECODE emits one EV_RS_RESULT and changes nothing else; a word of another length is CmdError BAD_LENGTH
(R74; log 10). -/
def Obligations.RsDecodeEmitsItsResult : Prop :=
  ∀ (s : State) (word : List Byte), s.held = [] → s.room 1 →
    (word.length = 120 → ∀ count w, rsDecode s.params word = .corrected count w →
      exec (.rsDecode word) s = .next { s with
        evq := s.evq ++ [⟨.rsResult, 0x00#8, BitVec.ofNat 8 count :: w⟩] }) ∧
    (word.length = 120 → rsDecode s.params word = .uncorrectable →
      exec (.rsDecode word) s = .next { s with evq := s.evq ++ [⟨.rsResult, 0x01#8, 0xFF#8 :: word⟩] }) ∧
    (word.length ≠ 120 →
      exec (.rsDecode word) s = .next { s with evq := s.evq ++ [⟨.cmdErr, 0x03#8, [0x04#8, 0x00#8]⟩] })

/-- R138: inserting codeword i is read back by extracting it, and no other codeword of the window changes. -/
def Obligations.InterleavedCodewordsAreDisjoint : Prop :=
  ∀ (m : Memory) (k i j : Nat) (w : List Byte), Memory.wf m → i < k → j < k → w.length = 120 →
    extractWord (insertWord m k i w) k i = w ∧
    (j ≠ i → extractWord (insertWord m k i w) k j = extractWord m k j) ∧
    (∀ a, 120 * k ≤ a → Memory.read (insertWord m k i w) a = Memory.read m a)

/-- R140, R141, R146: the pass writes back, into each codeword of WORK, what rsDecode answers for it, leaves an
uncorrectable one as RAW has it, and its totals are the sum of the counts and whether one was uncorrectable. RAW does
not change. -/
def Obligations.PassDecodesEveryCodeword : Prop :=
  ∀ (p : Params) (r : Regs), r.buffersOk → legalLen r.len = true →
    let done := evaluateWindow p r
    let answer := fun i => rsDecode p (extractWord r.raw r.k i)
    (∀ i, i < r.k → extractWord done.work r.k i =
      match answer i with
      | .corrected _ w => w
      | .uncorrectable => extractWord r.raw r.k i) ∧
    done.rsCorr.toNat = ((List.range r.k).map fun i =>
      match answer i with
      | .corrected count _ => count
      | .uncorrectable => 0).sum ∧
    done.rsUncorr = (List.range r.k).any (fun i => answer i == .uncorrectable) ∧
    done.raw = r.raw

/-! ## Sync check and AU table (43_sync_and_au, 30_encoding) -/

/-- R85 to R87, R190: N and the AU table, field by field, in the arithmetic of the header bytes. -/
def Obligations.AuTableReadsPackedFields : Prop :=
  ∀ (w : Memory) (k : Nat),
    let b := fun i => (Memory.read w i).toNat
    let a1 := b 3 * 16 + b 4 / 16
    let a2 := b 4 % 16 * 256 + b 5
    let a3 := b 6 * 16 + b 7 / 16
    let a4 := b 7 % 16 * 256 + b 8
    let a5 := b 9 * 16 + b 10 / 16
    (auTable w k =
      if b 2 / 64 % 2 = 0 then
        if b 2 / 32 % 2 = 0 then [8, a1, a2, a3, k * 110] else [5, a1, k * 110]
      else
        if b 2 / 32 % 2 = 0 then [11, a1, a2, a3, a4, a5, k * 110] else [6, a1, a2, k * 110]) ∧
    auCount (fmt (Memory.read w 2)) =
      if b 2 / 64 % 2 = 0 then (if b 2 / 32 % 2 = 0 then 4 else 2) else if b 2 / 32 % 2 = 0 then 6 else 3

/-- R190, R192, R193, R197: the three tests in their order, and the reason each gives; a success answers the N and the
table of the header. -/
def Obligations.SyncCheckFirstFailingTestDecides : Prop :=
  ∀ (p : Params) (w : Memory) (k : Nat),
    let guarded := Memory.read w 3 = 0x00#8 ∧ Memory.read w 4 = 0x00#8
    let matched := be16 (Memory.read w 0) (Memory.read w 1) =
      fire p ((List.range 9).map fun j => Memory.read w (2 + j))
    let sorted := (auTable w k).IsChain (· < ·)
    (syncCheck p w k = .fail .zeroGuard ↔ guarded) ∧
    (syncCheck p w k = .fail .fireMismatch ↔ ¬ guarded ∧ ¬ matched) ∧
    (syncCheck p w k = .fail .notIncreasing ↔ ¬ guarded ∧ matched ∧ ¬ sorted) ∧
    (∀ nAu table, syncCheck p w k = .ok nAu table ↔
      ¬ guarded ∧ matched ∧ sorted ∧ nAu = auCount (fmt (Memory.read w 2)) ∧ table = auTable w k)

/-- R199: what a successful check guarantees; and that an AU of length 1 is possible. -/
def Obligations.SyncOkGuaranteesTable : Prop :=
  (∀ (p : Params) (w : Memory) (l nAu : Nat) (table : List Nat),
    syncCheck p w (codewords l) = .ok nAu table →
      table.length = nAu + 1 ∧ table.Pairwise (· < ·) ∧ table.getLast? = some (5 * l / 120 * 110) ∧
      be16 (Memory.read w 0) (Memory.read w 1) = fire p (Memory.readBlock w 2 9) ∧
      (Memory.read w 3 ≠ 0x00#8 ∨ Memory.read w 4 ≠ 0x00#8) ∧
      (∀ i, i < nAu → table.getD i 0 < table.getD (i + 1) 0 ∧
        table.getD (i + 1) 0 ≤ 5 * l / 120 * 110) ∧
      nAu ∈ [2, 3, 4, 6]) ∧
  ∃ w, syncCheck Params.default w (codewords 24) = .ok 2 [5, 109, 110]

/-! ## AU loop and PAD locator (43_sync_and_au, 44_pad) -/

/-- R202: an AU of one byte is a CRC failure and nothing of WORK is read for it; one of two bytes passes only when both
are zero, and is then an empty EV_AU after a NO_PAD reset. (With the default CCITT constants.) -/
def Obligations.ShortAusFailOrAreEmpty : Prop :=
  ∀ (w : Memory) (i s : Nat), i < 6 →
    auEvents Params.default w i s (s + 1) =
      [⟨.auCrcErr, BitVec.ofNat 8 i, [0x00#8, 0x00#8, 0x00#8, 0x00#8]⟩,
        ⟨.padReset, BitVec.ofNat 8 (16 + i), [0x00#8, 0x00#8]⟩] ∧
    auEvents Params.default w i s (s + 2) =
      (if Memory.read w s = 0x00#8 ∧ Memory.read w (s + 1) = 0x00#8 then
        [⟨.padReset, BitVec.ofNat 8 (32 + i), [0x00#8, 0x00#8]⟩, ⟨.au, BitVec.ofNat 8 i, []⟩]
      else
        [⟨.auCrcErr, BitVec.ofNat 8 i, [Memory.read w s, Memory.read w (s + 1), 0x00#8, 0x00#8]⟩,
          ⟨.padReset, BitVec.ofNat 8 (16 + i), [0x00#8, 0x00#8]⟩])

/-- R206: every AU gives exactly one PAD-class event: EV_PAD_RESET(0x10 | i) when its CRC fails, EV_PAD(i) or
EV_PAD_RESET(0x20 | i) when it passes. -/
def Obligations.EachAuGivesOnePadEvent : Prop :=
  ∀ (p : Params) (w : Memory) (i s e : Nat), i < 6 →
    ∃ pad, (auEvents p w i s e).filter (fun ev => ev.code.padClass) = [pad] ∧
      (if 2 ≤ e - s ∧ storedCrc w e = ccitt p (auPayload w s e) then
        (pad.code = .pad ∧ pad.arg = BitVec.ofNat 8 i) ∨
        pad = ⟨.padReset, BitVec.ofNat 8 (32 + i), [0x00#8, 0x00#8]⟩
      else pad = ⟨.padReset, BitVec.ofNat 8 (16 + i), [0x00#8, 0x00#8]⟩)

/-- R205, R201: an EV_AU of the loop carries the CRC-stripped bytes of some AU of the table, whose CCITT CRC equals the
AU's trailing two bytes. -/
def Obligations.DeliveredAusHaveGoodCrc : Prop :=
  ∀ (p : Params) (r : Regs) (ev : Event), ev ∈ auLoop p r → ev.code = .au →
    ∃ i, i < r.n.toNat ∧
      ev.arg = BitVec.ofNat 8 i ∧
      ev.payload = Memory.readBlock r.work (r.auStartAt i) (r.auStartAt (i + 1) - r.auStartAt i - 2) ∧
      r.auStartAt i + 2 ≤ r.auStartAt (i + 1) ∧
      ccitt p ev.payload = be16 (Memory.read r.work (r.auStartAt (i + 1) - 2))
        (Memory.read r.work (r.auStartAt (i + 1) - 1))

/-- R231, R232, R235: a DSE whose region fits gives EV_PAD with the region, in both length forms. -/
def Obligations.PadRegionIsLocated : Prop :=
  ∀ (i : Nat) (head : Byte) (region after : List Byte), head.toNat / 32 = 4 → 2 ≤ region.length →
    (∀ len : Byte, len.toNat ≠ 255 → len.toNat = region.length →
      padLocate i (head :: len :: (region ++ after)) = ⟨.pad, BitVec.ofNat 8 i, region⟩) ∧
    (∀ esc : Byte, 255 + esc.toNat = region.length →
      padLocate i (head :: 0xFF#8 :: esc :: (region ++ after)) = ⟨.pad, BitVec.ofNat 8 i, region⟩)

/-- R231, R233, R234, R240: every other payload gives EV_PAD_RESET(0x20 | i). -/
def Obligations.MissingPadIsReset : Prop :=
  ∀ (i : Nat) (d : List Byte), i < 6 →
    (d.length < 3 ∨ (∃ a rest, d = a :: rest ∧ a.toNat / 32 ≠ 4) ∨
      (∃ a b rest, d = a :: b :: rest ∧ (b.toNat < 2 ∨ (b.toNat ≠ 255 ∧ rest.length < b.toNat))) ∨
      (∃ a esc rest, d = a :: 0xFF#8 :: esc :: rest ∧ rest.length < 255 + esc.toNat)) →
    padLocate i d = ⟨.padReset, BitVec.ofNat 8 (32 + i), [0x00#8, 0x00#8]⟩

/-! ## FEED (42_superframe) -/

/-- R161: while LATCHED = 0, a frame that is too short, not a multiple of 24 bytes or longer than L_MAX emits
EV_FRAME_REJECT(0x02) with its length and changes nothing. (For a frame of more than 65535 bytes, which no command
carries, the length is taken modulo 65536: the model's choice, log 10.) -/
def Obligations.FirstFrameOfBadLengthIsRejected : Prop :=
  ∀ (s : State) (frame : List Byte), s.held = [] → s.room 1 → s.regs.latched = false →
    (frame.length < 10 ∨ 5 * frame.length % 120 ≠ 0 ∨ s.params.lMax < frame.length) →
      exec (.feed frame) s = .next { s with
        evq := s.evq ++ [⟨.frameReject, 0x02#8, be16Bytes (BitVec.ofNat 16 frame.length)⟩] }

/-- R162, R178: while LATCHED = 1, a frame of n ≠ L bytes emits EV_FRAME_REJECT(0x01) with its length and changes
nothing. (For a frame of more than 65535 bytes, which no command carries, the length is taken modulo 65536: the model's
choice, log 10.) -/
def Obligations.FrameOfOtherLengthIsRejected : Prop :=
  ∀ (s : State) (frame : List Byte), s.held = [] → s.room 1 → s.regs.latched = true →
    frame.length ≠ s.regs.l.toNat →
      exec (.feed frame) s = .next { s with
        evq := s.evq ++ [⟨.frameReject, 0x01#8, be16Bytes (BitVec.ofNat 16 frame.length)⟩] }

/-- R161, R163, R165: the first accepted frame latches L, goes to slot 0 and emits nothing; only L, LATCHED, C and RAW
change. -/
def Obligations.FirstFrameLatchesLength : Prop :=
  ∀ (s : State) (frame : List Byte), s.held = [] → s.params.legal = true → s.regs.Ok s.params →
    s.regs.latched = false → 10 ≤ frame.length → 5 * frame.length % 120 = 0 →
    frame.length ≤ s.params.lMax →
      ∃ raw, exec (.feed frame) s = .next { s with regs := { s.regs with
          latched := true, l := BitVec.ofNat 16 frame.length, c := 1#3, raw := raw } } ∧
        Memory.readBlock raw 0 frame.length = frame ∧
        (∀ a, frame.length ≤ a → Memory.read raw a = Memory.read s.regs.raw a)

/-- R163, R165: with C < 4 a frame of L bytes goes to slot C, C is incremented, no event is emitted, and only C and RAW
change, RAW only in that slot. -/
def Obligations.FrameGoesToSlotC : Prop :=
  ∀ (s : State) (frame : List Byte), s.held = [] → s.regs.Ok s.params → s.regs.latched = true →
    frame.length = s.regs.l.toNat → s.regs.c.toNat < 4 →
      ∃ raw, exec (.feed frame) s = .next { s with regs := { s.regs with
          c := BitVec.ofNat 3 (s.regs.c.toNat + 1), raw := raw } } ∧
        Memory.readBlock raw (s.regs.c.toNat * frame.length) frame.length = frame ∧
        (∀ a, (a < s.regs.c.toNat * frame.length ∨ (s.regs.c.toNat + 1) * frame.length ≤ a) →
          Memory.read raw a = Memory.read s.regs.raw a)

/-- R163, R164: with C = 4 the fifth frame goes to slot 4 and slots 0..3 stay, whatever the outcome of the window it
completes. -/
def Obligations.FifthFrameGoesToSlot4 : Prop :=
  ∀ (s : State) (frame : List Byte), s.held = [] → s.room 16 → s.regs.Ok s.params → s.regs.latched = true →
    frame.length = s.regs.l.toNat → s.regs.c = 4#3 →
      ∃ t, exec (.feed frame) s = .next t ∧
        Memory.readBlock t.regs.raw (4 * frame.length) frame.length = frame ∧
        (∀ a, (a < 4 * frame.length ∨ 5 * frame.length ≤ a) →
          Memory.read t.regs.raw a = Memory.read s.regs.raw a)

/-- R163, R166, R164: with C = 5 the window slides by one frame: slots 1..4 move to 0..3 and the frame goes to slot 4;
whatever the window's outcome, RAW holds the five latest frames. -/
def Obligations.FullWindowSlides : Prop :=
  ∀ (s : State) (frame : List Byte), s.held = [] → s.room 16 → s.regs.Ok s.params → s.regs.latched = true →
    frame.length = s.regs.l.toNat → s.regs.c = 5#3 →
      ∃ t, exec (.feed frame) s = .next t ∧
        (∀ a, a < 4 * frame.length →
          Memory.read t.regs.raw a = Memory.read s.regs.raw (frame.length + a)) ∧
        Memory.readBlock t.regs.raw (4 * frame.length) frame.length = frame ∧
        (∀ a, 5 * frame.length ≤ a → Memory.read t.regs.raw a = Memory.read s.regs.raw a)

/-- R168: a window that fails the sync check: LAST_SYNC is the reason, EV_SYNC_START only when SYNC_FRAMES was 0,
SYNC_FRAMES counts and saturates, C stays 5, N, AU_START, FMT_SET and FMT_RAW stay, and no other event but
EV_RS_STATUS is emitted. The accepted frame and the RS pass are steps 2 and 4. -/
def Obligations.FailedWindowCountsAndWaits : Prop :=
  ∀ (s : State) (frame : List Byte) (why : SyncReason),
    s.held = [] → s.room 2 → s.regs.Ok s.params → s.params.legal = true →
    s.regs.latched = true → frame.length = s.regs.l.toNat → 4 ≤ s.regs.c.toNat →
    let window := evaluateWindow s.params (acceptFrame frame s.regs)
    syncCheck s.params window.work (5 * s.regs.l.toNat / 120) = .fail why →
      exec (.feed frame) s = .next { s with
        regs := { s.regs with
          c := 5#3
          raw := window.raw
          work := window.work
          rsCorr := window.rsCorr
          rsUncorr := window.rsUncorr
          lastSync := match why with | .zeroGuard => 2#3 | .fireMismatch => 3#3 | .notIncreasing => 4#3
          syncFrames := BitVec.ofNat 32 (min (s.regs.syncFrames.toNat + 1) 0xFFFFFFFF) }
        evq := s.evq ++ rsStatusEvents window ++ (if s.regs.syncFrames = 0#32 then [⟨.syncStart, 0x00#8, []⟩] else []) }

/-- R170 to R172, R174, R175, R200: a window that passes: the AU table is stored, SYNC_FRAMES cleared, the format byte
cached, C cleared; the events are EV_RS_STATUS, EV_SYNC_OK and EV_PAD_RESET(0x0F) after a loss, EV_FORMAT on a change,
then those of each AU in index order. -/
def Obligations.PassingWindowDeliversSuperframe : Prop :=
  ∀ (s : State) (frame : List Byte) (nAu : Nat) (table : List Nat),
    s.held = [] → s.room 16 → s.regs.Ok s.params → s.params.legal = true →
    s.regs.latched = true → frame.length = s.regs.l.toNat → 4 ≤ s.regs.c.toNat →
    let window := evaluateWindow s.params (acceptFrame frame s.regs)
    let formatByte := Memory.read window.work 2
    syncCheck s.params window.work (5 * s.regs.l.toNat / 120) = .ok nAu table →
      ∃ auStart : Vector Word32 7,
        (∀ j, j < 7 → (auStart.toList.getD j 0#32).toNat = if j ≤ nAu then table.getD j 0 else 0) ∧
        exec (.feed frame) s = .next { s with
          regs := { s.regs with
            c := 0#3
            raw := window.raw
            work := window.work
            rsCorr := window.rsCorr
            rsUncorr := window.rsUncorr
            lastSync := 1#3
            n := BitVec.ofNat 3 nAu
            auStart := auStart
            syncFrames := 0#32
            fmtSet := true
            fmtRaw := formatByte }
          evq := s.evq ++ rsStatusEvents window ++
            (if s.regs.syncFrames = 0#32 then []
              else [⟨.syncOk, 0x00#8, be32Bytes s.regs.syncFrames⟩, ⟨.padReset, 0x0F#8, [0x00#8, 0x00#8]⟩]) ++
            (if s.regs.fmtSet = true ∧ s.regs.fmtRaw = formatByte then []
              else [⟨.format, 0x00#8, [formatByte]⟩]) ++
            (List.range nAu).flatMap fun i =>
              auEvents s.params window.work i (table.getD i 0) (table.getD (i + 1) 0) }

/-- R142: the pass reports with EV_RS_STATUS when it corrected at least one symbol or met an uncorrectable codeword,
and only then. -/
def Obligations.RsStatusOnlyWhenSomethingHappened : Prop :=
  ∀ r : Regs, r.rsCorr.toNat < 65536 →
    (r.rsCorr = 0#32 → r.rsUncorr = false → rsStatusEvents r = []) ∧
    (r.rsCorr ≠ 0#32 ∨ r.rsUncorr = true → ∃ arg hi lo, rsStatusEvents r = [⟨.rsStatus, arg, [hi, lo]⟩] ∧
      arg.toNat = (if r.rsUncorr = true then 1 else 0) ∧ hi.toNat * 256 + lo.toNat = r.rsCorr.toNat)

/-- R176: how many events one FEED emits. -/
def Obligations.FeedEventCounts : Prop :=
  ∀ (s t : State) (frame : List Byte),
    s.held = [] → s.room 16 → s.regs.Ok s.params → s.params.legal = true → exec (.feed frame) s = .next t →
      ∃ new, t.evq = s.evq ++ new ∧ new.length ≤ 16 ∧
        ((feedGate s.params s.regs frame.length).isSome = true → new.length = 1) ∧
        (feedGate s.params s.regs frame.length = none → (acceptFrame frame s.regs).c.toNat < 5 → new = []) ∧
        (feedGate s.params s.regs frame.length = none → (acceptFrame frame s.regs).c.toNat = 5 →
          ((t.regs.lastSync ≠ 1#3 → new.length ≤ 2) ∧
            (t.regs.lastSync = 1#3 →
              4 ≤ 2 * t.regs.n.toNat ∧ 2 * t.regs.n.toNat ≤ new.length ∧
                new.length ≤ 2 * t.regs.n.toNat + 4)))

/-- The frame of FEED (R160, "State written"): parameters, command bytes, script and taken records never change; what
EVQ held stays at its head; RAW and WORK change only in their 5·L bytes; while the window is open WORK and the status
registers do not change; a rejected frame changes no register. -/
def Obligations.FeedFrame : Prop :=
  ∀ (s t : State) (frame : List Byte),
    s.held = [] → s.room 16 → s.regs.Ok s.params → s.params.legal = true → exec (.feed frame) s = .next t →
      t.params = s.params ∧ t.rx = s.rx ∧ t.script = s.script ∧ t.taken = s.taken ∧ t.held = [] ∧
      (∃ new, t.evq = s.evq ++ new) ∧
      (∀ a, 5 * t.regs.l.toNat ≤ a → Memory.read t.regs.raw a = Memory.read s.regs.raw a ∧
        Memory.read t.regs.work a = Memory.read s.regs.work a) ∧
      ((feedGate s.params s.regs frame.length).isSome = true → t.regs = s.regs) ∧
      (s.regs.c.toNat < 4 → t.regs.work = s.regs.work ∧ t.regs.syncFrames = s.regs.syncFrames ∧
        t.regs.fmtSet = s.regs.fmtSet ∧ t.regs.fmtRaw = s.regs.fmtRaw ∧ t.regs.rsCorr = s.regs.rsCorr ∧
        t.regs.rsUncorr = s.regs.rsUncorr ∧ t.regs.lastSync = s.regs.lastSync ∧ t.regs.n = s.regs.n ∧
        t.regs.auStart = s.regs.auStart)

/-- R25: the bytes of WORK, and those of RAW outside the frames it holds, are unobservable: states that differ only
there give the same events and agree again after any FEED. -/
def Obligations.UnwrittenBytesAreUnobservable : Prop :=
  ∀ (s : State) (regs' : Regs) (frame : List Byte),
    s.held = [] → s.room 16 → s.params.legal = true → s.regs.Ok s.params → regs'.Ok s.params →
    s.regs.Agree regs' →
      ∃ t t', exec (.feed frame) s = .next t ∧ exec (.feed frame) { s with regs := regs' } = .next t' ∧
        t'.evq = t.evq ∧ t.regs.Agree t'.regs

/-! ## Event records (30_encoding R90 to R92) -/

/-- R90, R91: a record's bytes are CODE, ARG, the payload's length big-endian, and the payload; CODE is the table's. -/
def Obligations.RecordIsHeaderAndPayload : Prop :=
  (∀ e : Event, e.payload.length ≤ 65535 → ∃ hi lo : Byte,
    e.record = e.code.byte :: e.arg :: hi :: lo :: e.payload ∧ hi.toNat * 256 + lo.toNat = e.payload.length) ∧
  [EvCode.format, .pad, .padReset, .au, .frameReject, .rsStatus, .syncStart, .syncOk, .auCrcErr, .crc, .rsResult,
    .status, .cmdErr].map (fun code => code.byte.toNat) =
    [0x10, 0x11, 0x12, 0x13, 0x20, 0x21, 0x22, 0x23, 0x24, 0x30, 0x31, 0x32, 0x3F]

/-- R90, R91: the byte stream at the event port says which records it holds: two lists of records with the same bytes
are the same list. -/
def Obligations.EventBytesDetermineRecords : Prop :=
  ∀ es fs : List Event, (∀ e ∈ es ++ fs, e.payload.length ≤ 65535) →
    es.flatMap Event.record = fs.flatMap Event.record → es = fs

/-! ## Control commands (45_control) -/

/-- R252, R33: READ_STATUS emits EV_STATUS with the seventeen words in order, 68 bytes, and nothing else changes. -/
def Obligations.ReadStatusReportsEveryWord : Prop :=
  ∀ (s : State), s.held = [] → s.room 1 →
    ∃ words : List Word32,
      words.map BitVec.toNat =
        [if s.regs.latched = true then 1 else 0, s.regs.l.toNat, s.regs.c.toNat, s.regs.syncFrames.toNat,
          if s.regs.fmtSet = true then 1 else 0, s.regs.fmtRaw.toNat, s.regs.rsCorr.toNat,
          if s.regs.rsUncorr = true then 1 else 0, s.regs.lastSync.toNat, s.regs.n.toNat] ++
        s.regs.auStart.toList.map BitVec.toNat ∧
      (words.flatMap be32Bytes).length = 68 ∧
      exec .readStatus s = .next { s with evq := s.evq ++ [⟨.status, 0x00#8, words.flatMap be32Bytes⟩] }

/-- R253, R35: SOFT_RESET sets every register to its reset value, leaves EVQ as it is and emits nothing. -/
def Obligations.SoftResetKeepsQueue : Prop :=
  ∀ (s : State), s.held = [] →
    ∃ regs, exec .softReset s = .next { s with regs := regs } ∧ regs.latched = false ∧ regs.l = 0#16 ∧
      regs.c = 0#3 ∧ regs.syncFrames = 0#32 ∧ regs.fmtSet = false ∧ regs.fmtRaw = 0x00#8 ∧
      regs.rsCorr = 0#32 ∧ regs.rsUncorr = false ∧ regs.lastSync = 0#3 ∧ regs.n = 0#3 ∧
      regs.auStart = Vector.replicate 7 0#32

/-! ## The whole machine -/

/-- The invariant (R21, R22, R29, R30, R31, R33, R65, R90) holds right after reset. -/
def Obligations.ResetMeetsInvariant : Prop := State.reset.Inv

/-- R21, R22, R29 to R31, R33, R65, R90: every step, the host's turns among them, keeps the invariant. -/
def Obligations.EveryStepKeepsInvariant : Prop :=
  ∀ (s t : State), s.Inv → step s = .next t → t.Inv

/-- R273: from no good state does a step stop: CORE has no fault and no fatal state. -/
def Obligations.GoodStateNeverStops : Prop :=
  ∀ (s : State), s.Inv → ∃ t, step s = .next t

/-- R9 (log 2): no step changes a parameter. -/
def Obligations.ParametersNeverChange : Prop :=
  ∀ (s t : State), step s = .next t → t.params = s.params
end

