-- ==== Sys2Proof/Laws/GaloisField.lean ====
section
/-! SUPPORT. GF(256) is a field: XOR is its sum, gmul its product, ginv its inverse (41_reed_solomon R130). Later files
compute in any Mathlib field that the bytes map into, by a map that IsByteField describes. -/

namespace Sys2Proof.Machine

/-! ## Functions that respect XOR -/

/-- f respects XOR. -/
abbrev Additive (f : Byte → Byte) : Prop := ∀ x y, f (x ^^^ y) = f x ^^^ f y

/-- A byte is the XOR of its bits. -/
theorem byte_eq_bits (b : Byte) :
    b = (if b.getLsbD 0 then 0x01#8 else 0x00#8) ^^^ (if b.getLsbD 1 then 0x02#8 else 0x00#8) ^^^
      (if b.getLsbD 2 then 0x04#8 else 0x00#8) ^^^ (if b.getLsbD 3 then 0x08#8 else 0x00#8) ^^^
      (if b.getLsbD 4 then 0x10#8 else 0x00#8) ^^^ (if b.getLsbD 5 then 0x20#8 else 0x00#8) ^^^
      (if b.getLsbD 6 then 0x40#8 else 0x00#8) ^^^ (if b.getLsbD 7 then 0x80#8 else 0x00#8) := by
  revert b
  decide +kernel

/-- The bytes with one bit set. -/
def oneBit : List Byte := [0x01#8, 0x02#8, 0x04#8, 0x08#8, 0x10#8, 0x20#8, 0x40#8, 0x80#8]

theorem additive_zero {f : Byte → Byte} (hf : Additive f) : f 0x00#8 = 0x00#8 := by
  have := hf 0x00#8 0x00#8
  simpa using this

/-- Two functions that respect XOR and agree on the bytes with one bit set agree. -/
theorem additive_ext {f g : Byte → Byte} (hf : Additive f) (hg : Additive g) (h : ∀ b ∈ oneBit, f b = g b) (b : Byte) :
    f b = g b := by
  have key : ∀ (c : Bool) (x : Byte), x ∈ oneBit → f (if c then x else 0x00#8) = g (if c then x else 0x00#8) := by
    intro c x hx
    cases c
    · exact (additive_zero hf).trans (additive_zero hg).symm
    · exact h x hx
  rw [byte_eq_bits b]
  simp only [hf _ _, hg _ _]
  rw [key _ _ (by decide), key _ _ (by decide), key _ _ (by decide), key _ _ (by decide), key _ _ (by decide),
    key _ _ (by decide), key _ _ (by decide), key _ _ (by decide)]

/-! ## gmul -/

theorem xtime_xor (p q : Byte) : xtime (p ^^^ q) = xtime p ^^^ xtime q := by
  have hs : (p ^^^ q) <<< 1 = p <<< 1 ^^^ q <<< 1 := BitVec.shiftLeft_xor_distrib p q 1
  unfold xtime
  rw [BitVec.getLsbD_xor, hs]
  generalize p <<< 1 = u
  generalize q <<< 1 = v
  cases p.getLsbD 7 <;> cases q.getLsbD 7 <;> simp only [Bool.false_eq_true, if_false, if_true, Bool.xor_false,
    Bool.bne_true, bne_self_eq_false, Bool.not_false]
  · simp [BitVec.xor_assoc]
  · ac_rfl
  · rw [show u ^^^ 0x1D#8 ^^^ (v ^^^ 0x1D#8) = (u ^^^ v) ^^^ (0x1D#8 ^^^ 0x1D#8) by ac_rfl]
    simp

theorem gmulFrom_xor (a a' p p' : Byte) (bits : List Bool) :
    gmulFrom (a ^^^ a') (p ^^^ p') bits = gmulFrom a p bits ^^^ gmulFrom a' p' bits := by
  induction bits generalizing p p' with
  | nil => rfl
  | cons bit rest ih =>
    cases bit
    · simp only [gmulFrom, Bool.false_eq_true, if_false, xtime_xor, ih]
    · simp only [gmulFrom, if_true, xtime_xor, ← ih]
      congr 1
      ac_rfl

theorem gmulFrom_xor_bits (a p p' : Byte) (bits bits' : List Bool) (h : bits.length = bits'.length) :
    gmulFrom a (p ^^^ p') (List.zipWith xor bits bits') = gmulFrom a p bits ^^^ gmulFrom a p' bits' := by
  induction bits generalizing p p' bits' with
  | nil =>
    cases bits' with
    | nil => rfl
    | cons _ _ => simp at h
  | cons bit rest ih =>
    cases bits' with
    | nil => simp at h
    | cons bit' rest' =>
      have hl : rest.length = rest'.length := by simpa using h
      cases bit <;> cases bit' <;>
        simp only [List.zipWith_cons_cons, gmulFrom, Bool.xor_false, Bool.xor_true, Bool.not_false, Bool.not_true,
          Bool.false_eq_true, if_false, if_true, xtime_xor, ← ih _ _ _ hl]
      · congr 1
        ac_rfl
      · congr 1
        ac_rfl
      · congr 1
        rw [show xtime p ^^^ a ^^^ (xtime p' ^^^ a) = xtime p ^^^ xtime p' ^^^ (a ^^^ a) by ac_rfl]
        simp

theorem gmul_xor_left (b : Byte) : Additive fun a => gmul a b := by
  intro x y
  have := gmulFrom_xor x y 0x00#8 0x00#8 (byteBits b)
  simpa [gmul] using this

theorem gmul_xor_right (a : Byte) : Additive (gmul a) := by
  intro x y
  have := gmulFrom_xor_bits a 0x00#8 0x00#8 (byteBits x) (byteBits y) rfl
  have hb : byteBits (x ^^^ y) = List.zipWith xor (byteBits x) (byteBits y) := by
    simp [byteBits]
  simpa [gmul, hb] using this

/-- A product with α times a is α times the product. -/
theorem gmulFrom_xtime (a p : Byte) (bits : List Bool) :
    gmulFrom (xtime a) (xtime p) bits = xtime (gmulFrom a p bits) := by
  induction bits generalizing p with
  | nil => rfl
  | cons bit rest ih =>
    cases bit
    · simp only [gmulFrom, Bool.false_eq_true, if_false, ih]
    · simp only [gmulFrom, if_true, ← xtime_xor, ih]

theorem gmul_xtime_left (a b : Byte) : gmul (xtime a) b = xtime (gmul a b) := gmulFrom_xtime a 0x00#8 (byteBits b)

theorem gmul_one (a : Byte) : gmul a 0x01#8 = a :=
  additive_ext (g := id) (gmul_xor_left 0x01#8) (fun _ _ => rfl) (by decide +kernel) a

theorem one_gmul (a : Byte) : gmul 0x01#8 a = a :=
  additive_ext (g := id) (gmul_xor_right 0x01#8) (fun _ _ => rfl) (by decide +kernel) a

theorem gmul_zero (a : Byte) : gmul a 0x00#8 = 0x00#8 := additive_zero (gmul_xor_right a)

/-- The bytes with one bit set are 01, and α times another of them. -/
theorem oneBit_cases {P : Byte → Prop} (h1 : P 0x01#8) (hx : ∀ b, P b → P (xtime b)) : ∀ b ∈ oneBit, P b := by
  have e : oneBit = [0x01#8, xtime 0x01#8, xtime (xtime 0x01#8), xtime (xtime (xtime 0x01#8)),
    xtime (xtime (xtime (xtime 0x01#8))), xtime (xtime (xtime (xtime (xtime 0x01#8)))),
    xtime (xtime (xtime (xtime (xtime (xtime 0x01#8))))),
    xtime (xtime (xtime (xtime (xtime (xtime (xtime 0x01#8))))))] := by decide
  rw [e]
  intro b hb
  simp only [List.mem_cons, List.not_mem_nil, or_false] at hb
  rcases hb with rfl | rfl | rfl | rfl | rfl | rfl | rfl | rfl <;>
    repeat (first | exact h1 | refine hx _ ?_)

theorem gmul_xtime_right (a b : Byte) : gmul a (xtime b) = xtime (gmul a b) := by
  have hadd : Additive fun x => gmul x (xtime b) := gmul_xor_left (xtime b)
  have hadd' : Additive fun x => xtime (gmul x b) := fun x y => by
    show xtime (gmul (x ^^^ y) b) = _
    rw [show gmul (x ^^^ y) b = gmul x b ^^^ gmul y b from gmul_xor_left b x y]
    exact xtime_xor _ _
  refine additive_ext hadd hadd' (oneBit_cases ?_ fun x hx => ?_) a
  · rw [one_gmul, one_gmul]
  · show gmul (xtime x) (xtime b) = xtime (gmul (xtime x) b)
    rw [gmul_xtime_left, gmul_xtime_left, hx]

theorem gmul_comm (a b : Byte) : gmul a b = gmul b a := by
  refine additive_ext (gmul_xor_right a) (gmul_xor_left a) (oneBit_cases ?_ fun x hx => ?_) b
  · rw [gmul_one, one_gmul]
  · rw [gmul_xtime_right, gmul_xtime_left, hx]

theorem gmul_assoc (a b c : Byte) : gmul (gmul a b) c = gmul a (gmul b c) := by
  have hadd : Additive fun x => gmul a (gmul b x) := fun x y => by
    show gmul a (gmul b (x ^^^ y)) = _
    rw [show gmul b (x ^^^ y) = gmul b x ^^^ gmul b y from gmul_xor_right b x y]
    exact gmul_xor_right a _ _
  refine additive_ext (gmul_xor_right (gmul a b)) hadd (oneBit_cases ?_ fun x hx => ?_) c
  · rw [gmul_one, gmul_one]
  · rw [gmul_xtime_right, gmul_xtime_right, gmul_xtime_right, hx]

/-- Times α is the product with 02. -/
theorem xtime_eq (a : Byte) : xtime a = gmul a 0x02#8 := by
  rw [show (0x02#8 : Byte) = xtime 0x01#8 by decide, gmul_xtime_right, gmul_one]

/-! ## The field -/

/-- φ maps the bytes into the field F: XOR to the sum, gmul to the product, and different bytes to different
elements. -/
structure IsByteField {F : Type} [Field F] (φ : Byte → F) : Prop where
  xor : ∀ a b, φ (a ^^^ b) = φ a + φ b
  mul : ∀ a b, φ (gmul a b) = φ a * φ b
  one : φ 0x01#8 = 1
  inj : ∀ a b, φ a = φ b → a = b

/-- The bytes as elements of GF(256). -/
structure GF where
  byte : Byte

theorem GF.ext_byte {a b : GF} (h : a.byte = b.byte) : a = b := by
  cases a
  cases b
  cases h
  rfl

/-- The sum. -/
def GF.plus (a b : GF) : GF := ⟨a.byte ^^^ b.byte⟩

/-- The bytes form a commutative ring. -/
@[reducible] def GF.commRing : CommRing GF where
  add := GF.plus
  add_assoc a b c := GF.ext_byte (BitVec.xor_assoc a.byte b.byte c.byte)
  zero := ⟨0x00#8⟩
  zero_add a := GF.ext_byte (BitVec.zero_xor)
  add_zero a := GF.ext_byte (BitVec.xor_zero)
  nsmul := @nsmulRec GF ⟨⟨0x00#8⟩⟩ ⟨GF.plus⟩
  neg a := a
  zsmul := @zsmulRec GF ⟨⟨0x00#8⟩⟩ ⟨GF.plus⟩ ⟨id⟩ (@nsmulRec GF ⟨⟨0x00#8⟩⟩ ⟨GF.plus⟩)
  neg_add_cancel a := GF.ext_byte (BitVec.xor_self)
  add_comm a b := GF.ext_byte (BitVec.xor_comm a.byte b.byte)
  mul a b := ⟨gmul a.byte b.byte⟩
  left_distrib a b c := GF.ext_byte (gmul_xor_right a.byte b.byte c.byte)
  right_distrib a b c := GF.ext_byte (gmul_xor_left c.byte a.byte b.byte)
  zero_mul a := GF.ext_byte ((gmul_comm _ _).trans (gmul_zero a.byte))
  mul_zero a := GF.ext_byte (gmul_zero a.byte)
  mul_assoc a b c := GF.ext_byte (gmul_assoc a.byte b.byte c.byte)
  one := ⟨0x01#8⟩
  one_mul a := GF.ext_byte ((gmul_comm _ _).trans (gmul_one a.byte))
  mul_one a := GF.ext_byte (gmul_one a.byte)
  mul_comm a b := GF.ext_byte (gmul_comm a.byte b.byte)

theorem GF.alphaPow_eq (e : Nat) :
    (⟨alphaPow e⟩ : GF) = GF.commRing.npow e ⟨0x02#8⟩ := by
  let _ := GF.commRing
  induction e with
  | zero => rfl
  | succ e ih =>
    rw [alphaPow, xtime_eq]
    exact (congrArg (· * (⟨0x02#8⟩ : GF)) ih).trans (pow_succ _ _).symm

/-- α has order 255. -/
theorem GF.orderOf_alpha : @orderOf GF (@CommRing.toCommMonoid GF GF.commRing).toMonoid ⟨0x02#8⟩ = 255 := by
  let _ := GF.commRing
  have hpow : ∀ e, (⟨0x02#8⟩ : GF) ^ e = ⟨alphaPow e⟩ := fun e => (GF.alphaPow_eq e).symm
  apply orderOf_eq_of_pow_and_pow_div_prime (by decide)
  · rw [hpow]
    exact GF.ext_byte (by decide +kernel)
  · intro q hq hdvd
    have hcases : q = 3 ∨ q = 5 ∨ q = 17 := by
      rw [show 255 = 3 * 5 * 17 by rfl, hq.dvd_mul, hq.dvd_mul] at hdvd
      rcases hdvd with (h | h) | h
      · exact .inl ((Nat.prime_dvd_prime_iff_eq hq (by norm_num)).mp h)
      · exact .inr (.inl ((Nat.prime_dvd_prime_iff_eq hq (by norm_num)).mp h))
      · exact .inr (.inr ((Nat.prime_dvd_prime_iff_eq hq (by norm_num)).mp h))
    rw [hpow]
    intro h
    have h' : alphaPow (255 / q) = 0x01#8 := congrArg GF.byte h
    revert h'
    rcases hcases with rfl | rfl | rfl <;> decide +kernel

/-- Different exponents below 255 give different bytes. -/
theorem alphaPow_inj {e e' : Nat} (he : e < 255) (he' : e' < 255) (h : alphaPow e = alphaPow e') : e = e' := by
  let _ := GF.commRing
  have hpow : ∀ e, (⟨0x02#8⟩ : GF) ^ e = ⟨alphaPow e⟩ := fun e => (GF.alphaPow_eq e).symm
  have hinj := pow_injOn_Iio_orderOf (x := (⟨0x02#8⟩ : GF))
  rw [GF.orderOf_alpha] at hinj
  exact hinj he he' (by simp only [hpow, h])

theorem alphaPow_ne_zero (e : Nat) : alphaPow e ≠ 0x00#8 := by
  have hx : ∀ b : Byte, xtime b = 0x00#8 → b = 0x00#8 := by decide +kernel
  induction e with
  | zero => decide
  | succ e ih => exact fun h => ih (hx _ h)

/-- Every non-zero byte is a power of α. -/
theorem exists_alphaPow {a : Byte} (ha : a ≠ 0x00#8) : ∃ e, e < 255 ∧ alphaPow e = a := by
  have hsub : (Finset.range 255).image (fun e => (alphaPow e).toNat) ⊆ Finset.Ico 1 256 := by
    intro x hx
    obtain ⟨e, -, rfl⟩ := Finset.mem_image.mp hx
    have h1 := (alphaPow e).isLt
    have h2 : (alphaPow e).toNat ≠ 0 := fun h => alphaPow_ne_zero e (BitVec.eq_of_toNat_eq h)
    rw [Finset.mem_Ico]
    omega
  have hcard : ((Finset.range 255).image fun e => (alphaPow e).toNat).card = 255 := by
    rw [Finset.card_image_of_injOn, Finset.card_range]
    intro e he e' he' h
    exact alphaPow_inj (Finset.mem_range.mp he) (Finset.mem_range.mp he') (BitVec.eq_of_toNat_eq h)
  have heq := Finset.eq_of_subset_of_card_le hsub (by rw [hcard, Nat.card_Ico])
  have hmem : a.toNat ∈ Finset.Ico 1 256 := by
    have h1 := a.isLt
    have h2 : a.toNat ≠ 0 := fun h => ha (BitVec.eq_of_toNat_eq h)
    rw [Finset.mem_Ico]
    omega
  rw [← heq] at hmem
  obtain ⟨e, he, h⟩ := Finset.mem_image.mp hmem
  exact ⟨e, Finset.mem_range.mp he, BitVec.eq_of_toNat_eq h⟩

/-- ginv is the inverse. -/
theorem gmul_ginv (a : Byte) (h : a ≠ 0x00#8) : gmul a (ginv a) = 0x01#8 := by
  let _ := GF.commRing
  obtain ⟨e, -, rfl⟩ := exists_alphaPow h
  have hmul : ∀ x y : Byte, (⟨gmul x y⟩ : GF) = ⟨x⟩ * ⟨y⟩ := fun _ _ => rfl
  have hone : (⟨0x01#8⟩ : GF) = 1 := rfl
  have h1 : (⟨gmul (alphaPow e) (ginv (alphaPow e))⟩ : GF) = (⟨alphaPow e⟩ : GF) ^ 255 := by
    simp only [ginv, squareMul, hmul, hone]
    ring
  have h2 : (⟨alphaPow e⟩ : GF) ^ 255 = 1 := by
    have hpow : (⟨alphaPow e⟩ : GF) = (⟨0x02#8⟩ : GF) ^ e := GF.alphaPow_eq e
    rw [hpow, ← pow_mul, mul_comm, pow_mul, ← GF.orderOf_alpha, pow_orderOf_eq_one, one_pow]
  exact congrArg GF.byte (h1.trans h2)

/-- There is a field that the bytes map into. -/
theorem exists_byteField : ∃ (F : Type) (_ : Field F) (φ : Byte → F), IsByteField φ := by
  let _ := GF.commRing
  have hfield : IsField GF :=
    { exists_pair_ne := ⟨⟨0x00#8⟩, ⟨0x01#8⟩, fun h => absurd (congrArg GF.byte h) (by decide)⟩
      mul_comm := mul_comm
      mul_inv_cancel := fun {a} ha => ⟨⟨ginv a.byte⟩,
        GF.ext_byte (gmul_ginv a.byte fun h => ha (GF.ext_byte h))⟩ }
  exact ⟨GF, hfield.toField, GF.mk, @IsByteField.mk GF hfield.toField GF.mk (fun _ _ => rfl) (fun _ _ => rfl) rfl
    fun _ _ h => congrArg GF.byte h⟩

/-! ## Computing in the field -/

variable {F : Type} [Field F] {φ : Byte → F}

theorem IsByteField.zero (h : IsByteField φ) : φ 0x00#8 = 0 := by
  have := h.xor 0x00#8 0x00#8
  simpa using this

theorem IsByteField.eq_zero (h : IsByteField φ) {a : Byte} : φ a = 0 ↔ a = 0x00#8 :=
  ⟨fun ha => h.inj _ _ (ha.trans h.zero.symm), fun ha => ha ▸ h.zero⟩

/-- The field has characteristic two. -/
theorem IsByteField.two (h : IsByteField φ) : (2 : F) = 0 := by
  have := h.xor 0x01#8 0x01#8
  rw [BitVec.xor_self, h.one] at this
  rw [← one_add_one_eq_two, ← this]
  exact h.zero

theorem IsByteField.neg (h : IsByteField φ) (x : F) : -x = x := by
  have : x + x = 0 := by rw [← two_mul, h.two, zero_mul]
  exact neg_eq_of_add_eq_zero_left this

theorem IsByteField.inv (h : IsByteField φ) {a : Byte} (ha : a ≠ 0x00#8) : φ (ginv a) = (φ a)⁻¹ := by
  have := h.mul a (ginv a)
  rw [gmul_ginv a ha, h.one] at this
  exact (inv_eq_of_mul_eq_one_right this.symm).symm

/-- alpha is the powers of φ 02 (41_reed_solomon R130). -/
theorem IsByteField.alphaPow (h : IsByteField φ) (e : Nat) : φ (alphaPow e) = φ 0x02#8 ^ e := by
  induction e with
  | zero => exact h.one.trans (pow_zero _).symm
  | succ e ih => rw [Machine.alphaPow, xtime_eq, h.mul, ih, pow_succ]

/-- α^255 = 1. -/
theorem IsByteField.pow_255 (h : IsByteField φ) : φ 0x02#8 ^ 255 = 1 := by
  have h255 : Machine.alphaPow 255 = 0x01#8 := by decide +kernel
  rw [← h.alphaPow, h255, h.one]

theorem IsByteField.alpha (h : IsByteField φ) (e : Nat) : φ (alpha e) = φ 0x02#8 ^ e := by
  rw [Machine.alpha, h.alphaPow]
  conv_rhs => rw [← Nat.div_add_mod e 255, pow_add, pow_mul, h.pow_255, one_pow, one_mul]

theorem IsByteField.alpha_ne_zero (h : IsByteField φ) (e : Nat) : φ 0x02#8 ^ e ≠ 0 :=
  pow_ne_zero _ fun h0 => absurd (h.eq_zero.mp h0) (by decide)

/-- Different exponents below 255 give different powers. -/
theorem IsByteField.alpha_inj (h : IsByteField φ) {e e' : Nat} (he : e < 255) (he' : e' < 255)
    (hp : φ 0x02#8 ^ e = φ 0x02#8 ^ e') : e = e' := by
  rw [← h.alphaPow, ← h.alphaPow] at hp
  exact alphaPow_inj he he' (h.inj _ _ hp)

/-- Times α moves one power on. -/
theorem xtime_alpha (e : Nat) : xtime (alpha e) = alpha (e + 1) := by
  obtain ⟨F, _, φ, h⟩ := exists_byteField
  apply h.inj
  rw [xtime_eq, h.mul, h.alpha, h.alpha, pow_succ]

end Sys2Proof.Machine
end

