-- ==== Sys2Proof/Laws/KeyEquation.lean ====
section
/-! SUPPORT. The key equation of a Reed–Solomon decoder, over any field: what a round of Berlekamp–Massey keeps, and that
after ten rounds the register is the error locator whenever at most five places are wrong. No definition of the model
occurs here; Laws/ErrorLocator.lean applies it to the reference decoder (41_reed_solomon R135). -/

namespace Sys2Proof.KeyEquation

open Polynomial Finset

variable {F : Type} [Field F]

/-! ## Berlekamp–Massey -/

/-- What holds after n rounds: L is the register, B its correction, el its length. -/
structure Round (S L B : F[X]) (el n : ℕ) : Prop where
  el_le : el ≤ n
  one : L.coeff 0 = 1
  degL : ∀ m, el < m → L.coeff m = 0
  degB : ∀ m, n - el < m → B.coeff m = 0
  zeros : ∀ m, el ≤ m → m < n → (L * S).coeff m = 0
  zerosB : 0 < el → ∀ m, n - el ≤ m → m + 1 < n → (B * S).coeff m = 0
  lastB : 0 < el → (B * S).coeff (n - 1) = 1

theorem Round.start (S : F[X]) : Round S 1 1 0 0 where
  el_le := le_rfl
  one := by simp
  degL m hm := by rw [coeff_one, if_neg (by omega)]
  degB m hm := by rw [coeff_one, if_neg (by omega)]
  zeros m _ hm := by omega
  zerosB h := by omega
  lastB h := by omega

theorem coeff_shift (B S : F[X]) (d : F) (m : ℕ) : (C d * (X * B) * S).coeff (m + 1) = d * (B * S).coeff m := by
  rw [show C d * (X * B) * S = C d * (X * (B * S)) by ring, coeff_C_mul, coeff_X_mul]

theorem coeff_shift_zero (B S : F[X]) (d : F) : (C d * (X * B) * S).coeff 0 = 0 := by
  rw [show C d * (X * B) * S = C d * (X * (B * S)) by ring, coeff_C_mul, coeff_X_mul_zero, mul_zero]

/-- A round whose discrepancy is zero. -/
theorem Round.same {S L B : F[X]} {el n : ℕ} (h : Round S L B el n) (hd : (L * S).coeff n = 0) :
    Round S L (X * B) el (n + 1) where
  el_le := by have := h.el_le; omega
  one := h.one
  degL := h.degL
  degB m hm := by
    have := h.el_le
    obtain ⟨m, rfl⟩ : ∃ k, m = k + 1 := ⟨m - 1, by omega⟩
    rw [coeff_X_mul]
    exact h.degB m (by omega)
  zeros m h1 h2 := by
    rcases Nat.lt_succ_iff_lt_or_eq.mp h2 with h2 | rfl
    · exact h.zeros m h1 h2
    · exact hd
  zerosB hel m h1 h2 := by
    have := h.el_le
    obtain ⟨m, rfl⟩ : ∃ k, m = k + 1 := ⟨m - 1, by omega⟩
    rw [mul_assoc, coeff_X_mul]
    exact h.zerosB hel m (by omega) (by omega)
  lastB hel := by
    have := h.el_le
    obtain ⟨n, rfl⟩ : ∃ k, n = k + 1 := ⟨n - 1, by omega⟩
    have hl := h.lastB hel
    simp only [Nat.add_sub_cancel] at hl ⊢
    rw [mul_assoc, coeff_X_mul]
    exact hl

/-- The corrected register of a round: its degree, constant term and zeros, up to the new length. -/
theorem Round.correct {S L B : F[X]} {el n el' : ℕ} (h : Round S L B el n) (h1 : el ≤ el') (h2 : n + 1 - el ≤ el')
    (h3 : el = 0 → n < el') :
    (L - C ((L * S).coeff n) * (X * B)).coeff 0 = 1 ∧
    (∀ m, el' < m → (L - C ((L * S).coeff n) * (X * B)).coeff m = 0) ∧
    (∀ m, el' ≤ m → m < n + 1 → ((L - C ((L * S).coeff n) * (X * B)) * S).coeff m = 0) := by
  have hel := h.el_le
  refine ⟨?_, ?_, ?_⟩
  · rw [coeff_sub, h.one, coeff_C_mul, coeff_X_mul_zero, mul_zero, sub_zero]
  · intro m hm
    obtain ⟨m, rfl⟩ : ∃ k, m = k + 1 := ⟨m - 1, by omega⟩
    rw [coeff_sub, coeff_C_mul, coeff_X_mul, h.degL _ (by omega), h.degB m (by omega), mul_zero, sub_zero]
  · intro m hm1 hm2
    have hpos : 0 < el := by
      by_contra h0
      have := h3 (by omega)
      omega
    obtain ⟨m, rfl⟩ : ∃ k, m = k + 1 := ⟨m - 1, by omega⟩
    rw [sub_mul, coeff_sub, coeff_shift]
    rcases Nat.lt_succ_iff_lt_or_eq.mp hm2 with hm2 | hm2
    · rw [h.zeros _ (by omega) hm2, h.zerosB hpos m (by omega) hm2, mul_zero, sub_zero]
    · have hlast := h.lastB hpos
      rw [show n - 1 = m by omega] at hlast
      rw [hlast, mul_one, hm2, sub_self]

/-- A round that corrects the register and lengthens it. -/
theorem Round.longer {S L B : F[X]} {el n : ℕ} (h : Round S L B el n) (hd : (L * S).coeff n ≠ 0)
    (hl : 2 * el ≤ n) :
    Round S (L - C ((L * S).coeff n) * (X * B)) (C ((L * S).coeff n)⁻¹ * L) (n + 1 - el) (n + 1) := by
  have hel := h.el_le
  obtain ⟨c1, c2, c3⟩ := h.correct (el' := n + 1 - el) (by omega) (by omega) (by omega)
  refine ⟨by omega, c1, c2, ?_, c3, ?_, ?_⟩
  · intro m hm
    rw [coeff_C_mul, h.degL m (by omega), mul_zero]
  · intro _ m h1 h2
    rw [mul_assoc, coeff_C_mul, h.zeros m (by omega) (by omega), mul_zero]
  · intro _
    rw [mul_assoc, coeff_C_mul, Nat.add_sub_cancel, inv_mul_cancel₀ hd]

/-- A round that corrects the register and keeps its length. -/
theorem Round.keep {S L B : F[X]} {el n : ℕ} (h : Round S L B el n) (hl : n < 2 * el) :
    Round S (L - C ((L * S).coeff n) * (X * B)) (X * B) el (n + 1) := by
  have hel := h.el_le
  obtain ⟨c1, c2, c3⟩ := h.correct (el' := el) (by omega) (by omega) (by omega)
  refine ⟨by omega, c1, c2, ?_, c3, ?_, ?_⟩
  · intro m hm
    obtain ⟨m, rfl⟩ : ∃ k, m = k + 1 := ⟨m - 1, by omega⟩
    rw [coeff_X_mul]
    exact h.degB m (by omega)
  · intro hpos m h1 h2
    obtain ⟨m, rfl⟩ : ∃ k, m = k + 1 := ⟨m - 1, by omega⟩
    rw [mul_assoc, coeff_X_mul]
    exact h.zerosB hpos m (by omega) (by omega)
  · intro hpos
    obtain ⟨n, rfl⟩ : ∃ k, n = k + 1 := ⟨n - 1, by omega⟩
    have := h.lastB hpos
    simp only [Nat.add_sub_cancel] at this ⊢
    rw [mul_assoc, coeff_X_mul]
    exact this

/-- A polynomial G of degree v that generates the sequence from v on. -/
structure Generates (S G : F[X]) (v top : ℕ) : Prop where
  one : G.coeff 0 = 1
  deg : ∀ m, v < m → G.coeff m = 0
  zeros : ∀ m, v ≤ m → m < top → (G * S).coeff m = 0

/-- No discrepancy is left once the lengths fit: the step that bounds the register's length. -/
theorem Round.no_discrepancy {S L B G : F[X]} {el n v top : ℕ} (h : Round S L B el n) (hg : Generates S G v top)
    (hn : n < top) (hv : el + v ≤ n) : (L * S).coeff n = 0 := by
  have h1 : (L * (G * S)).coeff n = 0 := by
    rw [coeff_mul]
    refine Finset.sum_eq_zero fun q hq => ?_
    have hsum := mem_antidiagonal.mp hq
    by_cases hi : el < q.1
    · rw [h.degL _ hi, zero_mul]
    · rw [hg.zeros q.2 (by omega) (by omega), mul_zero]
  have h2 : (G * (L * S)).coeff n = (L * S).coeff n := by
    rw [coeff_mul, Finset.sum_eq_single (0, n)]
    · simp only [hg.one, one_mul]
    · intro q hq hne
      have hsum := mem_antidiagonal.mp hq
      by_cases hi : v < q.1
      · rw [hg.deg _ hi, zero_mul]
      · have hq1 : q.1 ≠ 0 := fun h0 => hne (Prod.ext h0 (by simp only; omega))
        rw [h.zeros q.2 (by omega) (by omega), mul_zero]
    · intro hno
      exact absurd (by simp) hno
  rw [← h2, ← h1]
  congr 1
  ring

/-! ## The error locator -/

variable {ι : Type}

/-- The locator: the product of 1 − X_k·x over the error places. -/
noncomputable def locator (K : Finset ι) (x : ι → F) : F[X] := ∏ k ∈ K, (1 - C (x k) * X)

/-- The syndromes S_0..S_(n−1) as a polynomial. -/
noncomputable def syndromePoly (K : Finset ι) (x y : ι → F) (n : ℕ) : F[X] :=
  ∑ k ∈ K, C (y k) * ∑ j ∈ range n, C (x k ^ j) * X ^ j

theorem natDegree_factors_le (K : Finset ι) (x : ι → F) : (∏ k ∈ K, (1 - C (x k) * X)).natDegree ≤ K.card := by
  refine (Polynomial.natDegree_prod_le K _).trans ?_
  refine (Finset.sum_le_card_nsmul K _ 1 fun k _ => ?_).trans (by rw [smul_eq_mul, mul_one])
  refine (natDegree_sub_le _ _).trans ?_
  simp only [natDegree_one, zero_le, sup_of_le_right]
  exact (natDegree_C_mul_le _ _).trans natDegree_X_le

theorem locator_coeff_zero (K : Finset ι) (x : ι → F) : (locator K x).coeff 0 = 1 := by
  rw [coeff_zero_eq_eval_zero, locator, eval_prod]
  simp

theorem eval_factor_ne_zero {x : ι → F} {j k : ι} (hk : x k ≠ 0) (hne : x j ≠ x k) :
    eval (x k)⁻¹ (1 - C (x j) * X) ≠ 0 := by
  simp only [eval_sub, eval_one, eval_mul, eval_C, eval_X]
  intro h
  apply hne
  have := sub_eq_zero.mp h
  field_simp at this
  exact this.symm

/-- The roots of the locator are the inverses of the error places. -/
theorem locator_root_iff {K : Finset ι} {x : ι → F} (z : F) :
    eval z (locator K x) = 0 ↔ ∃ k ∈ K, x k * z = 1 := by
  rw [locator, eval_prod, Finset.prod_eq_zero_iff]
  refine exists_congr fun k => and_congr_right fun _ => ?_
  simp only [eval_sub, eval_one, eval_mul, eval_C, eval_X, sub_eq_zero]
  exact eq_comm

/-- The locator's degree is the number of error places. -/
theorem locator_coeff_card_ne_zero {K : Finset ι} {x : ι → F} (hx : ∀ k ∈ K, x k ≠ 0) :
    (locator K x).coeff K.card ≠ 0 := by
  have hdeg : (locator K x).natDegree = K.card := by
    rw [locator, natDegree_prod _ _ fun k hk => ?_]
    · rw [Finset.sum_congr rfl fun k hk => ?_, Finset.sum_const, smul_eq_mul, mul_one]
      rw [show (1 - C (x k) * X : F[X]) = C (-x k) * X + C 1 by simp; ring]
      exact natDegree_linear (neg_ne_zero.mpr (hx k hk))
    · intro h
      have := congrArg (eval 0) h
      simp at this
  have hne : locator K x ≠ 0 := by
    intro h
    have := locator_coeff_zero K x
    rw [h] at this
    simp at this
  rw [← hdeg]
  exact leadingCoeff_ne_zero.mpr hne

variable [DecidableEq ι]

/-- The evaluator: Σ of Y_k times the product over the other places. -/
noncomputable def evaluator (K : Finset ι) (x y : ι → F) : F[X] :=
  ∑ k ∈ K, C (y k) * ∏ j ∈ K.erase k, (1 - C (x j) * X)

theorem natDegree_evaluator (K : Finset ι) (x y : ι → F) : (evaluator K x y).natDegree ≤ K.card - 1 := by
  refine natDegree_sum_le_of_forall_le K _ fun k hk => ?_
  refine (natDegree_C_mul_le _ _).trans ((natDegree_factors_le _ _).trans ?_)
  rw [Finset.card_erase_of_mem hk]

/-- The key equation: locator times syndromes is the evaluator, up to a multiple of x^n. -/
theorem key_equation (K : Finset ι) (x y : ι → F) (n : ℕ) :
    ∃ R, locator K x * syndromePoly K x y n = evaluator K x y - X ^ n * R := by
  refine ⟨∑ k ∈ K, C (y k * x k ^ n) * ∏ j ∈ K.erase k, (1 - C (x j) * X), ?_⟩
  have hgeom : ∀ a : F, (1 - C a * X) * ∑ j ∈ range n, C (a ^ j) * X ^ j = 1 - C (a ^ n) * X ^ n := by
    intro a
    have := mul_neg_geom_sum (C a * X : F[X]) n
    simpa only [mul_pow, C_pow] using this
  rw [syndromePoly, evaluator, Finset.mul_sum, Finset.mul_sum, ← Finset.sum_sub_distrib]
  refine Finset.sum_congr rfl fun k hk => ?_
  rw [locator, ← Finset.mul_prod_erase K _ hk]
  calc (1 - C (x k) * X) * (∏ j ∈ K.erase k, (1 - C (x j) * X)) *
        (C (y k) * ∑ j ∈ range n, C (x k ^ j) * X ^ j)
      = C (y k) * (∏ j ∈ K.erase k, (1 - C (x j) * X)) *
        ((1 - C (x k) * X) * ∑ j ∈ range n, C (x k ^ j) * X ^ j) := by ring
    _ = _ := by rw [hgeom, C_mul]; ring

theorem coeff_key {K : Finset ι} {x y : ι → F} {n m : ℕ} (hm : m < n) :
    (locator K x * syndromePoly K x y n).coeff m = (evaluator K x y).coeff m := by
  obtain ⟨R, hR⟩ := key_equation K x y n
  rw [hR, coeff_sub, coeff_X_pow_mul', if_neg (by omega), sub_zero]

/-- With v wrong places the locator generates the syndromes. -/
theorem locator_generates (K : Finset ι) (x y : ι → F) (n : ℕ) :
    Generates (syndromePoly K x y n) (locator K x) K.card n where
  one := locator_coeff_zero K x
  deg m hm := coeff_eq_zero_of_natDegree_lt ((natDegree_factors_le K x).trans_lt hm)
  zeros m h1 h2 := by
    rw [coeff_key h2]
    by_cases hK : K.card = 0
    · rw [Finset.card_eq_zero.mp hK]
      simp [evaluator]
    · exact coeff_eq_zero_of_natDegree_lt ((natDegree_evaluator K x y).trans_lt (by omega))

/-- At the root of one place the evaluator is Y_k times the product over the others. -/
theorem eval_evaluator {K : Finset ι} {x : ι → F} (y : ι → F) {k : ι} (hk : k ∈ K) (hx : x k ≠ 0) :
    eval (x k)⁻¹ (evaluator K x y) = y k * ∏ j ∈ K.erase k, eval (x k)⁻¹ (1 - C (x j) * X) := by
  rw [evaluator, eval_finsetSum, Finset.sum_eq_single k]
  · rw [eval_mul, eval_C, eval_prod]
  · intro j hj hjk
    rw [eval_mul, eval_prod, Finset.prod_eq_zero (Finset.mem_erase.mpr ⟨hjk.symm, hk⟩), mul_zero]
    simp [mul_inv_cancel₀ hx]
  · exact fun h => absurd hk h

/-- The derivative of the locator at the root of one place. -/
theorem eval_derivative_locator {K : Finset ι} {x : ι → F} {k : ι} (hk : k ∈ K) (hx : x k ≠ 0) :
    eval (x k)⁻¹ (derivative (locator K x)) = -x k * ∏ j ∈ K.erase k, eval (x k)⁻¹ (1 - C (x j) * X) := by
  rw [locator, ← Finset.mul_prod_erase K _ hk, derivative_mul, eval_add, eval_mul, eval_mul, eval_prod]
  have h0 : eval (x k)⁻¹ (1 - C (x k) * X) = 0 := by simp [mul_inv_cancel₀ hx]
  rw [h0, zero_mul, add_zero]
  simp

/-- A register of length at most v ≤ 5 that generates all ten syndromes is the locator. -/
theorem register_eq_locator {K : Finset ι} {x y : ι → F} {L : F[X]} {el n : ℕ} (hcard : el + K.card ≤ n)
    (hel : el ≤ K.card) (hx : ∀ k ∈ K, x k ≠ 0) (hy : ∀ k ∈ K, y k ≠ 0)
    (hinj : ∀ j ∈ K, ∀ k ∈ K, x j = x k → j = k) (hone : L.coeff 0 = 1) (hdeg : ∀ m, el < m → L.coeff m = 0)
    (hzeros : ∀ m, el ≤ m → m < n → (L * syndromePoly K x y n).coeff m = 0) : L = locator K x := by
  classical
  set S := syndromePoly K x y n with hS
  -- the register's own evaluator
  set w : F[X] := ∑ m ∈ range el, monomial m ((L * S).coeff m) with hw
  have hwcoeff : ∀ m, m < n → w.coeff m = (L * S).coeff m := by
    intro m hm
    rw [hw, finsetSum_coeff]
    simp only [coeff_monomial]
    rw [Finset.sum_ite_eq']
    split
    · rfl
    · rename_i hlt
      rw [mem_range] at hlt
      exact (hzeros m (by omega) hm).symm
  have hwdeg : ∀ m, el ≤ m → w.coeff m = 0 := by
    intro m hm
    rw [hw, finsetSum_coeff]
    simp only [coeff_monomial]
    rw [Finset.sum_ite_eq', if_neg (by rw [mem_range]; omega)]
  have hprod : ∀ (P Q Q' : F[X]) (m : ℕ), (∀ i, i ≤ m → Q.coeff i = Q'.coeff i) →
      (P * Q).coeff m = (P * Q').coeff m := by
    intro P Q Q' m h
    rw [coeff_mul, coeff_mul]
    refine Finset.sum_congr rfl fun q hq => ?_
    rw [h q.2 (by have := mem_antidiagonal.mp hq; omega)]
  have hcross : L * evaluator K x y = locator K x * w := by
    ext m
    by_cases hm : m < n
    · rw [hprod L (evaluator K x y) (locator K x * S) m fun i hi => (coeff_key (by omega)).symm,
        hprod (locator K x) w (L * S) m fun i hi => hwcoeff i (by omega)]
      congr 1
      ring
    · have hcross0 : ∀ (P Q : F[X]) (a b : ℕ), (∀ i, a < i → P.coeff i = 0) → (∀ i, b ≤ i → Q.coeff i = 0) →
          a + b ≤ m → (P * Q).coeff m = 0 := by
        intro P Q a b hP hQ hab
        rw [coeff_mul]
        refine Finset.sum_eq_zero fun q hq => ?_
        have := mem_antidiagonal.mp hq
        by_cases hi : a < q.1
        · rw [hP _ hi, zero_mul]
        · rw [hQ _ (by omega), mul_zero]
      rw [hcross0 L (evaluator K x y) el K.card hdeg ?_ (by omega),
        hcross0 (locator K x) w K.card el
          (fun i hi => coeff_eq_zero_of_natDegree_lt ((natDegree_factors_le K x).trans_lt hi)) hwdeg (by omega)]
      intro i hi
      by_cases hK : K.card = 0
      · rw [Finset.card_eq_zero.mp hK]
        simp [evaluator]
      · exact coeff_eq_zero_of_natDegree_lt ((natDegree_evaluator K x y).trans_lt (by omega))
  have hloc : ∀ k ∈ K, eval (x k)⁻¹ (locator K x) = 0 := by
    intro k hk
    rw [locator, eval_prod, Finset.prod_eq_zero hk]
    simp [mul_inv_cancel₀ (hx k hk)]
  have hroot : ∀ k ∈ K, eval (x k)⁻¹ L = 0 := by
    intro k hk
    have h1 := congrArg (eval (x k)⁻¹) hcross
    rw [eval_mul, eval_mul, hloc k hk, zero_mul] at h1
    refine (mul_eq_zero.mp h1).resolve_right ?_
    rw [eval_evaluator y hk (hx k hk)]
    refine mul_ne_zero (hy k hk) (Finset.prod_ne_zero_iff.mpr fun j hj => ?_)
    obtain ⟨hjk, hj⟩ := Finset.mem_erase.mp hj
    exact eval_factor_ne_zero (hx k hk) fun h => hjk (hinj j hj k hk h)
  -- L and the locator agree at 0 and at the v roots, and both have degree at most v
  have hinv : Set.InjOn (fun k => (x k)⁻¹) K := fun j hj k hk h => hinj j hj k hk (inv_injective h)
  have h0 : (0 : F) ∉ K.image fun k => (x k)⁻¹ := by
    intro h
    obtain ⟨k, hk, h⟩ := Finset.mem_image.mp h
    exact hx k hk (inv_eq_zero.mp h)
  refine eq_of_degree_sub_lt_of_eval_finset_eq (insert 0 (K.image fun k => (x k)⁻¹)) ?_ ?_
  · rw [Finset.card_insert_of_notMem h0, Finset.card_image_of_injOn hinv]
    refine (degree_sub_le _ _).trans_lt (max_lt ?_ ?_)
    · rw [degree_lt_iff_coeff_zero]
      intro m hm
      exact hdeg m (by omega)
    · rw [degree_lt_iff_coeff_zero]
      intro m hm
      exact coeff_eq_zero_of_natDegree_lt ((natDegree_factors_le K x).trans_lt (by omega))
  · intro z hz
    rcases Finset.mem_insert.mp hz with rfl | hz
    · rw [← coeff_zero_eq_eval_zero, ← coeff_zero_eq_eval_zero, hone, locator_coeff_zero]
    · obtain ⟨k, hk, rfl⟩ := Finset.mem_image.mp hz
      rw [hroot k hk, hloc k hk]

end Sys2Proof.KeyEquation
end

