-- ==== Sys2Proof/Laws/Memory.lean ====
section
/-! SUPPORT. Buffers: read after write, the canonical form is kept, equal contents are equal data. -/

namespace Sys2Proof.Machine

@[simp] theorem Memory.read_nil (i : Nat) : Memory.read [] i = Memory.unlisted := rfl

/-- An index that no entry lists reads as unlisted. -/
theorem Memory.read_of_not_listed (m : Memory) (i : Nat) (h : ∀ cell ∈ m, cell.1 ≠ i) :
    Memory.read m i = Memory.unlisted := by
  induction m with
  | nil => rfl
  | cons cell rest ih =>
    have hne : ¬ cell.1 = i := h cell (by simp)
    simp only [Memory.read, hne, if_false]
    exact ih fun c hc => h c (by simp [hc])

/-- A listed index below every entry is not listed. -/
theorem Memory.read_of_lt (m : Memory) (i : Nat) (h : ∀ cell ∈ m, i < cell.1) :
    Memory.read m i = Memory.unlisted :=
  Memory.read_of_not_listed m i fun cell hc => (Nat.ne_of_gt (h cell hc))

theorem Memory.wf_nil : Memory.wf [] := by decide

theorem Memory.wf_cons {a : Nat} {b : Byte} {rest : Memory} :
    Memory.wf ((a, b) :: rest) ↔ (∀ cell ∈ rest, a < cell.1) ∧ b ≠ Memory.unlisted ∧ Memory.wf rest := by
  simp only [Memory.wf, List.map_cons, List.pairwise_cons, List.mem_map, List.mem_cons]
  constructor
  · rintro ⟨⟨h1, h2⟩, h3⟩
    exact ⟨fun cell hc => h1 _ ⟨cell, hc, rfl⟩, h3 (a, b) (Or.inl rfl), h2, fun c hc => h3 c (Or.inr hc)⟩
  · rintro ⟨h1, h2, h3, h4⟩
    refine ⟨⟨?_, h3⟩, ?_⟩
    · rintro _ ⟨cell, hc, rfl⟩
      exact h1 cell hc
    · rintro c (rfl | hc)
      · exact h2
      · exact h4 c hc

/-- The entries of a written buffer are old entries or the written one. -/
theorem Memory.mem_write {m : Memory} {i : Nat} {v : Byte} {cell : Host.Cell}
    (h : cell ∈ Memory.write m i v) : cell ∈ m ∨ (cell = (i, v) ∧ v ≠ Memory.unlisted) := by
  induction m with
  | nil =>
    simp only [Memory.write] at h
    split at h <;> simp_all
  | cons head rest ih =>
    obtain ⟨a, b⟩ := head
    simp only [Memory.write] at h
    split at h
    · split at h <;> simp_all
      rcases h with h | h | h <;> simp_all
    · split at h
      · split at h <;> simp_all
        rcases h with h | h <;> simp_all
      · rcases List.mem_cons.mp h with h | h
        · simp [h]
        · rcases ih h with h | h <;> simp_all

/-- Every write keeps the canonical form. -/
theorem Memory.write_wf {m : Memory} (h : Memory.wf m) (i : Nat) (v : Byte) : Memory.wf (Memory.write m i v) := by
  induction m with
  | nil =>
    simp only [Memory.write]
    split
    · exact Memory.wf_nil
    · rename_i hv
      exact Memory.wf_cons.mpr ⟨by simp, hv, Memory.wf_nil⟩
  | cons head rest ih =>
    obtain ⟨a, b⟩ := head
    obtain ⟨hlt, hb, hrest⟩ := Memory.wf_cons.mp h
    simp only [Memory.write]
    split
    · rename_i hia
      split
      · exact h
      · rename_i hv
        refine Memory.wf_cons.mpr ⟨?_, hv, h⟩
        intro cell hc
        rcases List.mem_cons.mp hc with rfl | hc
        · exact hia
        · exact Nat.lt_trans hia (hlt cell hc)
    · rename_i hia
      split
      · rename_i heq
        subst heq
        split
        · exact hrest
        · rename_i hv
          exact Memory.wf_cons.mpr ⟨hlt, hv, hrest⟩
      · rename_i hne
        refine Memory.wf_cons.mpr ⟨?_, hb, ih hrest⟩
        intro cell hc
        rcases Memory.mem_write hc with hc | ⟨rfl, _⟩
        · exact hlt cell hc
        · exact Nat.lt_of_le_of_ne (Nat.le_of_not_lt hia) (Ne.symm hne)

/-- A read after a write to the same index gives the byte written. -/
theorem Memory.read_write_same {m : Memory} (h : Memory.wf m) (i : Nat) (v : Byte) :
    Memory.read (Memory.write m i v) i = v := by
  induction m with
  | nil =>
    simp only [Memory.write]
    split <;> simp_all [Memory.read]
  | cons head rest ih =>
    obtain ⟨a, b⟩ := head
    obtain ⟨hlt, hb, hrest⟩ := Memory.wf_cons.mp h
    simp only [Memory.write]
    split
    · rename_i hia
      split
      · rename_i hv
        rw [hv]
        apply Memory.read_of_lt
        intro cell hc
        rcases List.mem_cons.mp hc with rfl | hc
        · exact hia
        · exact Nat.lt_trans hia (hlt cell hc)
      · simp [Memory.read]
    · rename_i hia
      split
      · rename_i heq
        subst heq
        split
        · rename_i hv
          rw [hv]
          exact Memory.read_of_lt rest i hlt
        · simp [Memory.read]
      · rename_i hne
        simp only [Memory.read, if_neg (Ne.symm hne)]
        exact ih hrest

/-- A write leaves every other index alone. -/
theorem Memory.read_write_other (m : Memory) {i j : Nat} (v : Byte) (hij : j ≠ i) :
    Memory.read (Memory.write m i v) j = Memory.read m j := by
  induction m with
  | nil =>
    simp only [Memory.write]
    split <;> simp_all [Memory.read, Ne.symm hij]
  | cons head rest ih =>
    obtain ⟨a, b⟩ := head
    simp only [Memory.write]
    split
    · split <;> simp [Memory.read, Ne.symm hij]
    · split
      · rename_i heq
        subst heq
        split <;> simp [Memory.read, Ne.symm hij]
      · simp only [Memory.read, ih]

theorem Memory.read_write {m : Memory} (h : Memory.wf m) (i j : Nat) (v : Byte) :
    Memory.read (Memory.write m i v) j = if j = i then v else Memory.read m j := by
  split
  · rename_i hji
    rw [hji, Memory.read_write_same h]
  · rename_i hji
    exact Memory.read_write_other m v hji

/-! ## Byte strings -/

@[simp] theorem Memory.length_readBlock (m : Memory) (i n : Nat) : (Memory.readBlock m i n).length = n := by
  simp [Memory.readBlock]

@[simp] theorem Memory.getElem_readBlock (m : Memory) (i n j : Nat) (h : j < (Memory.readBlock m i n).length) :
    (Memory.readBlock m i n)[j] = Memory.read m (i + j) := by
  simp [Memory.readBlock]

theorem Memory.writeBlock_wf {m : Memory} (h : Memory.wf m) (i : Nat) (bytes : List Byte) :
    Memory.wf (Memory.writeBlock m i bytes) := by
  induction bytes generalizing m i with
  | nil => exact h
  | cons b rest ih => exact ih (Memory.write_wf h i b) (i + 1)

/-- Outside the written bytes nothing changes. -/
theorem Memory.read_writeBlock_other (m : Memory) (i j : Nat) (bytes : List Byte)
    (hj : j < i ∨ i + bytes.length ≤ j) :
    Memory.read (Memory.writeBlock m i bytes) j = Memory.read m j := by
  induction bytes generalizing m i with
  | nil => rfl
  | cons b rest ih =>
    simp only [List.length_cons] at hj
    simp only [Memory.writeBlock]
    rw [ih _ _ (by omega), Memory.read_write_other _ _ (by omega)]

/-- Inside, the written bytes are read. -/
theorem Memory.read_writeBlock_same {m : Memory} (h : Memory.wf m) (i j : Nat) (bytes : List Byte)
    (hj : j < bytes.length) :
    Memory.read (Memory.writeBlock m i bytes) (i + j) = bytes[j] := by
  induction bytes generalizing m i j with
  | nil => simp at hj
  | cons b rest ih =>
    simp only [Memory.writeBlock]
    cases j with
    | zero =>
      have hlt : i + 0 < i + 1 := by omega
      rw [Memory.read_writeBlock_other _ _ _ _ (Or.inl hlt)]
      exact Memory.read_write_same h i b
    | succ j =>
      have := ih (Memory.write_wf h i b) (i + 1) j (by simpa using hj)
      rw [show i + (j + 1) = i + 1 + j by omega, this]
      rfl

theorem Memory.read_writeBlock {m : Memory} (h : Memory.wf m) (i j : Nat) (bytes : List Byte) :
    Memory.read (Memory.writeBlock m i bytes) j =
      if i ≤ j ∧ j < i + bytes.length then bytes.getD (j - i) 0x00#8 else Memory.read m j := by
  split
  · rename_i hj
    have hlt : j - i < bytes.length := by omega
    have := Memory.read_writeBlock_same h i (j - i) bytes hlt
    rw [show i + (j - i) = j by omega] at this
    rw [this, List.getD_eq_getElem _ _ hlt]
  · exact Memory.read_writeBlock_other m i j bytes (by omega)

/-- A block that was written is read back. -/
theorem Memory.readBlock_writeBlock {m : Memory} (h : Memory.wf m) (i : Nat) (bytes : List Byte) :
    Memory.readBlock (Memory.writeBlock m i bytes) i bytes.length = bytes := by
  apply List.ext_getElem (by simp)
  intro j h1 h2
  rw [Memory.getElem_readBlock, Memory.read_writeBlock_same h i j bytes h2]

/-- Equal contents are equal data. -/
theorem Memory.ext_of_read {m m' : Memory} (h : Memory.wf m) (h' : Memory.wf m')
    (hr : ∀ i, Memory.read m i = Memory.read m' i) : m = m' := by
  induction m generalizing m' with
  | nil =>
    cases m' with
    | nil => rfl
    | cons head rest =>
      obtain ⟨a, b⟩ := head
      have := hr a
      simp [Memory.read] at this
      exact absurd this.symm (Memory.wf_cons.mp h').2.1
  | cons head rest ih =>
    obtain ⟨a, b⟩ := head
    obtain ⟨hlt, hb, hrest⟩ := Memory.wf_cons.mp h
    cases m' with
    | nil =>
      have := hr a
      simp [Memory.read] at this
      exact absurd this hb
    | cons head' rest' =>
      obtain ⟨a', b'⟩ := head'
      obtain ⟨hlt', hb', hrest'⟩ := Memory.wf_cons.mp h'
      have haa : a = a' := by
        rcases Nat.lt_trichotomy a a' with hlt1 | heq | hlt1
        · have h1 := hr a
          rw [Memory.read_of_lt ((a', b') :: rest') a] at h1
          · simp [Memory.read] at h1
            exact absurd h1 hb
          · intro cell hc
            rcases List.mem_cons.mp hc with rfl | hc
            · exact hlt1
            · exact Nat.lt_trans hlt1 (hlt' cell hc)
        · exact heq
        · have h1 := hr a'
          rw [Memory.read_of_lt ((a, b) :: rest) a'] at h1
          · simp [Memory.read] at h1
            exact absurd h1.symm hb'
          · intro cell hc
            rcases List.mem_cons.mp hc with rfl | hc
            · exact hlt1
            · exact Nat.lt_trans hlt1 (hlt cell hc)
      subst haa
      have hbb : b = b' := by simpa [Memory.read] using hr a
      subst hbb
      have : rest = rest' := by
        apply ih hrest hrest'
        intro i
        by_cases hi : a = i
        · subst hi
          rw [Memory.read_of_lt rest a hlt, Memory.read_of_lt rest' a hlt']
        · have := hr i
          simpa [Memory.read, hi] using this
      rw [this]

/-! ## Bounds -/

/-- Every listed index of a written buffer was listed, or is the written one. -/
theorem Memory.write_below {m : Memory} {n : Nat} (h : ∀ cell ∈ m, cell.1 < n) {i : Nat} (hi : i < n) (v : Byte) :
    ∀ cell ∈ Memory.write m i v, cell.1 < n := by
  intro cell hc
  rcases Memory.mem_write hc with hc | ⟨rfl, _⟩
  · exact h cell hc
  · exact hi

theorem Memory.writeBlock_below {m : Memory} {n : Nat} (h : ∀ cell ∈ m, cell.1 < n) {i : Nat} (bytes : List Byte)
    (hi : i + bytes.length ≤ n) : ∀ cell ∈ Memory.writeBlock m i bytes, cell.1 < n := by
  induction bytes generalizing m i with
  | nil => exact h
  | cons b rest ih =>
    simp only [List.length_cons] at hi
    exact ih (Memory.write_below h (by omega) b) (by omega)

end Sys2Proof.Machine
end

