-- ==== Sys2Proof/Laws/State.lean ====
section
/-! SUPPORT. One lemma per field per update of State and Regs, so that no later proof unfolds a record update. -/

namespace Sys2Proof.Machine

/-! ## State -/

@[simp] theorem State.setRegs_params (r : Regs) (s : State) : (State.setRegs r s).params = s.params := rfl
@[simp] theorem State.setRegs_regs (r : Regs) (s : State) : (State.setRegs r s).regs = r := rfl
@[simp] theorem State.setRegs_evq (r : Regs) (s : State) : (State.setRegs r s).evq = s.evq := rfl
@[simp] theorem State.setRegs_rx (r : Regs) (s : State) : (State.setRegs r s).rx = s.rx := rfl
@[simp] theorem State.setRegs_held (r : Regs) (s : State) : (State.setRegs r s).held = s.held := rfl
@[simp] theorem State.setRegs_script (r : Regs) (s : State) : (State.setRegs r s).script = s.script := rfl
@[simp] theorem State.setRegs_taken (r : Regs) (s : State) : (State.setRegs r s).taken = s.taken := rfl

@[simp] theorem State.setRx_params (bytes : List Byte) (s : State) : (State.setRx bytes s).params = s.params := rfl
@[simp] theorem State.setRx_regs (bytes : List Byte) (s : State) : (State.setRx bytes s).regs = s.regs := rfl
@[simp] theorem State.setRx_evq (bytes : List Byte) (s : State) : (State.setRx bytes s).evq = s.evq := rfl
@[simp] theorem State.setRx_rx (bytes : List Byte) (s : State) : (State.setRx bytes s).rx = bytes := rfl
@[simp] theorem State.setRx_held (bytes : List Byte) (s : State) : (State.setRx bytes s).held = s.held := rfl
@[simp] theorem State.setRx_script (bytes : List Byte) (s : State) : (State.setRx bytes s).script = s.script := rfl
@[simp] theorem State.setRx_taken (bytes : List Byte) (s : State) : (State.setRx bytes s).taken = s.taken := rfl

@[simp] theorem State.setScript_params (turns : List Turn) (s : State) : (State.setScript turns s).params = s.params := rfl
@[simp] theorem State.setScript_regs (turns : List Turn) (s : State) : (State.setScript turns s).regs = s.regs := rfl
@[simp] theorem State.setScript_evq (turns : List Turn) (s : State) : (State.setScript turns s).evq = s.evq := rfl
@[simp] theorem State.setScript_rx (turns : List Turn) (s : State) : (State.setScript turns s).rx = s.rx := rfl
@[simp] theorem State.setScript_held (turns : List Turn) (s : State) : (State.setScript turns s).held = s.held := rfl
@[simp] theorem State.setScript_script (turns : List Turn) (s : State) : (State.setScript turns s).script = turns := rfl
@[simp] theorem State.setScript_taken (turns : List Turn) (s : State) : (State.setScript turns s).taken = s.taken := rfl

@[simp] theorem State.hold_params (rest : List Effect) (s : State) : (State.hold rest s).params = s.params := rfl
@[simp] theorem State.hold_regs (rest : List Effect) (s : State) : (State.hold rest s).regs = s.regs := rfl
@[simp] theorem State.hold_evq (rest : List Effect) (s : State) : (State.hold rest s).evq = s.evq := rfl
@[simp] theorem State.hold_rx (rest : List Effect) (s : State) : (State.hold rest s).rx = s.rx := rfl
@[simp] theorem State.hold_held (rest : List Effect) (s : State) : (State.hold rest s).held = rest := rfl
@[simp] theorem State.hold_script (rest : List Effect) (s : State) : (State.hold rest s).script = s.script := rfl
@[simp] theorem State.hold_taken (rest : List Effect) (s : State) : (State.hold rest s).taken = s.taken := rfl

@[simp] theorem State.pushEvent_params (e : Event) (s : State) : (State.pushEvent e s).params = s.params := rfl
@[simp] theorem State.pushEvent_regs (e : Event) (s : State) : (State.pushEvent e s).regs = s.regs := rfl
@[simp] theorem State.pushEvent_evq (e : Event) (s : State) : (State.pushEvent e s).evq = s.evq ++ [e] := rfl
@[simp] theorem State.pushEvent_rx (e : Event) (s : State) : (State.pushEvent e s).rx = s.rx := rfl
@[simp] theorem State.pushEvent_held (e : Event) (s : State) : (State.pushEvent e s).held = s.held := rfl
@[simp] theorem State.pushEvent_script (e : Event) (s : State) : (State.pushEvent e s).script = s.script := rfl
@[simp] theorem State.pushEvent_taken (e : Event) (s : State) : (State.pushEvent e s).taken = s.taken := rfl

@[simp] theorem State.send_params (bytes : List Byte) (s : State) : (State.send bytes s).params = s.params := rfl
@[simp] theorem State.send_regs (bytes : List Byte) (s : State) : (State.send bytes s).regs = s.regs := rfl
@[simp] theorem State.send_evq (bytes : List Byte) (s : State) : (State.send bytes s).evq = s.evq := rfl
@[simp] theorem State.send_rx (bytes : List Byte) (s : State) : (State.send bytes s).rx = s.rx ++ bytes := rfl
@[simp] theorem State.send_held (bytes : List Byte) (s : State) : (State.send bytes s).held = s.held := rfl
@[simp] theorem State.send_script (bytes : List Byte) (s : State) : (State.send bytes s).script = s.script := rfl
@[simp] theorem State.send_taken (bytes : List Byte) (s : State) : (State.send bytes s).taken = s.taken := rfl

@[simp] theorem State.rst_params (s : State) : (State.rst s).params = s.params := rfl
@[simp] theorem State.rst_regs (s : State) : (State.rst s).regs = Regs.reset := rfl
@[simp] theorem State.rst_evq (s : State) : (State.rst s).evq = [] := rfl
@[simp] theorem State.rst_rx (s : State) : (State.rst s).rx = [] := rfl
@[simp] theorem State.rst_held (s : State) : (State.rst s).held = [] := rfl
@[simp] theorem State.rst_script (s : State) : (State.rst s).script = s.script := rfl
@[simp] theorem State.rst_taken (s : State) : (State.rst s).taken = s.taken := rfl

@[simp] theorem State.placeCommand_params (bytes : List Byte) (s : State) : (State.placeCommand bytes s).params = s.params := rfl
@[simp] theorem State.placeCommand_regs (bytes : List Byte) (s : State) : (State.placeCommand bytes s).regs = s.regs := rfl
@[simp] theorem State.placeCommand_evq (bytes : List Byte) (s : State) : (State.placeCommand bytes s).evq = s.evq := rfl
@[simp] theorem State.placeCommand_rx (bytes : List Byte) (s : State) : (State.placeCommand bytes s).rx = bytes ++ s.rx := rfl
@[simp] theorem State.placeCommand_held (bytes : List Byte) (s : State) : (State.placeCommand bytes s).held = [] := rfl
@[simp] theorem State.placeCommand_script (bytes : List Byte) (s : State) : (State.placeCommand bytes s).script = [] := rfl
@[simp] theorem State.placeCommand_taken (bytes : List Byte) (s : State) : (State.placeCommand bytes s).taken = s.taken := rfl

@[simp] theorem State.take_params (s : State) : (State.take s).params = s.params := by
  unfold State.take; split <;> rfl
@[simp] theorem State.take_regs (s : State) : (State.take s).regs = s.regs := by
  unfold State.take; split <;> rfl
@[simp] theorem State.take_rx (s : State) : (State.take s).rx = s.rx := by
  unfold State.take; split <;> rfl
@[simp] theorem State.take_held (s : State) : (State.take s).held = s.held := by
  unfold State.take; split <;> rfl
@[simp] theorem State.take_script (s : State) : (State.take s).script = s.script := by
  unfold State.take; split <;> rfl

/-! ## Regs -/

@[simp] theorem Regs.setRsTotals_latched (corr : Nat) (unc : Bool) (r : Regs) : (Regs.setRsTotals corr unc r).latched = r.latched := rfl
@[simp] theorem Regs.setRsTotals_l (corr : Nat) (unc : Bool) (r : Regs) : (Regs.setRsTotals corr unc r).l = r.l := rfl
@[simp] theorem Regs.setRsTotals_c (corr : Nat) (unc : Bool) (r : Regs) : (Regs.setRsTotals corr unc r).c = r.c := rfl
@[simp] theorem Regs.setRsTotals_raw (corr : Nat) (unc : Bool) (r : Regs) : (Regs.setRsTotals corr unc r).raw = r.raw := rfl
@[simp] theorem Regs.setRsTotals_work (corr : Nat) (unc : Bool) (r : Regs) : (Regs.setRsTotals corr unc r).work = r.work := rfl
@[simp] theorem Regs.setRsTotals_syncFrames (corr : Nat) (unc : Bool) (r : Regs) : (Regs.setRsTotals corr unc r).syncFrames = r.syncFrames := rfl
@[simp] theorem Regs.setRsTotals_fmtSet (corr : Nat) (unc : Bool) (r : Regs) : (Regs.setRsTotals corr unc r).fmtSet = r.fmtSet := rfl
@[simp] theorem Regs.setRsTotals_fmtRaw (corr : Nat) (unc : Bool) (r : Regs) : (Regs.setRsTotals corr unc r).fmtRaw = r.fmtRaw := rfl
@[simp] theorem Regs.setRsTotals_rsCorr (corr : Nat) (unc : Bool) (r : Regs) : (Regs.setRsTotals corr unc r).rsCorr = BitVec.ofNat 32 corr := rfl
@[simp] theorem Regs.setRsTotals_rsUncorr (corr : Nat) (unc : Bool) (r : Regs) : (Regs.setRsTotals corr unc r).rsUncorr = unc := rfl
@[simp] theorem Regs.setRsTotals_lastSync (corr : Nat) (unc : Bool) (r : Regs) : (Regs.setRsTotals corr unc r).lastSync = r.lastSync := rfl
@[simp] theorem Regs.setRsTotals_n (corr : Nat) (unc : Bool) (r : Regs) : (Regs.setRsTotals corr unc r).n = r.n := rfl
@[simp] theorem Regs.setRsTotals_auStart (corr : Nat) (unc : Bool) (r : Regs) : (Regs.setRsTotals corr unc r).auStart = r.auStart := rfl

@[simp] theorem Regs.setLastSync_latched (reason : BitVec 3) (r : Regs) : (Regs.setLastSync reason r).latched = r.latched := rfl
@[simp] theorem Regs.setLastSync_l (reason : BitVec 3) (r : Regs) : (Regs.setLastSync reason r).l = r.l := rfl
@[simp] theorem Regs.setLastSync_c (reason : BitVec 3) (r : Regs) : (Regs.setLastSync reason r).c = r.c := rfl
@[simp] theorem Regs.setLastSync_raw (reason : BitVec 3) (r : Regs) : (Regs.setLastSync reason r).raw = r.raw := rfl
@[simp] theorem Regs.setLastSync_work (reason : BitVec 3) (r : Regs) : (Regs.setLastSync reason r).work = r.work := rfl
@[simp] theorem Regs.setLastSync_syncFrames (reason : BitVec 3) (r : Regs) : (Regs.setLastSync reason r).syncFrames = r.syncFrames := rfl
@[simp] theorem Regs.setLastSync_fmtSet (reason : BitVec 3) (r : Regs) : (Regs.setLastSync reason r).fmtSet = r.fmtSet := rfl
@[simp] theorem Regs.setLastSync_fmtRaw (reason : BitVec 3) (r : Regs) : (Regs.setLastSync reason r).fmtRaw = r.fmtRaw := rfl
@[simp] theorem Regs.setLastSync_rsCorr (reason : BitVec 3) (r : Regs) : (Regs.setLastSync reason r).rsCorr = r.rsCorr := rfl
@[simp] theorem Regs.setLastSync_rsUncorr (reason : BitVec 3) (r : Regs) : (Regs.setLastSync reason r).rsUncorr = r.rsUncorr := rfl
@[simp] theorem Regs.setLastSync_lastSync (reason : BitVec 3) (r : Regs) : (Regs.setLastSync reason r).lastSync = reason := rfl
@[simp] theorem Regs.setLastSync_n (reason : BitVec 3) (r : Regs) : (Regs.setLastSync reason r).n = r.n := rfl
@[simp] theorem Regs.setLastSync_auStart (reason : BitVec 3) (r : Regs) : (Regs.setLastSync reason r).auStart = r.auStart := rfl

@[simp] theorem Regs.countFailure_latched (r : Regs) : (Regs.countFailure r).latched = r.latched := rfl
@[simp] theorem Regs.countFailure_l (r : Regs) : (Regs.countFailure r).l = r.l := rfl
@[simp] theorem Regs.countFailure_c (r : Regs) : (Regs.countFailure r).c = r.c := rfl
@[simp] theorem Regs.countFailure_raw (r : Regs) : (Regs.countFailure r).raw = r.raw := rfl
@[simp] theorem Regs.countFailure_work (r : Regs) : (Regs.countFailure r).work = r.work := rfl
@[simp] theorem Regs.countFailure_syncFrames (r : Regs) : (Regs.countFailure r).syncFrames = satInc r.syncFrames := rfl
@[simp] theorem Regs.countFailure_fmtSet (r : Regs) : (Regs.countFailure r).fmtSet = r.fmtSet := rfl
@[simp] theorem Regs.countFailure_fmtRaw (r : Regs) : (Regs.countFailure r).fmtRaw = r.fmtRaw := rfl
@[simp] theorem Regs.countFailure_rsCorr (r : Regs) : (Regs.countFailure r).rsCorr = r.rsCorr := rfl
@[simp] theorem Regs.countFailure_rsUncorr (r : Regs) : (Regs.countFailure r).rsUncorr = r.rsUncorr := rfl
@[simp] theorem Regs.countFailure_lastSync (r : Regs) : (Regs.countFailure r).lastSync = r.lastSync := rfl
@[simp] theorem Regs.countFailure_n (r : Regs) : (Regs.countFailure r).n = r.n := rfl
@[simp] theorem Regs.countFailure_auStart (r : Regs) : (Regs.countFailure r).auStart = r.auStart := rfl

@[simp] theorem Regs.clearSync_latched (r : Regs) : (Regs.clearSync r).latched = r.latched := rfl
@[simp] theorem Regs.clearSync_l (r : Regs) : (Regs.clearSync r).l = r.l := rfl
@[simp] theorem Regs.clearSync_c (r : Regs) : (Regs.clearSync r).c = r.c := rfl
@[simp] theorem Regs.clearSync_raw (r : Regs) : (Regs.clearSync r).raw = r.raw := rfl
@[simp] theorem Regs.clearSync_work (r : Regs) : (Regs.clearSync r).work = r.work := rfl
@[simp] theorem Regs.clearSync_syncFrames (r : Regs) : (Regs.clearSync r).syncFrames = 0#32 := rfl
@[simp] theorem Regs.clearSync_fmtSet (r : Regs) : (Regs.clearSync r).fmtSet = r.fmtSet := rfl
@[simp] theorem Regs.clearSync_fmtRaw (r : Regs) : (Regs.clearSync r).fmtRaw = r.fmtRaw := rfl
@[simp] theorem Regs.clearSync_rsCorr (r : Regs) : (Regs.clearSync r).rsCorr = r.rsCorr := rfl
@[simp] theorem Regs.clearSync_rsUncorr (r : Regs) : (Regs.clearSync r).rsUncorr = r.rsUncorr := rfl
@[simp] theorem Regs.clearSync_lastSync (r : Regs) : (Regs.clearSync r).lastSync = r.lastSync := rfl
@[simp] theorem Regs.clearSync_n (r : Regs) : (Regs.clearSync r).n = r.n := rfl
@[simp] theorem Regs.clearSync_auStart (r : Regs) : (Regs.clearSync r).auStart = r.auStart := rfl

@[simp] theorem Regs.setAuTable_latched (nAu : Nat) (t : List Nat) (r : Regs) : (Regs.setAuTable nAu t r).latched = r.latched := rfl
@[simp] theorem Regs.setAuTable_l (nAu : Nat) (t : List Nat) (r : Regs) : (Regs.setAuTable nAu t r).l = r.l := rfl
@[simp] theorem Regs.setAuTable_c (nAu : Nat) (t : List Nat) (r : Regs) : (Regs.setAuTable nAu t r).c = r.c := rfl
@[simp] theorem Regs.setAuTable_raw (nAu : Nat) (t : List Nat) (r : Regs) : (Regs.setAuTable nAu t r).raw = r.raw := rfl
@[simp] theorem Regs.setAuTable_work (nAu : Nat) (t : List Nat) (r : Regs) : (Regs.setAuTable nAu t r).work = r.work := rfl
@[simp] theorem Regs.setAuTable_syncFrames (nAu : Nat) (t : List Nat) (r : Regs) : (Regs.setAuTable nAu t r).syncFrames = r.syncFrames := rfl
@[simp] theorem Regs.setAuTable_fmtSet (nAu : Nat) (t : List Nat) (r : Regs) : (Regs.setAuTable nAu t r).fmtSet = r.fmtSet := rfl
@[simp] theorem Regs.setAuTable_fmtRaw (nAu : Nat) (t : List Nat) (r : Regs) : (Regs.setAuTable nAu t r).fmtRaw = r.fmtRaw := rfl
@[simp] theorem Regs.setAuTable_rsCorr (nAu : Nat) (t : List Nat) (r : Regs) : (Regs.setAuTable nAu t r).rsCorr = r.rsCorr := rfl
@[simp] theorem Regs.setAuTable_rsUncorr (nAu : Nat) (t : List Nat) (r : Regs) : (Regs.setAuTable nAu t r).rsUncorr = r.rsUncorr := rfl
@[simp] theorem Regs.setAuTable_lastSync (nAu : Nat) (t : List Nat) (r : Regs) : (Regs.setAuTable nAu t r).lastSync = 1#3 := rfl
@[simp] theorem Regs.setAuTable_n (nAu : Nat) (t : List Nat) (r : Regs) : (Regs.setAuTable nAu t r).n = BitVec.ofNat 3 nAu := rfl
@[simp] theorem Regs.setAuTable_auStart (nAu : Nat) (t : List Nat) (r : Regs) : (Regs.setAuTable nAu t r).auStart = #v[auEntry nAu t 0, auEntry nAu t 1, auEntry nAu t 2, auEntry nAu t 3, auEntry nAu t 4,
      auEntry nAu t 5, auEntry nAu t 6] := rfl

@[simp] theorem Regs.setFormat_latched (r : Regs) : (Regs.setFormat r).latched = r.latched := rfl
@[simp] theorem Regs.setFormat_l (r : Regs) : (Regs.setFormat r).l = r.l := rfl
@[simp] theorem Regs.setFormat_c (r : Regs) : (Regs.setFormat r).c = r.c := rfl
@[simp] theorem Regs.setFormat_raw (r : Regs) : (Regs.setFormat r).raw = r.raw := rfl
@[simp] theorem Regs.setFormat_work (r : Regs) : (Regs.setFormat r).work = r.work := rfl
@[simp] theorem Regs.setFormat_syncFrames (r : Regs) : (Regs.setFormat r).syncFrames = r.syncFrames := rfl
@[simp] theorem Regs.setFormat_fmtSet (r : Regs) : (Regs.setFormat r).fmtSet = true := rfl
@[simp] theorem Regs.setFormat_fmtRaw (r : Regs) : (Regs.setFormat r).fmtRaw = Memory.read r.work 2 := rfl
@[simp] theorem Regs.setFormat_rsCorr (r : Regs) : (Regs.setFormat r).rsCorr = r.rsCorr := rfl
@[simp] theorem Regs.setFormat_rsUncorr (r : Regs) : (Regs.setFormat r).rsUncorr = r.rsUncorr := rfl
@[simp] theorem Regs.setFormat_lastSync (r : Regs) : (Regs.setFormat r).lastSync = r.lastSync := rfl
@[simp] theorem Regs.setFormat_n (r : Regs) : (Regs.setFormat r).n = r.n := rfl
@[simp] theorem Regs.setFormat_auStart (r : Regs) : (Regs.setFormat r).auStart = r.auStart := rfl

@[simp] theorem Regs.closeWindow_latched (r : Regs) : (Regs.closeWindow r).latched = r.latched := rfl
@[simp] theorem Regs.closeWindow_l (r : Regs) : (Regs.closeWindow r).l = r.l := rfl
@[simp] theorem Regs.closeWindow_c (r : Regs) : (Regs.closeWindow r).c = 0#3 := rfl
@[simp] theorem Regs.closeWindow_raw (r : Regs) : (Regs.closeWindow r).raw = r.raw := rfl
@[simp] theorem Regs.closeWindow_work (r : Regs) : (Regs.closeWindow r).work = r.work := rfl
@[simp] theorem Regs.closeWindow_syncFrames (r : Regs) : (Regs.closeWindow r).syncFrames = r.syncFrames := rfl
@[simp] theorem Regs.closeWindow_fmtSet (r : Regs) : (Regs.closeWindow r).fmtSet = r.fmtSet := rfl
@[simp] theorem Regs.closeWindow_fmtRaw (r : Regs) : (Regs.closeWindow r).fmtRaw = r.fmtRaw := rfl
@[simp] theorem Regs.closeWindow_rsCorr (r : Regs) : (Regs.closeWindow r).rsCorr = r.rsCorr := rfl
@[simp] theorem Regs.closeWindow_rsUncorr (r : Regs) : (Regs.closeWindow r).rsUncorr = r.rsUncorr := rfl
@[simp] theorem Regs.closeWindow_lastSync (r : Regs) : (Regs.closeWindow r).lastSync = r.lastSync := rfl
@[simp] theorem Regs.closeWindow_n (r : Regs) : (Regs.closeWindow r).n = r.n := rfl
@[simp] theorem Regs.closeWindow_auStart (r : Regs) : (Regs.closeWindow r).auStart = r.auStart := rfl

@[simp] theorem copyWindow_latched (r : Regs) : (copyWindow r).latched = r.latched := rfl
@[simp] theorem copyWindow_l (r : Regs) : (copyWindow r).l = r.l := rfl
@[simp] theorem copyWindow_c (r : Regs) : (copyWindow r).c = r.c := rfl
@[simp] theorem copyWindow_raw (r : Regs) : (copyWindow r).raw = r.raw := rfl
@[simp] theorem copyWindow_work (r : Regs) : (copyWindow r).work = Memory.writeBlock r.work 0 (Memory.readBlock r.raw 0 (framesPerSf * r.len)) := rfl
@[simp] theorem copyWindow_syncFrames (r : Regs) : (copyWindow r).syncFrames = r.syncFrames := rfl
@[simp] theorem copyWindow_fmtSet (r : Regs) : (copyWindow r).fmtSet = r.fmtSet := rfl
@[simp] theorem copyWindow_fmtRaw (r : Regs) : (copyWindow r).fmtRaw = r.fmtRaw := rfl
@[simp] theorem copyWindow_rsCorr (r : Regs) : (copyWindow r).rsCorr = r.rsCorr := rfl
@[simp] theorem copyWindow_rsUncorr (r : Regs) : (copyWindow r).rsUncorr = r.rsUncorr := rfl
@[simp] theorem copyWindow_lastSync (r : Regs) : (copyWindow r).lastSync = r.lastSync := rfl
@[simp] theorem copyWindow_n (r : Regs) : (copyWindow r).n = r.n := rfl
@[simp] theorem copyWindow_auStart (r : Regs) : (copyWindow r).auStart = r.auStart := rfl

@[simp] theorem rsPass_latched (p : Params) (r : Regs) : (rsPass p r).latched = r.latched := rfl
@[simp] theorem rsPass_l (p : Params) (r : Regs) : (rsPass p r).l = r.l := rfl
@[simp] theorem rsPass_c (p : Params) (r : Regs) : (rsPass p r).c = r.c := rfl
@[simp] theorem rsPass_raw (p : Params) (r : Regs) : (rsPass p r).raw = r.raw := rfl
@[simp] theorem rsPass_work (p : Params) (r : Regs) : (rsPass p r).work = (passWords p r.k r.work).work := rfl
@[simp] theorem rsPass_syncFrames (p : Params) (r : Regs) : (rsPass p r).syncFrames = r.syncFrames := rfl
@[simp] theorem rsPass_fmtSet (p : Params) (r : Regs) : (rsPass p r).fmtSet = r.fmtSet := rfl
@[simp] theorem rsPass_fmtRaw (p : Params) (r : Regs) : (rsPass p r).fmtRaw = r.fmtRaw := rfl
@[simp] theorem rsPass_rsCorr (p : Params) (r : Regs) : (rsPass p r).rsCorr = BitVec.ofNat 32 (passWords p r.k r.work).corr := rfl
@[simp] theorem rsPass_rsUncorr (p : Params) (r : Regs) : (rsPass p r).rsUncorr = (passWords p r.k r.work).unc := rfl
@[simp] theorem rsPass_lastSync (p : Params) (r : Regs) : (rsPass p r).lastSync = r.lastSync := rfl
@[simp] theorem rsPass_n (p : Params) (r : Regs) : (rsPass p r).n = r.n := rfl
@[simp] theorem rsPass_auStart (p : Params) (r : Regs) : (rsPass p r).auStart = r.auStart := rfl

@[simp] theorem Regs.latch_c (n : Nat) (r : Regs) : (Regs.latch n r).c = r.c := by
  unfold Regs.latch; split <;> rfl
@[simp] theorem Regs.latch_raw (n : Nat) (r : Regs) : (Regs.latch n r).raw = r.raw := by
  unfold Regs.latch; split <;> rfl
@[simp] theorem Regs.latch_work (n : Nat) (r : Regs) : (Regs.latch n r).work = r.work := by
  unfold Regs.latch; split <;> rfl
@[simp] theorem Regs.latch_syncFrames (n : Nat) (r : Regs) : (Regs.latch n r).syncFrames = r.syncFrames := by
  unfold Regs.latch; split <;> rfl
@[simp] theorem Regs.latch_fmtSet (n : Nat) (r : Regs) : (Regs.latch n r).fmtSet = r.fmtSet := by
  unfold Regs.latch; split <;> rfl
@[simp] theorem Regs.latch_fmtRaw (n : Nat) (r : Regs) : (Regs.latch n r).fmtRaw = r.fmtRaw := by
  unfold Regs.latch; split <;> rfl
@[simp] theorem Regs.latch_rsCorr (n : Nat) (r : Regs) : (Regs.latch n r).rsCorr = r.rsCorr := by
  unfold Regs.latch; split <;> rfl
@[simp] theorem Regs.latch_rsUncorr (n : Nat) (r : Regs) : (Regs.latch n r).rsUncorr = r.rsUncorr := by
  unfold Regs.latch; split <;> rfl
@[simp] theorem Regs.latch_lastSync (n : Nat) (r : Regs) : (Regs.latch n r).lastSync = r.lastSync := by
  unfold Regs.latch; split <;> rfl
@[simp] theorem Regs.latch_n (n : Nat) (r : Regs) : (Regs.latch n r).n = r.n := by
  unfold Regs.latch; split <;> rfl
@[simp] theorem Regs.latch_auStart (n : Nat) (r : Regs) : (Regs.latch n r).auStart = r.auStart := by
  unfold Regs.latch; split <;> rfl
@[simp] theorem Regs.latch_latched (n : Nat) (r : Regs) : (Regs.latch n r).latched = true := by
  unfold Regs.latch; split <;> simp_all

@[simp] theorem accumulate_latched (frame : List Byte) (r : Regs) : (accumulate frame r).latched = r.latched := by
  unfold accumulate; split <;> rfl
@[simp] theorem accumulate_l (frame : List Byte) (r : Regs) : (accumulate frame r).l = r.l := by
  unfold accumulate; split <;> rfl
@[simp] theorem accumulate_work (frame : List Byte) (r : Regs) : (accumulate frame r).work = r.work := by
  unfold accumulate; split <;> rfl
@[simp] theorem accumulate_syncFrames (frame : List Byte) (r : Regs) : (accumulate frame r).syncFrames = r.syncFrames := by
  unfold accumulate; split <;> rfl
@[simp] theorem accumulate_fmtSet (frame : List Byte) (r : Regs) : (accumulate frame r).fmtSet = r.fmtSet := by
  unfold accumulate; split <;> rfl
@[simp] theorem accumulate_fmtRaw (frame : List Byte) (r : Regs) : (accumulate frame r).fmtRaw = r.fmtRaw := by
  unfold accumulate; split <;> rfl
@[simp] theorem accumulate_rsCorr (frame : List Byte) (r : Regs) : (accumulate frame r).rsCorr = r.rsCorr := by
  unfold accumulate; split <;> rfl
@[simp] theorem accumulate_rsUncorr (frame : List Byte) (r : Regs) : (accumulate frame r).rsUncorr = r.rsUncorr := by
  unfold accumulate; split <;> rfl
@[simp] theorem accumulate_lastSync (frame : List Byte) (r : Regs) : (accumulate frame r).lastSync = r.lastSync := by
  unfold accumulate; split <;> rfl
@[simp] theorem accumulate_n (frame : List Byte) (r : Regs) : (accumulate frame r).n = r.n := by
  unfold accumulate; split <;> rfl
@[simp] theorem accumulate_auStart (frame : List Byte) (r : Regs) : (accumulate frame r).auStart = r.auStart := by
  unfold accumulate; split <;> rfl

@[simp] theorem afterFormat_latched (r : Regs) : (afterFormat r).latched = r.latched := by
  unfold afterFormat; split <;> rfl
@[simp] theorem afterFormat_l (r : Regs) : (afterFormat r).l = r.l := by
  unfold afterFormat; split <;> rfl
@[simp] theorem afterFormat_c (r : Regs) : (afterFormat r).c = r.c := by
  unfold afterFormat; split <;> rfl
@[simp] theorem afterFormat_raw (r : Regs) : (afterFormat r).raw = r.raw := by
  unfold afterFormat; split <;> rfl
@[simp] theorem afterFormat_work (r : Regs) : (afterFormat r).work = r.work := by
  unfold afterFormat; split <;> rfl
@[simp] theorem afterFormat_syncFrames (r : Regs) : (afterFormat r).syncFrames = r.syncFrames := by
  unfold afterFormat; split <;> rfl
@[simp] theorem afterFormat_rsCorr (r : Regs) : (afterFormat r).rsCorr = r.rsCorr := by
  unfold afterFormat; split <;> rfl
@[simp] theorem afterFormat_rsUncorr (r : Regs) : (afterFormat r).rsUncorr = r.rsUncorr := by
  unfold afterFormat; split <;> rfl
@[simp] theorem afterFormat_lastSync (r : Regs) : (afterFormat r).lastSync = r.lastSync := by
  unfold afterFormat; split <;> rfl
@[simp] theorem afterFormat_n (r : Regs) : (afterFormat r).n = r.n := by
  unfold afterFormat; split <;> rfl
@[simp] theorem afterFormat_auStart (r : Regs) : (afterFormat r).auStart = r.auStart := by
  unfold afterFormat; split <;> rfl

end Sys2Proof.Machine
end

