-- ==== Sys2Proof/Laws/ReedSolomon.lean ====
section
/-! SUPPORT. Reed–Solomon: the shape of every answer of rsDecode, what inserting a codeword does to a buffer, and what
the pass keeps. -/

namespace Sys2Proof.Machine

@[simp] theorem length_extractWord (m : Memory) (k i : Nat) : (extractWord m k i).length = 120 := by
  simp [extractWord, rsLen]

@[simp] theorem getElem_extractWord (m : Memory) (k i pos : Nat) (h : pos < (extractWord m k i).length) :
    (extractWord m k i)[pos] = Memory.read m (pos * k + i) := by
  simp [extractWord]

/-! ## Inserting -/

/-- The first n positions of an insertion. -/
theorem insertUpTo_wf {m : Memory} (h : Memory.wf m) (k i : Nat) (w : List Byte) (n : Nat) :
    Memory.wf ((List.range n).foldl (fun m pos => Memory.write m (pos * k + i) (w.getD pos 0x00#8)) m) := by
  induction n with
  | zero => simpa using h
  | succ n ih => simpa [List.range_succ] using Memory.write_wf ih _ _

theorem insertUpTo_read_off (m : Memory) (k i : Nat) (w : List Byte) (n a : Nat)
    (ha : ∀ pos, pos < n → a ≠ pos * k + i) :
    Memory.read ((List.range n).foldl (fun m pos => Memory.write m (pos * k + i) (w.getD pos 0x00#8)) m) a =
      Memory.read m a := by
  induction n with
  | zero => rfl
  | succ n ih =>
    rw [List.range_succ, List.foldl_append, List.foldl_cons, List.foldl_nil,
      Memory.read_write_other _ _ (ha n (by omega)), ih fun pos hp => ha pos (by omega)]

theorem insertUpTo_read_at {m : Memory} (h : Memory.wf m) {k i : Nat} (hk : 0 < k) (w : List Byte) (n pos : Nat)
    (hp : pos < n) :
    Memory.read ((List.range n).foldl (fun m pos => Memory.write m (pos * k + i) (w.getD pos 0x00#8)) m)
      (pos * k + i) = w.getD pos 0x00#8 := by
  induction n with
  | zero => omega
  | succ n ih =>
    rw [List.range_succ, List.foldl_append, List.foldl_cons, List.foldl_nil]
    by_cases hpn : pos = n
    · subst hpn
      exact Memory.read_write_same (insertUpTo_wf h k i w pos) _ _
    · have hlt : pos < n := by omega
      rw [Memory.read_write_other, ih hlt]
      have := Nat.mul_lt_mul_of_pos_right hlt hk
      omega

theorem insertUpTo_below {m : Memory} {n : Nat} (h : ∀ cell ∈ m, cell.1 < n) (k i : Nat) (w : List Byte) (j : Nat)
    (hj : ∀ pos, pos < j → pos * k + i < n) :
    ∀ cell ∈ (List.range j).foldl (fun m pos => Memory.write m (pos * k + i) (w.getD pos 0x00#8)) m, cell.1 < n := by
  induction j with
  | zero => simpa using h
  | succ j ih =>
    rw [List.range_succ, List.foldl_append, List.foldl_cons, List.foldl_nil]
    exact Memory.write_below (ih fun pos hp => hj pos (by omega)) (hj j (by omega)) _

theorem insertWord_wf {m : Memory} (h : Memory.wf m) (k i : Nat) (w : List Byte) :
    Memory.wf (insertWord m k i w) := insertUpTo_wf h k i w rsLen

/-- Position pos of codeword i holds byte pos of the word. -/
theorem read_insertWord_at {m : Memory} (h : Memory.wf m) {k i : Nat} (hk : 0 < k) (w : List Byte) {pos : Nat}
    (hp : pos < 120) : Memory.read (insertWord m k i w) (pos * k + i) = w.getD pos 0x00#8 :=
  insertUpTo_read_at h hk w rsLen pos hp

/-- Every other index is unchanged. -/
theorem read_insertWord_off (m : Memory) (k i : Nat) (w : List Byte) {a : Nat}
    (ha : ∀ pos, pos < 120 → a ≠ pos * k + i) : Memory.read (insertWord m k i w) a = Memory.read m a :=
  insertUpTo_read_off m k i w rsLen a ha

/-- Positions of two codewords of a window are different indices (41_reed_solomon R138). -/
theorem codeword_index_ne {k i j pos pos' : Nat} (hi : i < k) (hj : j < k) (hij : i ≠ j) :
    pos * k + i ≠ pos' * k + j := by
  intro h
  have h1 : (i + k * pos) % k = i := by rw [Nat.add_mul_mod_self_left, Nat.mod_eq_of_lt hi]
  have h2 : (j + k * pos') % k = j := by rw [Nat.add_mul_mod_self_left, Nat.mod_eq_of_lt hj]
  apply hij
  rw [← h1, ← h2, Nat.mul_comm k pos, Nat.mul_comm k pos', Nat.add_comm i, Nat.add_comm j, h]

/-- Every index of a codeword is below 120·k. -/
theorem codeword_index_lt {k i pos : Nat} (hi : i < k) (hp : pos < 120) : pos * k + i < 120 * k := by
  have : pos * k + k ≤ 120 * k := by
    rw [← Nat.succ_mul]
    exact Nat.mul_le_mul_right k hp
  omega

theorem insertWord_below {m : Memory} {n : Nat} (h : ∀ cell ∈ m, cell.1 < n) {k i : Nat} (hi : i < k)
    (hn : 120 * k ≤ n) (w : List Byte) : ∀ cell ∈ insertWord m k i w, cell.1 < n :=
  insertUpTo_below h k i w rsLen fun _ hp => Nat.lt_of_lt_of_le (codeword_index_lt hi hp) hn

/-! ## Answers -/

/-- What the three branches of rsDecode say of a count and a word (41_reed_solomon R134). -/
theorem rsDecode_cases (p : Params) {word : List Byte} {count : Nat} {w : List Byte}
    (h : rsDecode p word = .corrected count w) :
    (isCodeword word = true ∧ count = 0 ∧ w = word) ∨
    (isCodeword word = false ∧ rsNearest word = some w ∧ isCodeword w = true ∧ count = dist word w ∧ count ≤ 5) ∨
    (isCodeword word = false ∧ rsNearest word = none ∧
      1 ≤ count ∧ count ≤ 10 ∧ w.length = word.length ∧ dist word w ≤ count) := by
  unfold rsDecode at h
  split at h
  · rename_i hc
    cases h
    exact .inl ⟨hc, rfl, rfl⟩
  · rename_i hc
    rw [Bool.not_eq_true] at hc
    split at h
    · rename_i w' hw
      cases h
      refine .inr (.inl ⟨hc, hw, ?_⟩)
      unfold rsNearest at hw
      split at hw
      · split at hw
        · rename_i hgood
          cases hw
          simpa using hgood
        · cases hw
      · cases hw
    · rename_i hw
      refine .inr (.inr ⟨hc, hw, ?_⟩)
      unfold lawful at h
      split at h
      · split at h
        · rename_i hgood
          cases h
          exact hgood
        · cases h
      · cases h

theorem rsDecode_count_le (p : Params) {word : List Byte} {count : Nat} {w : List Byte}
    (h : rsDecode p word = .corrected count w) : count ≤ 10 := by
  rcases rsDecode_cases p h with ⟨_, rfl, _⟩ | ⟨_, _, _, _, h5⟩ | ⟨_, _, _, h10, _⟩ <;> omega

theorem isCodeword_length {word : List Byte} (h : isCodeword word = true) : word.length = 120 := by
  simp only [isCodeword, Bool.and_eq_true, beq_iff_eq] at h
  exact h.1

/-- A corrected word has 120 bytes. -/
theorem rsDecode_length (p : Params) {word : List Byte} {count : Nat} {w : List Byte} (hw : word.length = 120)
    (h : rsDecode p word = .corrected count w) : w.length = 120 := by
  rcases rsDecode_cases p h with ⟨_, _, rfl⟩ | ⟨_, _, hc, _⟩ | ⟨_, _, _, _, hl, _⟩
  · exact hw
  · exact isCodeword_length hc
  · omega

/-! ## The pass -/

/-- One codeword of the pass: WORK keeps its form and bounds, the total grows by at most 10. -/
theorem passWord_ok (p : Params) {k limit i : Nat} {st : PassState} (hw : Memory.wf st.work)
    (hb : ∀ cell ∈ st.work, cell.1 < limit) (hl : 120 * k ≤ limit) (hi : i < k) :
    Memory.wf (passWord p k st i).work ∧ (∀ cell ∈ (passWord p k st i).work, cell.1 < limit) ∧
      (passWord p k st i).corr ≤ st.corr + 10 := by
  cases hd : rsDecode p (extractWord st.work k i) with
  | corrected count w =>
    have he : passWord p k st i = ⟨insertWord st.work k i w, st.corr + count, st.unc⟩ := by
      simp only [passWord, hd]
    have hc := rsDecode_count_le p hd
    simp only [he]
    exact ⟨insertWord_wf hw k i w, insertWord_below hb hi hl w, by omega⟩
  | uncorrectable =>
    have he : passWord p k st i = ⟨st.work, st.corr, true⟩ := by simp only [passWord, hd]
    simp only [he]
    exact ⟨hw, hb, by omega⟩

/-- The first n codewords of a pass: the form of WORK, its bounds, and the size of the total. -/
theorem passWords_ok (p : Params) {k limit : Nat} {work : Memory} (hw : Memory.wf work)
    (hb : ∀ cell ∈ work, cell.1 < limit) (hl : 120 * k ≤ limit) (n : Nat) (hn : n ≤ k) :
    let st := (List.range n).foldl (passWord p k) ⟨work, 0, false⟩
    Memory.wf st.work ∧ (∀ cell ∈ st.work, cell.1 < limit) ∧ st.corr ≤ 10 * n := by
  induction n with
  | zero => exact ⟨hw, hb, Nat.le_refl 0⟩
  | succ n ih =>
    obtain ⟨h1, h2, h3⟩ := ih (by omega)
    simp only [List.range_succ, List.foldl_append, List.foldl_cons, List.foldl_nil]
    obtain ⟨h4, h5, h6⟩ := passWord_ok p h1 h2 hl (show n < k by omega)
    exact ⟨h4, h5, by omega⟩

/-- The pass writes WORK, RS_CORR and RS_UNCORR only (41_reed_solomon R140). -/
theorem rsPass_eq (p : Params) (r : Regs) :
    rsPass p r = { r with
      work := (passWords p r.k r.work).work
      rsCorr := BitVec.ofNat 32 (passWords p r.k r.work).corr
      rsUncorr := (passWords p r.k r.work).unc } := rfl

/-- At most one record reports a pass (41_reed_solomon R142). -/
theorem length_rsStatusEvents (r : Regs) : (rsStatusEvents r).length ≤ 1 := by
  unfold rsStatusEvents
  split <;> simp

end Sys2Proof.Machine
end

