-- ==== Sys2Proof/Laws/ErrorLocator.lean ====
section
/-! SUPPORT. The reference decoder of 41_reed_solomon R135 restores every word within five errors of a codeword: its
lists as polynomials, its ten rounds, its search and its corrections. -/

namespace Sys2Proof.Machine

open Polynomial Finset KeyEquation

variable {F : Type} [Field F] {φ : Byte → F}

/-! ## Lists of bytes as polynomials -/

/-- The polynomial with the given coefficients, lowest order first. -/
noncomputable def toPoly (φ : Byte → F) : List Byte → F[X]
  | [] => 0
  | a :: rest => C (φ a) + X * toPoly φ rest

theorem coeff_toPoly (h : IsByteField φ) (l : List Byte) (m : ℕ) : (toPoly φ l).coeff m = φ (l.getD m 0x00#8) := by
  induction l generalizing m with
  | nil => simp [toPoly, h.zero]
  | cons a rest ih =>
    cases m with
    | zero => simp [toPoly]
    | succ m => simp [toPoly, coeff_X_mul, ih]

theorem toPoly_snoc (l : List Byte) (a : Byte) : toPoly φ (l ++ [a]) = toPoly φ l + C (φ a) * X ^ l.length := by
  induction l with
  | nil => simp [toPoly]
  | cons b rest ih =>
    simp only [List.cons_append, toPoly, ih, List.length_cons, pow_succ]
    ring

/-- Horner's rule evaluates the polynomial. -/
theorem polyEvalFrom_eq (h : IsByteField φ) (x acc : Byte) (cs : List Byte) :
    φ (polyEvalFrom x acc cs) = φ acc * φ x ^ cs.length + eval (φ x) (toPoly φ cs.reverse) := by
  induction cs generalizing acc with
  | nil => simp [polyEvalFrom, toPoly]
  | cons coef rest ih =>
    have hstep : φ (polyEvalFrom x acc (coef :: rest)) = φ (polyEvalFrom x (gmul acc x ^^^ coef) rest) := by
      by_cases h0 : acc = 0x00#8
      · rw [polyEvalFrom, if_pos h0, h0, gmul_comm, gmul_zero, BitVec.zero_xor]
      · rw [polyEvalFrom, if_neg h0]
    rw [hstep, ih, h.xor, h.mul, List.reverse_cons, toPoly_snoc, List.length_cons, List.length_reverse]
    simp only [eval_add, eval_mul, eval_C, eval_pow, eval_X]
    ring

theorem polyEval_reverse (h : IsByteField φ) (x : Byte) (l : List Byte) :
    φ (polyEval x l.reverse) = eval (φ x) (toPoly φ l) := by
  rw [polyEval, polyEvalFrom_eq h, h.zero, zero_mul, zero_add, List.reverse_reverse]

theorem foldl_xor (h : IsByteField φ) (f : ℕ → Byte) (n : ℕ) :
    φ ((List.range n).foldl (fun acc i => acc ^^^ f i) 0x00#8) = ∑ i ∈ range n, φ (f i) := by
  induction n with
  | zero => simp [h.zero]
  | succ n ih => rw [List.range_succ, List.foldl_append, List.foldl_cons, List.foldl_nil, h.xor, ih, sum_range_succ]

/-- A sum of products of coefficients is a coefficient of the product. -/
theorem coeff_toPoly_mul (h : IsByteField φ) (l s : List Byte) (n : ℕ) :
    φ ((List.range (n + 1)).foldl (fun acc i => acc ^^^ gmul (l.getD i 0x00#8) (s.getD (n - i) 0x00#8)) 0x00#8) =
      (toPoly φ l * toPoly φ s).coeff n := by
  rw [foldl_xor h, coeff_mul, Finset.Nat.sum_antidiagonal_eq_sum_range_succ_mk]
  simp only [h.mul, coeff_toPoly h]

/-! ## The ten rounds -/

theorem toPoly_shiftUp (h : IsByteField φ) {b : List Byte} (hb : ∀ m, 10 ≤ m → (toPoly φ b).coeff m = 0) :
    toPoly φ (shiftUp b) = X * toPoly φ b := by
  ext m
  cases m with
  | zero => simp [coeff_toPoly h, shiftUp, h.zero]
  | succ m =>
    rw [coeff_X_mul, coeff_toPoly h, shiftUp, List.getD_cons_succ]
    by_cases hm : m < 10
    · rw [coeff_toPoly h]
      simp [List.getD_eq_getElem?_getD, hm]
    · rw [hb m (by omega)]
      simp [List.getD_eq_getElem?_getD, hm, h.zero]

theorem toPoly_correct (h : IsByteField φ) (d : Byte) {l b : List Byte} (hl : l.length = b.length) :
    toPoly φ (List.zipWith (fun x y => x ^^^ gmul d y) l b) = toPoly φ l - C (φ d) * toPoly φ b := by
  induction l generalizing b with
  | nil =>
    cases b with
    | nil => simp [toPoly]
    | cons _ _ => simp at hl
  | cons a l ih =>
    cases b with
    | nil => simp at hl
    | cons a' b =>
      have hneg : φ (a ^^^ gmul d a') = φ a - φ d * φ a' := by rw [h.xor, h.mul, sub_eq_add_neg, h.neg]
      simp only [List.zipWith_cons_cons, toPoly, ih (by simpa using hl), hneg, C_sub, C_mul]
      ring

theorem toPoly_scale (h : IsByteField φ) (d : Byte) (l : List Byte) :
    toPoly φ (l.map (gmul d)) = C (φ d) * toPoly φ l := by
  induction l with
  | nil => simp [toPoly]
  | cons a l ih =>
    simp only [List.map_cons, toPoly, ih, h.mul, C_mul]
    ring

/-- What holds of the registers after n rounds; v is the number of wrong places. -/
structure BmOk (φ : Byte → F) (s : List Byte) (v : ℕ) (st : BmState) (n : ℕ) : Prop where
  lengths : st.lambda.length = 11 ∧ st.b.length = 11
  round : Round (toPoly φ s) (toPoly φ st.lambda) (toPoly φ st.b) st.el n
  short : st.el ≤ v

theorem BmOk.start (h : IsByteField φ) (s : List Byte) (v : ℕ) : BmOk φ s v BmState.start 0 := by
  have hone : toPoly φ (0x01#8 :: List.replicate 10 0x00#8) = 1 := by
    ext m
    rw [coeff_toPoly h, coeff_one]
    cases m with
    | zero => simp [h.one]
    | succ m =>
      have hz : (List.replicate 10 0x00#8).getD m 0x00#8 = 0x00#8 := by
        rw [List.getD_eq_getElem?_getD, List.getElem?_replicate]
        split <;> rfl
      rw [List.getD_cons_succ, if_neg (by omega), hz, h.zero]
  refine ⟨⟨rfl, rfl⟩, ?_, Nat.zero_le v⟩
  rw [BmState.start]
  simp only
  rw [hone]
  exact Round.start _

theorem BmOk.step (h : IsByteField φ) {s : List Byte} {G : F[X]} {v n : ℕ} {st : BmState}
    (hg : Generates (toPoly φ s) G v 10) (ok : BmOk φ s v st n) (hn : n < 10) :
    BmOk φ s v (bmRound s st (n + 1)) (n + 1) := by
  obtain ⟨⟨hl, hb⟩, hround, hshort⟩ := ok
  have hlen : (shiftUp st.b).length = 11 := by simp [shiftUp, hb]
  have hshift : toPoly φ (shiftUp st.b) = X * toPoly φ st.b :=
    toPoly_shiftUp h fun m hm => hround.degB m (by omega)
  have hdisc : φ (discrepancy s st.lambda (n + 1)) = (toPoly φ st.lambda * toPoly φ s).coeff n :=
    coeff_toPoly_mul h st.lambda s n
  unfold bmRound
  simp only
  split
  · rename_i h0
    refine ⟨⟨hl, hlen⟩, ?_, hshort⟩
    simp only [hshift]
    exact hround.same (by rw [← hdisc, h0, h.zero])
  · rename_i hne
    have hne' : (toPoly φ st.lambda * toPoly φ s).coeff n ≠ 0 := by
      rw [← hdisc]
      exact fun h0 => hne (h.eq_zero.mp h0)
    have hcorr : toPoly φ (List.zipWith (fun x y => x ^^^ gmul (discrepancy s st.lambda (n + 1)) y) st.lambda
        (shiftUp st.b)) = toPoly φ st.lambda - C ((toPoly φ st.lambda * toPoly φ s).coeff n) *
          (X * toPoly φ st.b) := by
      rw [toPoly_correct h _ (by rw [hl, hlen]), hdisc, hshift]
    split
    · rename_i hle
      refine ⟨⟨by simp [hl, hlen], by simp [hl]⟩, ?_, ?_⟩
      · simp only [hcorr, toPoly_scale h, h.inv hne, hdisc]
        exact hround.longer hne' (by omega)
      · simp only
        by_contra hlong
        exact hne' (hround.no_discrepancy hg hn (by omega))
    · rename_i hle
      refine ⟨⟨by simp [hl, hlen], hlen⟩, ?_, hshort⟩
      simp only [hcorr, hshift]
      exact hround.keep (by omega)

/-- The registers after the ten rounds. -/
theorem errorLocator_ok (h : IsByteField φ) {s : List Byte} {G : F[X]} {v : ℕ}
    (hg : Generates (toPoly φ s) G v 10) :
    ∃ st, errorLocator s = st.lambda ∧ BmOk φ s v st 10 := by
  have key : ∀ n, n ≤ 10 →
      BmOk φ s v ((List.range n).foldl (fun st r => bmRound s st (r + 1)) BmState.start) n := by
    intro n
    induction n with
    | zero => exact fun _ => BmOk.start h s v
    | succ n ih =>
      intro hn
      rw [List.range_succ, List.foldl_append, List.foldl_cons, List.foldl_nil]
      exact (ih (by omega)).step h hg (by omega)
  exact ⟨_, rfl, key 10 (by omega)⟩

/-! ## The errors of a word -/

/-- The places where a word differs from c. -/
def errorPlaces (word c : List Byte) : Finset ℕ :=
  (range 120).filter fun pos => word.getD pos 0x00#8 ≠ c.getD pos 0x00#8

/-- The field element of place pos: the power of α that its coefficient stands at (41_reed_solomon R132). -/
def place (φ : Byte → F) (pos : ℕ) : F := φ 0x02#8 ^ (119 - pos)

/-- The error at place pos. -/
def errorAt (word c : List Byte) (pos : ℕ) : Byte := word.getD pos 0x00#8 ^^^ c.getD pos 0x00#8

theorem getD_reverse {l : List Byte} {i : ℕ} (hi : i < l.length) :
    l.reverse.getD i 0x00#8 = l.getD (l.length - 1 - i) 0x00#8 := by
  rw [List.getD_eq_getElem _ _ (by simpa using hi), List.getElem_reverse, List.getD_eq_getElem]

theorem eval_toPoly_eq_sum (l : List Byte) (z : F) :
    eval z (toPoly φ l) = ∑ i ∈ range l.length, φ (l.getD i 0x00#8) * z ^ i := by
  induction l with
  | nil => simp [toPoly]
  | cons a rest ih =>
    rw [List.length_cons, sum_range_succ']
    simp only [toPoly, eval_add, eval_C, eval_mul, eval_X, ih, mul_sum, List.getD_cons_succ, List.getD_cons_zero,
      pow_zero, mul_one]
    rw [add_comm]
    congr 1
    exact Finset.sum_congr rfl fun i _ => by rw [pow_succ]; ring

/-- A syndrome is the sum of the bytes times the j-th power of their places (41_reed_solomon R133). -/
theorem syndrome_eq_sum (h : IsByteField φ) {word : List Byte} (hw : word.length = 120) (j : ℕ) :
    φ (syndrome word j) = ∑ pos ∈ range 120, φ (word.getD pos 0x00#8) * place φ pos ^ j := by
  have hr := polyEval_reverse h (alpha j) word.reverse
  rw [List.reverse_reverse] at hr
  rw [syndrome, hr, eval_toPoly_eq_sum, List.length_reverse, hw, ← Finset.sum_range_reflect]
  refine Finset.sum_congr rfl fun pos hpos => ?_
  have hlt := Finset.mem_range.mp hpos
  rw [getD_reverse (by omega), hw, show 120 - 1 - (120 - 1 - pos) = pos by omega, h.alpha, place, ← pow_mul,
    ← pow_mul, mul_comm j]

/-- The syndromes of a word are those of its errors. -/
theorem toPoly_syndromes (h : IsByteField φ) {word c : List Byte} (hw : word.length = 120)
    (hc : isCodeword c = true) :
    toPoly φ (syndromes word) =
      syndromePoly (errorPlaces word c) (place φ) (fun pos => φ (errorAt word c pos)) 10 := by
  have hclen := isCodeword_length hc
  have hzero : ∀ j, j < 10 → syndrome c j = 0x00#8 := by
    intro j hj
    simp only [isCodeword, Bool.and_eq_true, List.all_eq_true, syndromes, List.mem_map, List.mem_range,
      beq_iff_eq] at hc
    exact hc.2 _ ⟨j, hj, rfl⟩
  ext m
  have hcoef : (syndromePoly (errorPlaces word c) (place φ) (fun pos => φ (errorAt word c pos)) 10).coeff m =
      if m < 10 then ∑ pos ∈ errorPlaces word c, φ (errorAt word c pos) * place φ pos ^ m else 0 := by
    have hpowers : ∀ a : F, (∑ j ∈ range 10, C (a ^ j) * X ^ j).coeff m = if m < 10 then a ^ m else 0 := by
      intro a
      rw [finsetSum_coeff]
      simp only [coeff_C_mul_X_pow, Finset.sum_ite_eq, Finset.mem_range]
    rw [syndromePoly, finsetSum_coeff]
    simp only [coeff_C_mul, hpowers]
    split
    · rfl
    · simp
  rw [hcoef, coeff_toPoly h]
  by_cases hm : m < 10
  · rw [if_pos hm, List.getD_eq_getElem _ _ (by simpa [syndromes, rsRoots] using hm)]
    have he : (syndromes word)[m]'(by simpa [syndromes, rsRoots] using hm) = syndrome word m := by
      simp [syndromes]
    rw [he]
    have hsum : φ (syndrome word m) = φ (syndrome word m) + φ (syndrome c m) := by
      rw [hzero m hm, h.zero, add_zero]
    rw [hsum, syndrome_eq_sum h hw, syndrome_eq_sum h hclen, ← Finset.sum_add_distrib, errorPlaces,
      Finset.sum_filter]
    refine Finset.sum_congr rfl fun pos _ => ?_
    split
    · rw [errorAt, h.xor]
      ring
    · rename_i heq
      rw [not_not] at heq
      rw [heq, ← add_mul, ← h.xor, BitVec.xor_self, h.zero, zero_mul]
  · rw [if_neg hm, List.getD_eq_default _ _ (by simp [syndromes, rsRoots]; omega), h.zero]

theorem errorPlaces_lt {word c : List Byte} {pos : ℕ} (hp : pos ∈ errorPlaces word c) : pos < 120 :=
  Finset.mem_range.mp (Finset.mem_filter.mp hp).1

theorem errorAt_ne_zero {word c : List Byte} {pos : ℕ} (hp : pos ∈ errorPlaces word c) :
    errorAt word c pos ≠ 0x00#8 := by
  intro h0
  exact (Finset.mem_filter.mp hp).2 (BitVec.xor_eq_zero_iff.mp h0)

theorem place_inj (h : IsByteField φ) {i j : ℕ} (hi : i < 120) (hj : j < 120) (he : place φ i = place φ j) : i = j := by
  have := h.alpha_inj (by omega) (by omega) he
  omega

/-- The distance of two words of 120 bytes is the number of places where they differ. -/
theorem dist_eq_card {word c : List Byte} (hw : word.length = 120) (hc : c.length = 120) :
    dist word c = (errorPlaces word c).card := by
  have hzip : List.zip word c =
      (List.range 120).map fun pos => (word.getD pos 0x00#8, c.getD pos 0x00#8) := by
    apply List.ext_getElem (by simp [hw, hc])
    intro i h1 h2
    have hi : i < 120 := by simpa using h2
    rw [List.getElem_zip, List.getElem_map, List.getElem_range, List.getD_eq_getElem _ _ (by omega),
      List.getD_eq_getElem _ _ (by omega)]
  have hcard : ∀ q : ℕ → Bool, ((List.range 120).filter q).length = ((range 120).filter fun pos => q pos).card := by
    intro q
    rw [← List.toFinset_card_of_nodup (List.nodup_range.filter q)]
    congr 1
    ext pos
    simp
  rw [Machine.dist, hzip, List.filter_map, List.length_map, hcard, errorPlaces]
  congr 1
  ext pos
  simp

/-- With at most five wrong places the rounds end with their locator. -/
theorem errorLocator_eq (h : IsByteField φ) {word c : List Byte} (hw : word.length = 120) (hc : isCodeword c = true)
    (hd : (errorPlaces word c).card ≤ 5) :
    (errorLocator (syndromes word)).length = 11 ∧
      toPoly φ (errorLocator (syndromes word)) = locator (errorPlaces word c) (place φ) := by
  have hsyn := toPoly_syndromes h hw hc
  have hg := locator_generates (errorPlaces word c) (place φ) (fun pos => φ (errorAt word c pos)) 10
  rw [← hsyn] at hg
  obtain ⟨st, he, ⟨hl, -⟩, hround, hshort⟩ := errorLocator_ok h hg
  rw [he]
  refine ⟨hl, ?_⟩
  have hz := hround.zeros
  rw [hsyn] at hz
  exact register_eq_locator (by omega) hshort (fun k _ => h.alpha_ne_zero _)
    (fun k hk h0 => errorAt_ne_zero hk (h.eq_zero.mp h0))
    (fun j hj k hk he => place_inj h (errorPlaces_lt hj) (errorPlaces_lt hk) he) hround.one hround.degL hz

/-! ## The search -/

theorem degree_eq {l : List Byte} {d : ℕ} (hd : d < l.length) (hne : l.getD d 0x00#8 ≠ 0x00#8)
    (hz : ∀ m, d < m → l.getD m 0x00#8 = 0x00#8) : degree l = d := by
  have key : ∀ n, (List.range n).foldl (fun a i => if l.getD i 0x00#8 = 0x00#8 then a else i) 0 ≤ d ∧
      (d < n → (List.range n).foldl (fun a i => if l.getD i 0x00#8 = 0x00#8 then a else i) 0 = d) := by
    intro n
    induction n with
    | zero => exact ⟨Nat.zero_le _, fun h => by omega⟩
    | succ n ih =>
      rw [List.range_succ, List.foldl_append, List.foldl_cons, List.foldl_nil]
      split
      · rename_i h0
        refine ⟨ih.1, fun hlt => ih.2 ?_⟩
        rcases Nat.lt_succ_iff_lt_or_eq.mp hlt with hlt | rfl
        · exact hlt
        · exact absurd h0 hne
      · rename_i h0
        have hn : n ≤ d := by
          by_contra hlt
          exact h0 (hz n (by omega))
        exact ⟨hn, fun hlt => by omega⟩
  exact (key l.length).2 hd

theorem chien_eq (l : List Byte) (n i : ℕ) :
    chien l n i (alpha i) =
      ((List.range' i n).filter fun m => polyEval (alpha m) l.reverse = 0x00#8).map fun m => (m, alpha m) := by
  induction n generalizing i with
  | zero => rfl
  | succ n ih =>
    rw [chien, xtime_alpha, ih, List.range'_succ, List.filter_cons]
    by_cases h0 : polyEval (alpha i) l.reverse = 0x00#8 <;> simp [h0]

/-- The search finds mother position 135 + pos, that is i = 136 + pos, for each wrong place and nothing else
(41_reed_solomon R135 step 3, R136). -/
theorem root_iff (h : IsByteField φ) {K : Finset ℕ} (hK : ∀ k ∈ K, k < 120) {l : List Byte}
    (hl : toPoly φ l = locator K (place φ)) {m : ℕ} (h1 : 1 ≤ m) (h2 : m ≤ 255) :
    polyEval (alpha m) l.reverse = 0x00#8 ↔ ∃ k ∈ K, m = 136 + k := by
  rw [← h.eq_zero, polyEval_reverse h, hl, locator_root_iff]
  refine exists_congr fun k => and_congr_right fun hk => ?_
  have hk := hK k hk
  rw [h.alpha, place, ← pow_add]
  constructor
  · intro hone
    by_contra hne
    by_cases hlt : 119 - k + m < 255
    · have := h.alpha_inj hlt (by omega : 0 < 255) (hone.trans (pow_zero _).symm)
      omega
    · have hpow : φ 0x02#8 ^ (119 - k + m) = φ 0x02#8 ^ (119 - k + m - 255) := by
        conv_lhs => rw [show 119 - k + m = 255 + (119 - k + m - 255) by omega, pow_add, h.pow_255, one_mul]
      have := h.alpha_inj (by omega : 119 - k + m - 255 < 255) (by omega : 0 < 255)
        (hpow.symm.trans (hone.trans (pow_zero _).symm))
      omega
  · rintro rfl
    rw [show 119 - k + (136 + k) = 255 by omega]
    exact h.pow_255

/-! ## The corrections -/

theorem getD_map_range (f : ℕ → Byte) (n m : ℕ) :
    ((List.range n).map f).getD m 0x00#8 = if m < n then f m else 0x00#8 := by
  by_cases hm : m < n
  · rw [if_pos hm, List.getD_eq_getElem _ _ (by simpa using hm)]
    simp
  · rw [if_neg hm, List.getD_eq_default _ _ (by simp; omega)]

/-- omega is the evaluator (R135 step 4). -/
theorem toPoly_omega (h : IsByteField φ) {K : Finset ℕ} {x y : ℕ → F} {s l : List Byte} (hK : K.card ≤ 5)
    (hpos : 0 < K.card) (hl : toPoly φ l = locator K x) (hs : toPoly φ s = syndromePoly K x y 10) :
    toPoly φ (omega s l K.card) = evaluator K x y := by
  ext m
  rw [coeff_toPoly h, omega, getD_map_range]
  split
  · rw [coeff_toPoly_mul h, hl, hs, coeff_key (by omega)]
  · rw [h.zero]
    exact (coeff_eq_zero_of_natDegree_lt ((natDegree_evaluator K x y).trans_lt (by omega))).symm

/-- The odd coefficients are the derivative (R135 step 4, den). -/
theorem toPoly_oddPart (h : IsByteField φ) {l : List Byte} (hz : ∀ m, 9 < m → (toPoly φ l).coeff m = 0) :
    toPoly φ (oddPart l) = derivative (toPoly φ l) := by
  ext m
  rw [coeff_toPoly h, oddPart, getD_map_range, coeff_derivative]
  have htwo : ∀ q : ℕ, ((2 * q : ℕ) : F) = 0 := fun q => by rw [Nat.cast_mul, Nat.cast_two, h.two, zero_mul]
  split
  · rw [coeff_toPoly h]
    split
    · rename_i he
      have hone : ((m : F) + 1) = 1 := by
        rw [show m = 2 * (m / 2) by omega, htwo, zero_add]
      rw [hone, mul_one]
    · rename_i he
      have hzero : ((m : F) + 1) = 0 := by
        have := htwo ((m + 1) / 2)
        rw [show 2 * ((m + 1) / 2) = m + 1 by omega, Nat.cast_add, Nat.cast_one] at this
        exact this
      rw [hzero, mul_zero, h.zero]
  · rw [hz _ (by omega), zero_mul, h.zero]

/-- The correction at the root of place k is the error there (R135 step 4). -/
theorem forney_eq (h : IsByteField φ) {word c : List Byte} (hw : word.length = 120) (hc : isCodeword c = true)
    (hd : (errorPlaces word c).card ≤ 5) {k : ℕ} (hk : k ∈ errorPlaces word c) (w : List Byte) :
    forney (syndromes word) (errorLocator (syndromes word)) (errorPlaces word c).card w (136 + k, alpha (136 + k)) =
      w.modify k (· ^^^ errorAt word c k) := by
  obtain ⟨-, hloc⟩ := errorLocator_eq h hw hc hd
  set K := errorPlaces word c with hKdef
  set l := errorLocator (syndromes word) with hldef
  have hpos : 0 < K.card := Finset.card_pos.mpr ⟨k, hk⟩
  have hk120 := errorPlaces_lt hk
  have hx : place φ k ≠ 0 := h.alpha_ne_zero _
  have hroot : φ (alpha (136 + k)) = (place φ k)⁻¹ := by
    rw [h.alpha, place]
    refine (inv_eq_of_mul_eq_one_right ?_).symm
    rw [← pow_add, show 119 - k + (136 + k) = 255 by omega, h.pow_255]
  set P := ∏ j ∈ K.erase k, eval (place φ k)⁻¹ (1 - C (place φ j) * X) with hP
  have hPne : P ≠ 0 := by
    refine Finset.prod_ne_zero_iff.mpr fun j hj => ?_
    obtain ⟨hjk, hj⟩ := Finset.mem_erase.mp hj
    exact eval_factor_ne_zero hx fun he => hjk (place_inj h (errorPlaces_lt hj) hk120 he)
  have hne := errorAt_ne_zero hk
  have hyne : φ (errorAt word c k) ≠ 0 := fun h0 => hne (h.eq_zero.mp h0)
  have hnum : φ (polyEval (alpha (136 + k)) (omega (syndromes word) l K.card).reverse) =
      φ (errorAt word c k) * P := by
    rw [polyEval_reverse h, hroot, toPoly_omega h hd hpos hloc (toPoly_syndromes h hw hc),
      eval_evaluator _ hk hx]
  have hden : φ (polyEval (alpha (136 + k)) (oddPart l).reverse) = place φ k * P := by
    rw [polyEval_reverse h, hroot, toPoly_oddPart h, hloc, eval_derivative_locator hk hx, h.neg]
    intro m hm
    rw [hloc]
    exact coeff_eq_zero_of_natDegree_lt ((natDegree_factors_le K _).trans_lt (by omega))
  have hdenne : polyEval (alpha (136 + k)) (oddPart l).reverse ≠ 0x00#8 := by
    intro h0
    rw [h0, h.zero] at hden
    exact mul_ne_zero hx hPne hden.symm
  have hnumne : polyEval (alpha (136 + k)) (omega (syndromes word) l K.card).reverse ≠ 0x00#8 := by
    intro h0
    rw [h0, h.zero] at hnum
    exact mul_ne_zero hyne hPne hnum.symm
  have hrootne : alpha (136 + k) ≠ 0x00#8 := by
    intro h0
    rw [h0, h.zero] at hroot
    exact inv_ne_zero hx hroot.symm
  have hmag : gmul (gmul (polyEval (alpha (136 + k)) (omega (syndromes word) l K.card).reverse)
      (ginv (alpha (136 + k)))) (ginv (polyEval (alpha (136 + k)) (oddPart l).reverse)) = errorAt word c k := by
    apply h.inj
    rw [h.mul, h.mul, h.inv hrootne, h.inv hdenne, hnum, hden, hroot]
    field_simp
  unfold forney
  have hplace : 136 + k - 1 - 135 = k := by omega
  simp only [hmag, rsPad, hplace]
  rw [if_pos ⟨hnumne, by omega⟩]

/-- Corrections at different places: each place is corrected once. -/
theorem foldl_modify (e : ℕ → Byte) (ks : List ℕ) (hks : ks.Nodup) (w : List Byte) :
    (ks.foldl (fun w k => w.modify k (· ^^^ e k)) w).length = w.length ∧
    ∀ pos, pos < w.length → (ks.foldl (fun w k => w.modify k (· ^^^ e k)) w).getD pos 0x00#8 =
      if pos ∈ ks then w.getD pos 0x00#8 ^^^ e pos else w.getD pos 0x00#8 := by
  induction ks generalizing w with
  | nil => exact ⟨rfl, fun pos _ => by simp⟩
  | cons k ks ih =>
    obtain ⟨hk, hks⟩ := List.nodup_cons.mp hks
    obtain ⟨h1, h2⟩ := ih hks (w.modify k (· ^^^ e k))
    rw [List.length_modify] at h1 h2
    refine ⟨h1, fun pos hpos => ?_⟩
    rw [List.foldl_cons, h2 pos hpos]
    have hmod : (w.modify k (· ^^^ e k)).getD pos 0x00#8 =
        if k = pos then w.getD pos 0x00#8 ^^^ e pos else w.getD pos 0x00#8 := by
      rw [List.getD_eq_getElem _ _ (by simpa using hpos), List.getElem_modify, List.getD_eq_getElem _ _ hpos]
      split
      · rename_i he
        rw [he]
      · rfl
    rw [hmod]
    by_cases hkp : k = pos
    · subst hkp
      simp [hk]
    · simp [hkp, Ne.symm hkp, List.mem_cons]

/-- The reference decoder restores a word that differs from a codeword in 1 to 5 places (41_reed_solomon R135). -/
theorem rsDecodeRef_restores {word c : List Byte} (hw : word.length = 120) (hc : isCodeword c = true)
    (h1 : 1 ≤ Machine.dist word c) (h5 : Machine.dist word c ≤ 5) :
    rsDecodeRef word = .corrected (Machine.dist word c) c ∧ isCodeword word = false := by
  obtain ⟨F, _, φ, h⟩ := exists_byteField
  have hclen := isCodeword_length hc
  rw [dist_eq_card hw hclen] at h1 h5 ⊢
  obtain ⟨hlen, hloc⟩ := errorLocator_eq h hw hc h5
  have hsyn := toPoly_syndromes h hw hc
  set K := errorPlaces word c with hK
  set l := errorLocator (syndromes word) with hl
  have hKlt : ∀ k ∈ K, k < 120 := fun k hk => errorPlaces_lt hk
  -- some syndrome is not zero
  have hnonzero : (syndromes word).all (· == 0x00#8) = false := by
    by_contra hall
    rw [Bool.not_eq_false, List.all_eq_true] at hall
    have hz : toPoly φ (syndromes word) = 0 := by
      ext m
      rw [coeff_toPoly h, coeff_zero]
      by_cases hm : m < (syndromes word).length
      · have := hall _ (List.getElem_mem hm)
        rw [List.getD_eq_getElem _ _ hm, beq_iff_eq.mp this, h.zero]
      · rw [List.getD_eq_default _ _ (by omega), h.zero]
    obtain ⟨k, hk⟩ := Finset.card_pos.mp (show 0 < K.card by omega)
    have hev : evaluator K (place φ) (fun pos => φ (errorAt word c pos)) = 0 := by
      ext m
      by_cases hm : m < 10
      · rw [← coeff_key (n := 10) hm, ← hsyn, hz, mul_zero]
      · rw [coeff_zero]
        exact coeff_eq_zero_of_natDegree_lt ((natDegree_evaluator K _ _).trans_lt (by omega))
    have heval := eval_evaluator (x := place φ) (fun pos => φ (errorAt word c pos)) hk (h.alpha_ne_zero (119 - k))
    rw [hev, eval_zero] at heval
    refine mul_ne_zero ?_ ?_ heval.symm
    · exact fun h0 => errorAt_ne_zero hk (h.eq_zero.mp h0)
    · refine Finset.prod_ne_zero_iff.mpr fun j hj => ?_
      obtain ⟨hjk, hj⟩ := Finset.mem_erase.mp hj
      exact eval_factor_ne_zero (h.alpha_ne_zero _) fun he => hjk (place_inj h (hKlt j hj) (hKlt k hk) he)
  refine ⟨?_, by rw [isCodeword, hnonzero, Bool.and_false]⟩
  have hdeg : degree l = K.card := by
    refine degree_eq (by omega) ?_ fun m hm => ?_
    · intro h0
      have hne := locator_coeff_card_ne_zero (K := K) (x := place φ) fun k _ => h.alpha_ne_zero _
      rw [← hloc, coeff_toPoly h, h0, h.zero] at hne
      exact hne rfl
    · rw [← h.eq_zero, ← coeff_toPoly h, hloc]
      exact coeff_eq_zero_of_natDegree_lt ((natDegree_factors_le K _).trans_lt hm)
  -- the roots found
  set found := (List.range' 1 255).filter fun m => polyEval (alpha m) l.reverse = 0x00#8 with hfound
  have hmem : ∀ m, m ∈ found ↔ ∃ k ∈ K, m = 136 + k := by
    intro m
    simp only [hfound, List.mem_filter, List.mem_range'_1, decide_eq_true_eq]
    constructor
    · rintro ⟨hm, h0⟩
      exact (root_iff h hKlt hloc hm.1 (by omega)).mp h0
    · rintro ⟨k, hk, rfl⟩
      have := hKlt k hk
      exact ⟨by omega, (root_iff h hKlt hloc (by omega) (by omega)).mpr ⟨k, hk, rfl⟩⟩
  have hnodup : found.Nodup := (List.nodup_range' (step := 1) (by omega)).filter _
  have hcount : found.length = K.card := by
    rw [← List.toFinset_card_of_nodup hnodup]
    have himage : found.toFinset = K.image (136 + ·) := by
      ext m
      simp only [List.mem_toFinset, hmem, Finset.mem_image]
      exact exists_congr fun k => and_congr_right fun _ => eq_comm
    rw [himage, Finset.card_image_of_injective _ (fun a b hab => by simpa using hab)]
  -- the corrections
  set ks := found.map (· - 136) with hks
  have hksmem : ∀ pos, pos ∈ ks ↔ pos ∈ K := by
    intro pos
    simp only [hks, List.mem_map, hmem]
    constructor
    · rintro ⟨m, ⟨k, hk, rfl⟩, rfl⟩
      rwa [Nat.add_sub_cancel_left]
    · intro hp
      exact ⟨136 + pos, ⟨pos, hp, rfl⟩, by omega⟩
  have hksnodup : ks.Nodup := by
    refine (List.nodup_map_iff_inj_on hnodup).mpr fun a ha b hb hab => ?_
    obtain ⟨k, -, rfl⟩ := (hmem a).mp ha
    obtain ⟨k', -, rfl⟩ := (hmem b).mp hb
    simpa using hab
  have hfold : ∀ (ms : List ℕ) (w : List Byte), (∀ m ∈ ms, m ∈ found) →
      (ms.map fun m => (m, alpha m)).foldl (forney (syndromes word) l K.card) w =
        (ms.map (· - 136)).foldl (fun w k => w.modify k (· ^^^ errorAt word c k)) w := by
    intro ms
    induction ms with
    | nil => exact fun _ _ => rfl
    | cons m ms ih =>
      intro w hms
      obtain ⟨k, hk, rfl⟩ := (hmem m).mp (hms m List.mem_cons_self)
      rw [List.map_cons, List.foldl_cons, List.map_cons, List.foldl_cons, forney_eq h hw hc h5 hk,
        ih _ fun m hm => hms m (List.mem_cons_of_mem _ hm), Nat.add_sub_cancel_left]
  unfold rsDecodeRef
  simp only [hnonzero, Bool.false_eq_true, if_false]
  rw [← hl, hdeg, chien_eq, ← hfound, List.take_of_length_le (by rw [List.length_map, hcount]),
    if_neg (by rw [List.length_map, hcount]; simp), hfold found word fun m hm => hm]
  congr 1
  obtain ⟨hflen, hfget⟩ := foldl_modify (errorAt word c) ks hksnodup word
  apply List.ext_getElem (by rw [hflen, hw, hclen])
  intro pos p1 p2
  have hp : pos < 120 := by omega
  have hget := hfget pos (by omega)
  rw [List.getD_eq_getElem _ _ p1] at hget
  rw [hget, ← List.getD_eq_getElem _ 0x00#8 p2]
  split
  · rw [errorAt, ← BitVec.xor_assoc, BitVec.xor_self, BitVec.zero_xor]
  · rename_i hno
    rw [hksmem] at hno
    by_contra hne
    exact hno (Finset.mem_filter.mpr ⟨Finset.mem_range.mpr hp, hne⟩)

end Sys2Proof.Machine
end

