-- ==== Sys2Proof/Laws/Ops.lean ====
section
/-! SUPPORT. What carrying out effects does, said once: with room for every record it does all of them; without, it
keeps the rest for later and loses nothing. -/

namespace Sys2Proof.Machine

@[simp] theorem eventsOf_append (es fs : List Effect) : eventsOf (es ++ fs) = eventsOf es ++ eventsOf fs := by
  induction es with
  | nil => rfl
  | cons x rest ih => cases x <;> simp [eventsOf, ih]

@[simp] theorem lastRegs_append (es fs : List Effect) (r : Regs) :
    lastRegs (es ++ fs) r = lastRegs fs (lastRegs es r) := by
  induction es generalizing r with
  | nil => rfl
  | cons x rest ih => cases x <;> simp [lastRegs, ih]

@[simp] theorem eventsOf_emits (es : List Event) : eventsOf (es.map .emit) = es := by
  induction es with
  | nil => rfl
  | cons e rest ih => simp [eventsOf, ih]

@[simp] theorem lastRegs_emits (es : List Event) (r : Regs) : lastRegs (es.map .emit) r = r := by
  induction es with
  | nil => rfl
  | cons e rest ih => simp [lastRegs, ih]

theorem State.evqHasRoom_iff (s : State) : s.evqHasRoom = true ↔ s.evq.length < s.params.evtDepth :=
  decide_eq_true_iff

/-- Carrying out effects leaves parameters, received bytes, script and taken records alone. -/
theorem State.carryOut_frame (es : List Effect) (s : State) :
    (State.carryOut es s).params = s.params ∧ (State.carryOut es s).rx = s.rx ∧
    (State.carryOut es s).script = s.script ∧ (State.carryOut es s).taken = s.taken := by
  induction es generalizing s with
  | nil => simp [State.carryOut]
  | cons x rest ih =>
    cases x with
    | write r => simpa [State.carryOut] using ih (s.setRegs r)
    | emit e =>
      simp only [State.carryOut]
      split
      · simpa using ih (s.pushEvent e)
      · simp

@[simp] theorem State.carryOut_params (es : List Effect) (s : State) : (State.carryOut es s).params = s.params :=
  (State.carryOut_frame es s).1

@[simp] theorem State.carryOut_rx (es : List Effect) (s : State) : (State.carryOut es s).rx = s.rx :=
  (State.carryOut_frame es s).2.1

@[simp] theorem State.carryOut_script (es : List Effect) (s : State) : (State.carryOut es s).script = s.script :=
  (State.carryOut_frame es s).2.2.1

@[simp] theorem State.carryOut_taken (es : List Effect) (s : State) : (State.carryOut es s).taken = s.taken :=
  (State.carryOut_frame es s).2.2.2

/-- With room for every record, all effects happen and nothing is held. -/
theorem State.carryOut_room (es : List Effect) (s : State) (h : s.room (eventsOf es).length) :
    State.carryOut es s =
      { s with regs := lastRegs es s.regs, evq := s.evq ++ eventsOf es, held := [] } := by
  induction es generalizing s with
  | nil => simp [State.carryOut, State.hold, lastRegs, eventsOf]
  | cons x rest ih =>
    cases x with
    | write r =>
      simp only [State.carryOut, eventsOf, lastRegs] at h ⊢
      rw [ih _ (by simpa [State.room] using h)]
      rfl
    | emit e =>
      simp only [State.carryOut, eventsOf, lastRegs, State.room, List.length_cons] at h ⊢
      have hroom : s.evqHasRoom = true := by simp [State.evqHasRoom]; omega
      rw [if_pos hroom, ih _ (by simp [State.room]; omega)]
      simp [State.pushEvent]

/-- Effects without a record happen whether or not EVQ has room. -/
theorem State.carryOut_silent (es : List Effect) (s : State) (h : eventsOf es = []) :
    State.carryOut es s = { s with regs := lastRegs es s.regs, held := [] } := by
  induction es generalizing s with
  | nil => rfl
  | cons x rest ih =>
    cases x with
    | write r => exact ih (s.setRegs r) h
    | emit e => simp [eventsOf] at h

/-- Effects split into those done and those held: no record and no register write is lost or reordered (70_reset
R311). -/
theorem State.carryOut_split (es : List Effect) (s : State) :
    ∃ done, es = done ++ (State.carryOut es s).held ∧ (State.carryOut es s).regs = lastRegs done s.regs ∧
      (State.carryOut es s).evq = s.evq ++ eventsOf done ∧
      ((State.carryOut es s).held = [] ∨ ∃ e rest, (State.carryOut es s).held = .emit e :: rest ∧
        s.params.evtDepth ≤ (State.carryOut es s).evq.length) := by
  induction es generalizing s with
  | nil => exact ⟨[], by simp [State.carryOut, lastRegs, eventsOf]⟩
  | cons x rest ih =>
    cases x with
    | write r =>
      obtain ⟨done, h1, h2, h3, h4⟩ := ih (s.setRegs r)
      refine ⟨.write r :: done, ?_, ?_, ?_, ?_⟩
      · simpa [State.carryOut] using h1
      · simpa [State.carryOut, lastRegs] using h2
      · simpa [State.carryOut, eventsOf] using h3
      · simpa [State.carryOut] using h4
    | emit e =>
      simp only [State.carryOut]
      split
      · obtain ⟨done, h1, h2, h3, h4⟩ := ih (s.pushEvent e)
        refine ⟨.emit e :: done, ?_, ?_, ?_, ?_⟩
        · simpa using h1
        · simpa [lastRegs] using h2
        · simpa [eventsOf] using h3
        · simpa using h4
      · rename_i hroom
        refine ⟨[], by simp, by simp [lastRegs], by simp [eventsOf], Or.inr ⟨e, rest, by simp, ?_⟩⟩
        simpa [State.evqHasRoom] using hroom

/-- The queue never grows past its capacity while effects are carried out (10_state R31). -/
theorem State.carryOut_within (es : List Effect) (s : State) (h : s.evq.length ≤ s.params.evtDepth) :
    (State.carryOut es s).evq.length ≤ s.params.evtDepth := by
  induction es generalizing s with
  | nil => simpa [State.carryOut] using h
  | cons x rest ih =>
    cases x with
    | write r => simpa [State.carryOut] using ih (s.setRegs r) (by simpa using h)
    | emit e =>
      simp only [State.carryOut]
      split
      · rename_i hroom
        have : s.evq.length < s.params.evtDepth := by simpa [State.evqHasRoom] using hroom
        simpa using ih (s.pushEvent e) (by simp; omega)
      · simpa using h

/-- Performing effects with room, no command in progress. -/
theorem perform_room (es : List Effect) (s : State) (hs : s.held = []) (h : s.room (eventsOf es).length) :
    perform es s = .next { s with regs := lastRegs es s.regs, evq := s.evq ++ eventsOf es } := by
  unfold perform
  rw [hs, List.nil_append, State.carryOut_room es s h]

/-- Performing effects without a record, no command in progress. -/
theorem perform_silent (es : List Effect) (s : State) (hs : s.held = []) (h : eventsOf es = []) :
    perform es s = .next { s with regs := lastRegs es s.regs } := by
  unfold perform
  rw [hs, List.nil_append, State.carryOut_silent es s h]

/-- A command always gives a next state. -/
theorem perform_next (es : List Effect) (s : State) : perform es s = .next (State.carryOut (s.held ++ es) s) := rfl

end Sys2Proof.Machine
end

