-- ==== Sys2Proof/Laws/Sync.lean ====
section
/-! SUPPORT. The sync check and the AU loop: what a success means, and how many records an AU gives. -/

namespace Sys2Proof.Machine

theorem auCount_mem (f : Format) : auCount f ∈ [2, 3, 4, 6] := by
  unfold auCount
  split <;> decide

@[simp] theorem length_packedOffsets (w : Memory) : (packedOffsets w).length = 5 := rfl

/-- N starts and the sentinel (43_sync_and_au R190). -/
theorem length_auTable (w : Memory) (k : Nat) :
    (auTable w k).length = auCount (fmt (Memory.read w 2)) + 1 := by
  have h := auCount_mem (fmt (Memory.read w 2))
  simp only [List.mem_cons, List.not_mem_nil, or_false] at h
  simp only [auTable, List.length_cons, List.length_append, List.length_take, length_packedOffsets,
    List.length_nil]
  omega

/-- The last entry is the sentinel. -/
theorem auTable_last (w : Memory) (k : Nat) :
    (auTable w k).getD (auCount (fmt (Memory.read w 2))) 0 = k * 110 := by
  have hl := length_auTable w k
  have : (auTable w k).getLast? = some (k * 110) := by
    rw [auTable, ← List.cons_append, List.getLast?_append]
    rfl
  rw [List.getLast?_eq_getElem?, hl] at this
  rw [List.getD_eq_getElem?_getD]
  simpa using congrArg (·.getD 0) this

theorem increasing_iff (t : List Nat) : increasing t = true ↔ t.Pairwise (· < ·) := by
  rw [← List.isChain_iff_pairwise]
  induction t with
  | nil => simp [increasing]
  | cons x rest ih =>
    cases rest with
    | nil => simp [increasing]
    | cons y rest => simp [increasing, ih, List.isChain_cons_cons]

/-- A success passed all three tests, and answers the table of the header (43_sync_and_au R190). -/
theorem syncCheck_ok {p : Params} {w : Memory} {k nAu : Nat} {table : List Nat}
    (h : syncCheck p w k = .ok nAu table) :
    zeroGuard w = false ∧ fireMatches p w = true ∧ increasing table = true ∧
      nAu = auCount (fmt (Memory.read w 2)) ∧ table = auTable w k := by
  unfold syncCheck at h
  split at h
  · cases h
  split at h
  · cases h
  split at h
  · cases h
  · cases h
    simp_all

/-- The table of a success. -/
theorem syncCheck_ok_table {p : Params} {w : Memory} {k nAu : Nat} {table : List Nat}
    (h : syncCheck p w k = .ok nAu table) :
    nAu ∈ [2, 3, 4, 6] ∧ table.length = nAu + 1 ∧ table.Pairwise (· < ·) ∧ table.getD nAu 0 = k * 110 ∧
      ∀ x ∈ table, x ≤ k * 110 := by
  obtain ⟨-, -, hinc, rfl, rfl⟩ := syncCheck_ok h
  have hp := (increasing_iff _).mp hinc
  refine ⟨auCount_mem _, length_auTable w k, hp, auTable_last w k, fun x hx => ?_⟩
  rw [auTable, ← List.cons_append] at hp hx
  rcases List.mem_append.mp hx with hx | hx
  · exact Nat.le_of_lt ((List.pairwise_append.mp hp).2.2 x hx _ (by simp))
  · simp at hx
    omega

/-- Every AU gives two records (43_sync_and_au R206). -/
@[simp] theorem length_auEvents (p : Params) (w : Memory) (i s e : Nat) : (auEvents p w i s e).length = 2 := by
  unfold auEvents
  split
  · rfl
  · split <;> rfl

@[simp] theorem length_auLoop (p : Params) (r : Regs) : (auLoop p r).length = 2 * r.n.toNat := by
  unfold auLoop
  generalize r.n.toNat = n
  induction n with
  | zero => rfl
  | succ n ih => rw [List.range_succ, List.flatMap_append, List.length_append, ih]; simp; omega

/-- The loop reads WORK, N and AU_START, and no other register. -/
theorem auLoop_congr (p : Params) {r r' : Regs} (hw : r'.work = r.work) (hn : r'.n = r.n)
    (ha : r'.auStart = r.auStart) : auLoop p r' = auLoop p r := by
  simp only [auLoop, Regs.auStartAt, hw, hn, ha]

end Sys2Proof.Machine
end

