-- ==== Sys2Proof/Laws/Feed.lean ====
section
/-! SUPPORT. FEED: the lengths the gate admits, the fields of the registers after each of its steps, that each step
keeps good registers good, and the records and the final registers of its effects. -/

namespace Sys2Proof.Machine

/-! ## Lengths -/

theorem firstFrameOk_iff (p : Params) (n : Nat) : firstFrameOk p n = true ↔ legalLen n = true ∧ n ≤ p.lMax := by
  unfold firstFrameOk legalLen
  rw [Bool.and_eq_true, Bool.and_eq_true, Bool.and_eq_true, decide_eq_true_iff, decide_eq_true_iff,
    decide_eq_true_iff, beq_iff_eq, beq_iff_eq]
  unfold lMin framesPerSf
  omega

theorem legalLen_iff (n : Nat) : legalLen n = true ↔ 24 ≤ n ∧ n % 24 = 0 := by simp [legalLen]

/-- The codewords fill the window: 120·K = 5·L (41_reed_solomon R137). -/
theorem codewords_fill {n : Nat} (h : legalLen n = true) : 120 * codewords n = 5 * n ∧ codewords n * 24 = n := by
  rw [legalLen_iff] at h
  simp only [codewords, framesPerSf]
  omega

theorem Params.legal_iff (p : Params) :
    p.legal = true ↔ p.lMax % 24 = 0 ∧ 24 ≤ p.lMax ∧ p.lMax ≤ 14280 ∧ 1 ≤ p.evtDepth := by
  simp [Params.legal, and_assoc]

/-- What the gate lets pass: a frame of L bytes, or a first frame of an admitted length (42_superframe R161, R162). -/
theorem feedGate_none {p : Params} {r : Regs} {n : Nat} :
    feedGate p r n = none ↔
      (r.latched = true ∧ n = r.len) ∨ (r.latched = false ∧ legalLen n = true ∧ n ≤ p.lMax) := by
  rw [← firstFrameOk_iff]
  unfold feedGate
  cases r.latched <;> simp

theorem feedGate_isSome {p : Params} {r : Regs} {n : Nat} :
    (feedGate p r n).isSome = true ↔ ¬ feedGate p r n = none := by
  cases feedGate p r n <;> simp

/-! ## Step 1: the latch -/

theorem Regs.latch_eq (n : Nat) (r : Regs) :
    r.latch n = { r with latched := true, l := if r.latched then r.l else BitVec.ofNat 16 n } := by
  unfold Regs.latch
  cases hl : r.latched
  · simp
  · cases r
    simp_all

/-- After the latch of an accepted frame, L is its length, and one the gate admits. -/
theorem Regs.latch_len {p : Params} {r : Regs} {n : Nat} (hp : p.legal = true) (hr : r.geometryOk p)
    (hg : feedGate p r n = none) :
    (r.latch n).len = n ∧ legalLen n = true ∧ n ≤ p.lMax := by
  rw [Params.legal_iff] at hp
  rcases feedGate_none.mp hg with ⟨hl, hn⟩ | ⟨hl, hlegal, hmax⟩
  · obtain ⟨h1, h2⟩ := hr.2.1 hl
    refine ⟨?_, by rw [hn]; exact h1, by omega⟩
    simp [Regs.latch_eq, Regs.len, hl]
    exact hn.symm
  · refine ⟨?_, hlegal, hmax⟩
    simp only [Regs.latch_eq, Regs.len, hl, Bool.false_eq_true, if_false, BitVec.toNat_ofNat]
    omega

/-! ## Step 2: accumulation -/

theorem Regs.windowOpen_iff (r : Regs) : r.windowOpen = true ↔ r.c.toNat < 5 :=
  decide_eq_true_iff

/-- C after an accepted frame: one more, at most 5 (42_superframe R163). -/
theorem accumulate_c (frame : List Byte) {r : Regs} (h : r.c.toNat ≤ 5) :
    (accumulate frame r).c.toNat = min (r.c.toNat + 1) 5 := by
  unfold accumulate
  split
  · rename_i ho
    rw [Regs.windowOpen_iff] at ho
    simp only [BitVec.toNat_add, BitVec.toNat_ofNat]
    omega
  · rename_i ho
    rw [Regs.windowOpen_iff] at ho
    simp only
    omega

/-- Accumulation changes RAW and C only. -/
theorem accumulate_eq (frame : List Byte) (r : Regs) :
    accumulate frame r = { r with raw := (accumulate frame r).raw, c := (accumulate frame r).c } := by
  unfold accumulate
  split <;> rfl

theorem accumulate_raw_open (frame : List Byte) {r : Regs} (h : r.c.toNat < 5) :
    (accumulate frame r).raw = Memory.writeBlock r.raw (r.c.toNat * r.len) frame := by
  unfold accumulate
  rw [if_pos ((Regs.windowOpen_iff r).mpr h)]

theorem accumulate_raw_full (frame : List Byte) {r : Regs} (h : ¬ r.c.toNat < 5) :
    (accumulate frame r).raw =
      Memory.writeBlock (Memory.writeBlock r.raw 0 (Memory.readBlock r.raw r.len (4 * r.len))) (4 * r.len) frame := by
  unfold accumulate
  rw [if_neg (by rwa [Regs.windowOpen_iff])]

theorem accumulate_raw_wf (frame : List Byte) {r : Regs} (h : Memory.wf r.raw) :
    Memory.wf (accumulate frame r).raw := by
  by_cases hc : r.c.toNat < 5
  · rw [accumulate_raw_open frame hc]
    exact Memory.writeBlock_wf h _ _
  · rw [accumulate_raw_full frame hc]
    exact Memory.writeBlock_wf (Memory.writeBlock_wf h _ _) _ _

theorem accumulate_raw_below {frame : List Byte} {r : Regs} {n : Nat} (h : Memory.within r.raw n)
    (hf : frame.length = r.len) (hn : 5 * r.len ≤ n) : Memory.within (accumulate frame r).raw n := by
  by_cases hc : r.c.toNat < 5
  · rw [accumulate_raw_open frame hc]
    refine Memory.writeBlock_below h _ ?_
    have : r.c.toNat * r.len + r.len ≤ 5 * r.len := by
      rw [← Nat.succ_mul]
      exact Nat.mul_le_mul_right _ hc
    omega
  · rw [accumulate_raw_full frame hc]
    refine Memory.writeBlock_below (Memory.writeBlock_below h _ ?_) _ ?_
    · rw [Memory.length_readBlock]; omega
    · omega

/-! ## Fields after steps 1 and 2 -/

theorem acceptFrame_eq (frame : List Byte) (r : Regs) :
    acceptFrame frame r = { r.latch frame.length with
      raw := (acceptFrame frame r).raw, c := (acceptFrame frame r).c } := accumulate_eq _ _

@[simp] theorem acceptFrame_latched (frame : List Byte) (r : Regs) : (acceptFrame frame r).latched = true := by
  rw [acceptFrame_eq]; simp
@[simp] theorem acceptFrame_l (frame : List Byte) (r : Regs) :
    (acceptFrame frame r).l = (r.latch frame.length).l := by rw [acceptFrame_eq]
@[simp] theorem acceptFrame_len (frame : List Byte) (r : Regs) :
    (acceptFrame frame r).len = (r.latch frame.length).len := by simp [Regs.len]
@[simp] theorem acceptFrame_k (frame : List Byte) (r : Regs) :
    (acceptFrame frame r).k = codewords (r.latch frame.length).len := by simp [Regs.k]
@[simp] theorem acceptFrame_work (frame : List Byte) (r : Regs) : (acceptFrame frame r).work = r.work := by
  rw [acceptFrame_eq]; simp
@[simp] theorem acceptFrame_syncFrames (frame : List Byte) (r : Regs) :
    (acceptFrame frame r).syncFrames = r.syncFrames := by rw [acceptFrame_eq]; simp
@[simp] theorem acceptFrame_fmtSet (frame : List Byte) (r : Regs) : (acceptFrame frame r).fmtSet = r.fmtSet := by
  rw [acceptFrame_eq]; simp
@[simp] theorem acceptFrame_fmtRaw (frame : List Byte) (r : Regs) : (acceptFrame frame r).fmtRaw = r.fmtRaw := by
  rw [acceptFrame_eq]; simp
@[simp] theorem acceptFrame_rsCorr (frame : List Byte) (r : Regs) : (acceptFrame frame r).rsCorr = r.rsCorr := by
  rw [acceptFrame_eq]; simp
@[simp] theorem acceptFrame_rsUncorr (frame : List Byte) (r : Regs) :
    (acceptFrame frame r).rsUncorr = r.rsUncorr := by rw [acceptFrame_eq]; simp
@[simp] theorem acceptFrame_lastSync (frame : List Byte) (r : Regs) :
    (acceptFrame frame r).lastSync = r.lastSync := by rw [acceptFrame_eq]; simp
@[simp] theorem acceptFrame_n (frame : List Byte) (r : Regs) : (acceptFrame frame r).n = r.n := by
  rw [acceptFrame_eq]; simp
@[simp] theorem acceptFrame_auStart (frame : List Byte) (r : Regs) :
    (acceptFrame frame r).auStart = r.auStart := by rw [acceptFrame_eq]; simp

theorem acceptFrame_c (frame : List Byte) {r : Regs} (h : r.c.toNat ≤ 5) :
    (acceptFrame frame r).c.toNat = min (r.c.toNat + 1) 5 := by
  have := accumulate_c frame (r := r.latch frame.length) (by simpa using h)
  simpa [acceptFrame] using this

/-! ## Step 4: the copy and the pass -/

/-- The copy and the pass change WORK, RS_CORR and RS_UNCORR only. -/
theorem evaluateWindow_eq (p : Params) (r : Regs) :
    evaluateWindow p r = { r with
      work := (evaluateWindow p r).work
      rsCorr := (evaluateWindow p r).rsCorr
      rsUncorr := (evaluateWindow p r).rsUncorr } := rfl

@[simp] theorem evaluateWindow_latched (p : Params) (r : Regs) : (evaluateWindow p r).latched = r.latched := rfl
@[simp] theorem evaluateWindow_l (p : Params) (r : Regs) : (evaluateWindow p r).l = r.l := rfl
@[simp] theorem evaluateWindow_len (p : Params) (r : Regs) : (evaluateWindow p r).len = r.len := rfl
@[simp] theorem evaluateWindow_k (p : Params) (r : Regs) : (evaluateWindow p r).k = r.k := rfl
@[simp] theorem evaluateWindow_c (p : Params) (r : Regs) : (evaluateWindow p r).c = r.c := rfl
@[simp] theorem evaluateWindow_raw (p : Params) (r : Regs) : (evaluateWindow p r).raw = r.raw := rfl
@[simp] theorem evaluateWindow_syncFrames (p : Params) (r : Regs) :
    (evaluateWindow p r).syncFrames = r.syncFrames := rfl
@[simp] theorem evaluateWindow_fmtSet (p : Params) (r : Regs) : (evaluateWindow p r).fmtSet = r.fmtSet := rfl
@[simp] theorem evaluateWindow_fmtRaw (p : Params) (r : Regs) : (evaluateWindow p r).fmtRaw = r.fmtRaw := rfl
@[simp] theorem evaluateWindow_lastSync (p : Params) (r : Regs) :
    (evaluateWindow p r).lastSync = r.lastSync := rfl
@[simp] theorem evaluateWindow_n (p : Params) (r : Regs) : (evaluateWindow p r).n = r.n := rfl
@[simp] theorem evaluateWindow_auStart (p : Params) (r : Regs) :
    (evaluateWindow p r).auStart = r.auStart := rfl

/-- WORK after the copy depends on WORK only outside the window, so not at all on good registers. -/
theorem copyWindow_work_eq {r : Regs} {raw' work' : Memory} (hw : Memory.wf r.work) (hw' : Memory.wf work')
    (hb : Memory.within r.work (framesPerSf * r.len)) (hb' : Memory.within work' (framesPerSf * r.len))
    (hraw : ∀ a, a < framesPerSf * r.len → Memory.read raw' a = Memory.read r.raw a) :
    (copyWindow { r with raw := raw', work := work' }).work = (copyWindow r).work := by
  have hblock : Memory.readBlock raw' 0 (framesPerSf * r.len) = Memory.readBlock r.raw 0 (framesPerSf * r.len) := by
    unfold Memory.readBlock
    apply List.map_congr_left
    intro j hj
    rw [Nat.zero_add]
    exact hraw j (List.mem_range.mp hj)
  show Memory.writeBlock work' 0 (Memory.readBlock raw' 0 (framesPerSf * r.len)) =
    Memory.writeBlock r.work 0 (Memory.readBlock r.raw 0 (framesPerSf * r.len))
  rw [hblock]
  refine Memory.ext_of_read (Memory.writeBlock_wf hw' _ _) (Memory.writeBlock_wf hw _ _) fun i => ?_
  rw [Memory.read_writeBlock hw', Memory.read_writeBlock hw]
  split
  · rfl
  · rename_i hi
    rw [Memory.length_readBlock] at hi
    rw [Memory.read_of_not_listed, Memory.read_of_not_listed]
    · intro cell hc
      have := hb cell hc
      omega
    · intro cell hc
      have := hb' cell hc
      omega

/-! ## Effects -/

/-- SYNC_FRAMES saturates (42_superframe R168). -/
theorem satInc_eq (x : Word32) : satInc x = BitVec.ofNat 32 (min (x.toNat + 1) 0xFFFFFFFF) := by
  have hx := x.isLt
  unfold satInc
  split
  · rename_i h
    subst h
    rfl
  · rename_i h
    have h' : x.toNat ≠ 4294967295 := fun h' => h (BitVec.eq_of_toNat_eq h')
    rw [Nat.min_eq_left (by omega)]
    apply BitVec.eq_of_toNat_eq
    rw [BitVec.toNat_add, BitVec.toNat_ofNat, BitVec.toNat_ofNat]

/-- The records of a failed window's step 5. -/
@[simp] theorem eventsOf_failEffects (why : SyncReason) (r : Regs) :
    eventsOf (failEffects why r) = if r.syncFrames = 0#32 then [evSyncStart] else [] := by
  by_cases h : r.syncFrames = 0#32 <;> simp [failEffects, Regs.outOfSync, h, eventsOf]

@[simp] theorem lastRegs_failEffects (why : SyncReason) (r r0 : Regs) :
    lastRegs (failEffects why r) r0 = (r.setLastSync why.code).countFailure := by
  by_cases h : r.syncFrames = 0#32 <;> simp [failEffects, Regs.outOfSync, h, lastRegs]

@[simp] theorem eventsOf_recoveryEffects (r : Regs) :
    eventsOf (recoveryEffects r) = if r.syncFrames = 0#32 then [] else [evSyncOk r.syncFrames, evPadResetSync] := by
  by_cases h : r.syncFrames = 0#32 <;> simp [recoveryEffects, Regs.outOfSync, h, eventsOf]

@[simp] theorem eventsOf_formatEffects (r : Regs) :
    eventsOf (formatEffects r) = if r.formatChanged then [evFormat (Memory.read r.work 2)] else [] := by
  by_cases h : r.formatChanged = true <;> simp [formatEffects, h, eventsOf]

/-- The records of steps 5 to 8 of a window that passes. -/
theorem eventsOf_okEffects (p : Params) (nAu : Nat) (table : List Nat) (r : Regs) :
    eventsOf (okEffects p nAu table r) =
      (if r.syncFrames = 0#32 then [] else [evSyncOk r.syncFrames, evPadResetSync]) ++
      (if r.formatChanged then [evFormat (Memory.read r.work 2)] else []) ++
      auLoop p (r.setAuTable nAu table).clearSync := by
  have hf : ((r.setAuTable nAu table).clearSync).formatChanged = r.formatChanged := rfl
  simp only [okEffects, eventsOf, eventsOf_append, eventsOf_recoveryEffects, eventsOf_formatEffects, eventsOf_emits,
    hf, Regs.setAuTable_syncFrames, List.append_nil, List.append_assoc]
  rfl

theorem lastRegs_okEffects (p : Params) (nAu : Nat) (table : List Nat) (r r0 : Regs) :
    lastRegs (okEffects p nAu table r) r0 = (afterFormat (r.setAuTable nAu table).clearSync).closeWindow := by
  simp [okEffects, lastRegs]

/-- The format registers after step 6: set, and equal to WORK[2] (42_superframe R172). -/
theorem afterFormat_eq (r : Regs) :
    afterFormat r = { r with fmtSet := true, fmtRaw := Memory.read r.work 2 } := by
  unfold afterFormat
  split
  · rfl
  · rename_i h
    simp only [Regs.formatChanged, Bool.or_eq_true, Bool.not_eq_true', bne_iff_ne, ne_eq, not_or, not_not,
      Bool.not_eq_false] at h
    rw [h.2]
    cases r
    simp_all

/-- What a frame does: nothing but EV_FRAME_REJECT when the gate rejects it; else it is accepted, and a window that it
completes is evaluated. -/
theorem feedEffects_none {p : Params} {frame : List Byte} {r : Regs} (h : feedGate p r frame.length = none) :
    feedEffects p frame r =
      if (acceptFrame frame r).windowOpen then [.write (acceptFrame frame r)]
      else .write (acceptFrame frame r) :: windowEffects p (acceptFrame frame r) := by
  simp only [feedEffects, h]

theorem feedEffects_some {p : Params} {frame : List Byte} {r : Regs} {why : FrameReject}
    (h : feedGate p r frame.length = some why) :
    feedEffects p frame r = [.emit (evFrameReject why frame.length)] := by
  simp only [feedEffects, h]

/-- With good registers FEED never stops. -/
theorem feedInBounds_of_ok {p : Params} {r : Regs} (hp : p.legal = true) (hr : r.geometryOk p) (frame : List Byte) :
    feedInBounds p frame r = true := by
  unfold feedInBounds
  by_cases h : feedGate p r frame.length = none
  · obtain ⟨h1, h2, -⟩ := Regs.latch_len hp hr h
    rw [h1, h2, Bool.or_true]
  · rw [feedGate_isSome.mpr h, Bool.true_or]

theorem execFeed_of_ok {s : State} (hp : s.params.legal = true) (hr : s.regs.geometryOk s.params)
    (frame : List Byte) : execFeed frame s = perform (feedEffects s.params frame s.regs) s := by
  unfold execFeed
  rw [if_pos (feedInBounds_of_ok hp hr frame)]

/-! ## FEED with room in EVQ -/

theorem eventsOf_windowEffects (p : Params) (r : Regs) :
    eventsOf (windowEffects p r) = rsStatusEvents (evaluateWindow p r) ++
      match syncCheck p (evaluateWindow p r).work r.k with
      | .fail _ => if r.syncFrames = 0#32 then [evSyncStart] else []
      | .ok nAu table => eventsOf (okEffects p nAu table (evaluateWindow p r)) := by
  simp only [windowEffects, eventsOf, eventsOf_append, eventsOf_emits, evaluateWindow_k]
  cases syncCheck p (evaluateWindow p r).work r.k with
  | fail why =>
    simp only [eventsOf_failEffects]
    rfl
  | ok nAu table => rfl

theorem lastRegs_windowEffects (p : Params) (r r0 : Regs) :
    lastRegs (windowEffects p r) r0 =
      match syncCheck p (evaluateWindow p r).work r.k with
      | .fail why => ((evaluateWindow p r).setLastSync why.code).countFailure
      | .ok nAu table => (afterFormat ((evaluateWindow p r).setAuTable nAu table).clearSync).closeWindow := by
  simp only [windowEffects, lastRegs, lastRegs_append, lastRegs_emits, evaluateWindow_k]
  cases syncCheck p (evaluateWindow p r).work r.k with
  | fail why => simp only [lastRegs_failEffects]
  | ok nAu table => simp only [lastRegs_okEffects]

/-- N of a stored table. -/
theorem setAuTable_n_toNat {p : Params} {w : Memory} {k nAu : Nat} {table : List Nat}
    (h : syncCheck p w k = .ok nAu table) (r : Regs) : (r.setAuTable nAu table).n.toNat = nAu := by
  have hmem := (syncCheck_ok_table h).1
  simp only [List.mem_cons, List.not_mem_nil, or_false] at hmem
  rcases hmem with rfl | rfl | rfl | rfl <;> rfl

/-- How many records steps 5 to 8 of a passing window emit. -/
theorem length_eventsOf_okEffects {p : Params} {w : Memory} {k nAu : Nat} {table : List Nat}
    (h : syncCheck p w k = .ok nAu table) (r : Regs) :
    2 * nAu ≤ (eventsOf (okEffects p nAu table r)).length ∧
      (eventsOf (okEffects p nAu table r)).length ≤ 2 * nAu + 3 := by
  have hn : (r.setAuTable nAu table).clearSync.n.toNat = nAu := setAuTable_n_toNat h r
  rw [eventsOf_okEffects]
  simp only [List.length_append, length_auLoop, hn]
  split <;> split <;> simp <;> omega

/-- One FEED emits at most sixteen records. -/
theorem length_eventsOf_feedEffects (p : Params) (frame : List Byte) (r : Regs) :
    (eventsOf (feedEffects p frame r)).length ≤ 16 := by
  cases hg : feedGate p r frame.length with
  | some why => rw [feedEffects_some hg]; simp [eventsOf]
  | none =>
    rw [feedEffects_none hg]
    split
    · simp [eventsOf]
    · rw [eventsOf, eventsOf_windowEffects, List.length_append]
      have := length_rsStatusEvents (evaluateWindow p (acceptFrame frame r))
      split
      · split <;> simp <;> omega
      · rename_i h
        have h1 := length_eventsOf_okEffects h (evaluateWindow p (acceptFrame frame r))
        have h2 := (syncCheck_ok_table h).1
        simp only [List.mem_cons, List.not_mem_nil, or_false] at h2
        omega

/-- FEED with room for its records: what it leaves in the registers and in EVQ. -/
theorem execFeed_room {s : State} (hp : s.params.legal = true) (hr : s.regs.geometryOk s.params)
    (hh : s.held = []) (hroom : s.room 16) (frame : List Byte) :
    execFeed frame s = .next { s with
      regs := lastRegs (feedEffects s.params frame s.regs) s.regs
      evq := s.evq ++ eventsOf (feedEffects s.params frame s.regs) } := by
  rw [execFeed_of_ok hp hr]
  refine perform_room _ _ hh ?_
  have := length_eventsOf_feedEffects s.params frame s.regs
  simp only [State.room] at hroom ⊢
  omega

/-! ## What FEED leaves in L, RAW and WORK -/

theorem lastRegs_feedEffects_l {p : Params} {frame : List Byte} {r : Regs}
    (hg : feedGate p r frame.length = none) (r0 : Regs) :
    (lastRegs (feedEffects p frame r) r0).l = (r.latch frame.length).l := by
  rw [feedEffects_none hg]
  split
  · simp [lastRegs]
  · rw [lastRegs, lastRegs_windowEffects]
    split <;> simp [afterFormat_eq]

theorem lastRegs_feedEffects_raw {p : Params} {frame : List Byte} {r : Regs}
    (hg : feedGate p r frame.length = none) (r0 : Regs) :
    (lastRegs (feedEffects p frame r) r0).raw = (acceptFrame frame r).raw := by
  rw [feedEffects_none hg]
  split
  · simp [lastRegs]
  · rw [lastRegs, lastRegs_windowEffects]
    split <;> simp [afterFormat_eq]

theorem lastRegs_feedEffects_work {p : Params} {frame : List Byte} {r : Regs}
    (hg : feedGate p r frame.length = none) (r0 : Regs) :
    (lastRegs (feedEffects p frame r) r0).work =
      if (acceptFrame frame r).windowOpen then r.work else (evaluateWindow p (acceptFrame frame r)).work := by
  rw [feedEffects_none hg]
  split
  · simp [lastRegs]
  · rw [lastRegs, lastRegs_windowEffects]
    split <;> simp [afterFormat_eq]

/-- No register write of an evaluated window touches LATCHED, L or RAW. -/
theorem windowEffects_geometry (p : Params) (r : Regs) :
    ∀ x ∈ windowEffects p r, ∀ r', x = .write r' → r'.latched = r.latched ∧ r'.l = r.l ∧ r'.raw = r.raw := by
  intro x hx r' hx'
  subst hx'
  simp only [windowEffects, List.mem_cons, List.mem_append, List.mem_map, Effect.write.injEq, reduceCtorEq, and_false,
    exists_false, false_or] at hx
  rcases hx with rfl | hx
  · simp
  split at hx
  · simp only [failEffects, List.mem_cons, List.mem_append, Effect.write.injEq, List.not_mem_nil, or_false] at hx
    rcases hx with rfl | hx | rfl
    · simp
    · split at hx <;> simp at hx
    · simp
  · simp only [okEffects, recoveryEffects, formatEffects, List.mem_cons, List.mem_append, List.mem_map,
      Effect.write.injEq, reduceCtorEq, and_false, exists_false, List.not_mem_nil, or_false] at hx
    rcases hx with rfl | (hx | hx) | rfl
    · simp
    · split at hx <;> simp at hx
      simp [hx]
    · split at hx <;> simp at hx
      simp [hx]
    · simp [afterFormat_eq]

end Sys2Proof.Machine
end

