-- ==== Sys2Proof/Laws/Invariant.lean ====
section
/-! SUPPORT. Each part of FEED, and the carrying out of effects, keeps good registers and good states good. -/

namespace Sys2Proof.Machine

/-- With L = 0 there is no AU table: N = 0. -/
theorem Regs.auTableOk_unlatched {r : Regs} (h : r.auTableOk = true) (hl : r.l = 0#16) : r.n = 0#3 := by
  by_contra hn
  simp only [Regs.auTableOk, if_neg hn, Bool.and_eq_true, beq_iff_eq] at h
  obtain ⟨⟨⟨hmem, hinc⟩, hlast⟩, -⟩ := h
  rw [increasing_iff] at hinc
  have hn2 : 2 ≤ r.n.toNat ∧ r.n.toNat ≤ 6 := by
    simp only [List.contains_iff_mem, List.mem_cons, List.not_mem_nil, or_false] at hmem
    omega
  have hz : r.auStartAt r.n.toNat = 0 := by rw [hlast, Regs.len, hl]; rfl
  have hlen : (r.auStart.toList.map BitVec.toNat).length = 7 := by simp
  have h0 := List.pairwise_iff_getElem.mp hinc 0 r.n.toNat (by simp) (by simp; omega) (by omega)
  simp only [List.getElem_take, List.getElem_map] at h0
  have h1 : r.auStartAt r.n.toNat = (r.auStart.toList[r.n.toNat]'(by simp; omega)).toNat := by
    simp only [Regs.auStartAt]
    rw [List.getD_eq_getElem _ _ (by simp; omega)]
  omega

/-- Steps 1 and 2 keep good registers good. -/
theorem acceptFrame_ok {p : Params} {r : Regs} {frame : List Byte} (hp : p.legal = true) (hr : r.Ok p)
    (hg : feedGate p r frame.length = none) : (acceptFrame frame r).Ok p := by
  obtain ⟨hgeo, ⟨hraw, hwork, hrawb, hworkb⟩, htab, hfmt, hcorr, hsync⟩ := hr
  obtain ⟨hlen, hlegal, hmax⟩ := Regs.latch_len hp hgeo hg
  have hgrow : r.len ≤ frame.length := by
    rcases feedGate_none.mp hg with ⟨_, hn⟩ | ⟨hl, _, _⟩
    · omega
    · rw [Regs.len, (hgeo.1 hl).1]; simp
  refine ⟨⟨?_, ?_, ?_⟩, ⟨?_, ?_, ?_, ?_⟩, ?_, ?_, ?_, ?_⟩
  · simp
  · intro _
    rw [acceptFrame_len, hlen]
    exact ⟨hlegal, hmax⟩
  · rw [acceptFrame_c frame hgeo.2.2]
    simp [framesPerSf]
  · exact accumulate_raw_wf frame (by simpa using hraw)
  · simpa using hwork
  · rw [acceptFrame_len, hlen]
    refine accumulate_raw_below ?_ hlen.symm (by simp [framesPerSf, hlen])
    rw [Regs.latch_raw]
    intro cell hc
    exact Nat.lt_of_lt_of_le (hrawb cell hc) (Nat.mul_le_mul_left _ hgrow)
  · rw [acceptFrame_len, hlen, acceptFrame_work]
    intro cell hc
    exact Nat.lt_of_lt_of_le (hworkb cell hc) (Nat.mul_le_mul_left _ hgrow)
  · rcases feedGate_none.mp hg with ⟨hl, hn⟩ | ⟨hl, _, _⟩
    · have he : (acceptFrame frame r).len = r.len := by rw [acceptFrame_len, hlen, hn]
      simpa only [Regs.auTableOk, Regs.auStartAt, acceptFrame_n, acceptFrame_auStart, he] using htab
    · have hn := Regs.auTableOk_unlatched htab (hgeo.1 hl).1
      simpa only [Regs.auTableOk, acceptFrame_n, acceptFrame_auStart, hn, if_true] using htab
  · simpa using hfmt
  · rcases feedGate_none.mp hg with ⟨hl, hn⟩ | ⟨hl, _, _⟩
    · rw [acceptFrame_rsCorr, acceptFrame_k, hlen, hn]
      exact hcorr
    · rw [acceptFrame_rsCorr]
      refine Nat.le_trans hcorr ?_
      rw [Regs.k, Regs.len, (hgeo.1 hl).1]
      simp [codewords]
  · simpa using hsync

/-- Step 4 keeps good registers good. -/
theorem evaluateWindow_ok {p : Params} {r : Regs} (hr : r.Ok p) (hl : r.latched = true) :
    (evaluateWindow p r).Ok p := by
  obtain ⟨hgeo, ⟨hraw, hwork, hrawb, hworkb⟩, htab, hfmt, -, hsync⟩ := hr
  obtain ⟨hlegal, hmax⟩ := hgeo.2.1 hl
  obtain ⟨hfill, hk⟩ := codewords_fill hlegal
  have hcw : Memory.wf (copyWindow r).work := Memory.writeBlock_wf hwork _ _
  have hcb : Memory.within (copyWindow r).work (framesPerSf * r.len) :=
    Memory.writeBlock_below hworkb _ (by rw [Memory.length_readBlock]; omega)
  obtain ⟨h1, h2, h3⟩ := passWords_ok p (k := r.k) hcw hcb (by simp only [Regs.k, framesPerSf]; omega) r.k
    (Nat.le_refl _)
  refine ⟨hgeo, ⟨hraw, h1, hrawb, h2⟩, htab, hfmt, ?_, hsync⟩
  rw [evaluateWindow_k]
  refine Nat.le_trans (Nat.mod_le _ _) h3

/-- The table a successful check stores is a good one (10_state R30). -/
theorem setAuTable_tableOk {p : Params} {w : Memory} {r : Regs} {nAu : Nat} {table : List Nat}
    (hk : r.k ≤ 13653) (h : syncCheck p w r.k = .ok nAu table) : (r.setAuTable nAu table).auTableOk = true := by
  obtain ⟨hmem, hlen, hpair, hlast, hle⟩ := syncCheck_ok_table h
  have hnat : ∀ j, j ≤ nAu → (auEntry nAu table j).toNat = table.getD j 0 := by
    intro j hj
    have hj' : j < table.length := by omega
    have := hle _ (List.getElem_mem hj')
    simp only [auEntry, if_pos hj, BitVec.toNat_ofNat, List.getD_eq_getElem _ _ hj']
    omega
  have hzero : ∀ j, nAu < j → (auEntry nAu table j).toNat = 0 := by
    intro j hj
    simp [auEntry, Nat.not_le.mpr hj]
  have hn : (BitVec.ofNat 3 nAu).toNat = nAu ∧ BitVec.ofNat 3 nAu ≠ 0#3 := by
    simp only [List.mem_cons, List.not_mem_nil, or_false] at hmem
    rcases hmem with rfl | rfl | rfl | rfl <;> decide
  have hlast' : table.getD nAu 0 = sentinel r.len := by simpa [sentinel, Regs.k] using hlast
  simp only [Regs.auTableOk, Regs.setAuTable, if_neg hn.2, hn.1, Regs.auStartAt, Vector.toList_mk, Bool.and_eq_true,
    beq_iff_eq, increasing_iff]
  change (([2, 3, 4, 6].contains nAu = true ∧ _) ∧ _ = sentinel r.len) ∧ _
  rw [← hlast']
  simp only [List.mem_cons, List.not_mem_nil, or_false] at hmem
  rcases hmem with rfl | rfl | rfl | rfl
  · match table, hlen, hpair with
    | [a, b, c], _, hpair =>
      simp only [List.map_cons, List.map_nil, hnat 0 (by omega), hnat 1 (by omega), hnat 2 (by omega), hzero 3 (by omega), hzero 4 (by omega), hzero 5 (by omega), hzero 6 (by omega)]
      have hend := hnat 2 (Nat.le_refl _)
      simp at hpair hend ⊢
      exact ⟨hpair, hend⟩
  · match table, hlen, hpair with
    | [a, b, c, d], _, hpair =>
      simp only [List.map_cons, List.map_nil, hnat 0 (by omega), hnat 1 (by omega), hnat 2 (by omega), hnat 3 (by omega), hzero 4 (by omega), hzero 5 (by omega), hzero 6 (by omega)]
      have hend := hnat 3 (Nat.le_refl _)
      simp at hpair hend ⊢
      exact ⟨hpair, hend⟩
  · match table, hlen, hpair with
    | [a, b, c, d, e], _, hpair =>
      simp only [List.map_cons, List.map_nil, hnat 0 (by omega), hnat 1 (by omega), hnat 2 (by omega), hnat 3 (by omega), hnat 4 (by omega), hzero 5 (by omega), hzero 6 (by omega)]
      have hend := hnat 4 (Nat.le_refl _)
      simp at hpair hend ⊢
      exact ⟨hpair, hend⟩
  · match table, hlen, hpair with
    | [a, b, c, d, e, f, g], _, hpair =>
      simp only [List.map_cons, List.map_nil, hnat 0 (by omega), hnat 1 (by omega), hnat 2 (by omega), hnat 3 (by omega), hnat 4 (by omega), hnat 5 (by omega), hnat 6 (by omega)]
      have hend := hnat 6 (Nat.le_refl _)
      simp at hpair hend ⊢
      exact ⟨hpair, hend⟩

/-- A stored table keeps good registers good. -/
theorem setAuTable_ok {p : Params} {w : Memory} {r : Regs} {nAu : Nat} {table : List Nat} (hr : r.Ok p)
    (h : syncCheck p w r.k = .ok nAu table) : (r.setAuTable nAu table).Ok p := by
  refine ⟨hr.1, hr.2.1, setAuTable_tableOk ?_ h, hr.2.2.2.1, hr.2.2.2.2.1, by rw [Regs.setAuTable_lastSync]; decide⟩
  have := r.l.isLt
  simp only [Regs.k, Regs.len, codewords, framesPerSf]
  omega

theorem clearSync_ok {p : Params} {r : Regs} (hr : r.Ok p) : r.clearSync.Ok p := hr

theorem setFormat_ok {p : Params} {r : Regs} (hr : r.Ok p) : r.setFormat.Ok p :=
  ⟨hr.1, hr.2.1, hr.2.2.1, fun h => absurd h (by simp), hr.2.2.2.2⟩

theorem afterFormat_ok {p : Params} {r : Regs} (hr : r.Ok p) : (afterFormat r).Ok p := by
  unfold afterFormat
  split
  · exact setFormat_ok hr
  · exact hr

theorem closeWindow_ok {p : Params} {r : Regs} (hr : r.Ok p) : r.closeWindow.Ok p :=
  ⟨⟨fun h => ⟨(hr.1.1 h).1, rfl⟩, hr.1.2.1, by simp⟩, hr.2⟩

theorem setLastSync_ok {p : Params} {r : Regs} (hr : r.Ok p) (why : SyncReason) : (r.setLastSync why.code).Ok p :=
  ⟨hr.1, hr.2.1, hr.2.2.1, hr.2.2.2.1, hr.2.2.2.2.1, by
    rw [Regs.setLastSync_lastSync]; cases why <;> decide⟩

theorem countFailure_ok {p : Params} {r : Regs} (hr : r.Ok p) : r.countFailure.Ok p := hr

theorem satInc_ne_zero (x : Word32) : satInc x ≠ 0#32 := by
  unfold satInc
  split
  · rename_i h
    rw [h]
    decide
  · rename_i h
    intro h0
    apply h
    have : x = 0#32 - 1#32 := by rw [← h0]; simp
    rw [this]
    decide

/-- The registers after either reset. -/
theorem resetRegs_settled (p : Params) : Regs.reset.Settled p := by
  refine ⟨⟨⟨by decide, fun h => absurd h (by decide), by decide⟩,
    ⟨by decide, by decide, by decide, by decide⟩, by decide, by decide, by decide, by decide⟩, by decide⟩

/-! ## Effects that write good registers -/

theorem writesOk_nil (p : Params) : writesOk p [] := fun _ h => by simp at h

theorem writesOk_write {p : Params} {r : Regs} {es : List Effect} (hr : r.Ok p) (h : writesOk p es) :
    writesOk p (.write r :: es) := by
  intro x hx r' hx'
  rcases List.mem_cons.mp hx with rfl | hx
  · cases hx'
    exact hr
  · exact h x hx r' hx'

theorem writesOk_emit {p : Params} {e : Event} {es : List Effect} (h : writesOk p es) :
    writesOk p (.emit e :: es) := by
  intro x hx r' hx'
  rcases List.mem_cons.mp hx with rfl | hx
  · cases hx'
  · exact h x hx r' hx'

theorem writesOk_append {p : Params} {es fs : List Effect} (h : writesOk p es) (h' : writesOk p fs) :
    writesOk p (es ++ fs) := by
  intro x hx
  rcases List.mem_append.mp hx with hx | hx
  · exact h x hx
  · exact h' x hx

theorem writesOk_emits (p : Params) (es : List Event) : writesOk p (es.map .emit) := by
  intro x hx r hr
  obtain ⟨e, -, rfl⟩ := List.mem_map.mp hx
  cases hr

theorem failEffects_ok {p : Params} {r : Regs} (hr : r.Ok p) (why : SyncReason) :
    writesOk p (failEffects why r) := by
  have h := setLastSync_ok hr why
  refine writesOk_write h (writesOk_append ?_ (writesOk_write (countFailure_ok h) (writesOk_nil p)))
  split
  · exact writesOk_nil p
  · exact writesOk_emit (writesOk_nil p)

theorem okEffects_ok {p : Params} {w : Memory} {r : Regs} {nAu : Nat} {table : List Nat} (hr : r.Ok p)
    (h : syncCheck p w r.k = .ok nAu table) : writesOk p (okEffects p nAu table r) := by
  have ht := setAuTable_ok hr h
  have hc := clearSync_ok ht
  refine writesOk_write ht (writesOk_append (writesOk_append (writesOk_append ?_ ?_) (writesOk_emits p _)) ?_)
  · unfold recoveryEffects
    split
    · exact writesOk_emit (writesOk_write hc (writesOk_emit (writesOk_nil p)))
    · exact writesOk_nil p
  · unfold formatEffects
    split
    · exact writesOk_write (setFormat_ok hc) (writesOk_emit (writesOk_nil p))
    · exact writesOk_nil p
  · exact writesOk_write (closeWindow_ok (afterFormat_ok hc)) (writesOk_nil p)

/-- Every register write of an evaluated window is good. -/
theorem windowEffects_ok {p : Params} {r : Regs} (hr : r.Ok p) (hl : r.latched = true) :
    writesOk p (windowEffects p r) := by
  have he := evaluateWindow_ok hr hl
  refine writesOk_write he (writesOk_append (writesOk_emits p _) ?_)
  split
  · exact failEffects_ok he _
  · rename_i h
    exact okEffects_ok he h

/-- An evaluated window ends out of sync, or with C = 0 (10_state R22). -/
theorem windowEffects_settles (p : Params) (r r0 : Regs) :
    (lastRegs (windowEffects p r) r0).c = 5#3 → (lastRegs (windowEffects p r) r0).syncFrames ≠ 0#32 := by
  simp only [windowEffects, lastRegs, lastRegs_append, lastRegs_emits]
  split
  · intro _
    rw [lastRegs_failEffects]
    exact satInc_ne_zero _
  · rw [lastRegs_okEffects]
    intro h
    simp at h

/-- FEED writes good registers only. -/
theorem feedEffects_ok {p : Params} {r : Regs} {frame : List Byte} (hp : p.legal = true) (hr : r.Ok p) :
    writesOk p (feedEffects p frame r) := by
  cases hg : feedGate p r frame.length with
  | some why =>
    rw [feedEffects_some hg]
    exact writesOk_emit (writesOk_nil p)
  | none =>
    have ha := acceptFrame_ok hp hr hg
    rw [feedEffects_none hg]
    split
    · exact writesOk_write ha (writesOk_nil p)
    · exact writesOk_write ha (windowEffects_ok ha (by simp))

/-- The registers at the end of effects that write good ones. -/
theorem lastRegs_ok {p : Params} {es : List Effect} {r : Regs} (hr : r.Ok p) (h : writesOk p es) :
    (lastRegs es r).Ok p := by
  induction es generalizing r with
  | nil => exact hr
  | cons x rest ih =>
    have hrest : writesOk p rest := fun y hy => h y (List.mem_cons_of_mem _ hy)
    cases x with
    | write r' => exact ih (h _ List.mem_cons_self r' rfl) hrest
    | emit e => exact ih hr hrest

/-- FEED leaves settled registers settled. -/
theorem feedEffects_settled {p : Params} {r : Regs} {frame : List Byte} (hp : p.legal = true) (hr : r.Settled p) :
    (lastRegs (feedEffects p frame r) r).Settled p := by
  refine ⟨lastRegs_ok hr.1 (feedEffects_ok hp hr.1), ?_⟩
  cases hg : feedGate p r frame.length with
  | some why =>
    rw [feedEffects_some hg]
    exact hr.2
  | none =>
    rw [feedEffects_none hg]
    split
    · rename_i ho
      rw [Regs.windowOpen_iff] at ho
      intro h
      simp only [lastRegs] at h
      rw [h] at ho
      simp at ho
    · exact windowEffects_settles p (acceptFrame frame r) (acceptFrame frame r)

/-! ## Carrying out effects -/

/-- The command in progress, carried on, ends in the same registers. -/
theorem State.carryOut_settledRegs (es : List Effect) (s : State) :
    (State.carryOut es s).settledRegs = lastRegs es s.regs := by
  obtain ⟨done, h1, h2, -, -⟩ := State.carryOut_split es s
  rw [State.settledRegs, h2, ← lastRegs_append, ← h1]

/-- Registers at the end of effects that keep LATCHED and L. -/
theorem lastRegs_keepsLength {es : List Effect} {r : Regs} (h : keepsLength r es) :
    (lastRegs es r).latched = r.latched ∧ (lastRegs es r).l = r.l := by
  suffices ∀ r0 : Regs, r0.latched = r.latched ∧ r0.l = r.l →
      (lastRegs es r0).latched = r.latched ∧ (lastRegs es r0).l = r.l from this r ⟨rfl, rfl⟩
  induction es with
  | nil => exact fun r0 h0 => h0
  | cons x rest ih =>
    intro r0 h0
    have hrest : keepsLength r rest := fun y hy => h y (List.mem_cons_of_mem _ hy)
    cases x with
    | write r' => exact ih hrest r' (h _ List.mem_cons_self r' rfl)
    | emit e => exact ih hrest r0 h0

/-- Steps 4 to 8 of FEED keep LATCHED and L. -/
theorem windowEffects_keepsLength (p : Params) (r : Regs) : keepsLength r (windowEffects p r) :=
  fun x hx r' hx' => ⟨(windowEffects_geometry p r x hx r' hx').1, (windowEffects_geometry p r x hx r' hx').2.1⟩

/-- Carrying out effects that write good registers, keep L and emit records that fit, gives a good state. -/
theorem State.carryOut_inv {es : List Effect} {s : State} (hp : s.params.legal = true)
    (hq : s.evq.length ≤ s.params.evtDepth) (hr : s.regs.Ok s.params) (hes : writesOk s.params es)
    (hk : keepsLength s.regs es) (he : ∀ e ∈ s.evq ++ eventsOf es, e.fits)
    (hs : (lastRegs es s.regs).Settled s.params) : (State.carryOut es s).Inv := by
  obtain ⟨done, h1, h2, h3, h4⟩ := State.carryOut_split es s
  have hd : ∀ x ∈ done, x ∈ es := fun x hx => h1 ▸ List.mem_append_left _ hx
  have hh : ∀ x ∈ (State.carryOut es s).held, x ∈ es := fun x hx => h1 ▸ List.mem_append_right _ hx
  have hkd := lastRegs_keepsLength (r := s.regs) (es := done) fun x hx => hk x (hd x hx)
  refine ⟨?_, ?_, ?_, ⟨?_, ?_, ?_⟩, ?_, ?_⟩
  · simpa using hp
  · simpa using State.carryOut_within es s hq
  · rw [h2, State.carryOut_params]
    exact lastRegs_ok hr fun x hx => hes x (hd x hx)
  · rw [State.carryOut_params]
    exact fun x hx => hes x (hh x hx)
  · rw [h2]
    intro x hx r' hx'
    rw [hkd.1, hkd.2]
    exact hk x (hh x hx) r' hx'
  · rcases h4 with h4 | ⟨e, rest, h4, -⟩ <;> rw [h4] <;> simp
  · rw [h3, List.append_assoc, ← eventsOf_append, ← h1]
    exact he
  · rw [State.carryOut_settledRegs, State.carryOut_params]
    exact hs

/-! ## Records that fit (30_encoding R90) -/

theorem evRsResult_fits (p : Params) {word : List Byte} (h : word.length = 120) :
    (evRsResult word (rsDecode p word)).fits := by
  cases hd : rsDecode p word with
  | corrected count w =>
    have := rsDecode_length p h hd
    simp only [Event.fits, evRsResult, List.length_cons]
    omega
  | uncorrectable =>
    simp only [Event.fits, evRsResult, List.length_cons]
    omega

theorem evStatus_fits (r : Regs) : (evStatus (statusWords r)).fits := by
  simp [Event.fits, evStatus, statusWords, be32Bytes]

/-- The records of an AU that ends at or below 65535 fit. -/
theorem auEvents_fit (p : Params) (w : Memory) (i s : Nat) {e : Nat} (h : e ≤ 65535) :
    ∀ ev ∈ auEvents p w i s e, ev.fits := by
  have herr : ∀ stored computed, ∀ ev ∈ auErrorEvents i stored computed, ev.fits := by
    intro stored computed ev hev
    simp only [auErrorEvents, List.mem_cons, List.not_mem_nil, or_false] at hev
    rcases hev with rfl | rfl
    · simp [Event.fits, evAuCrcErr, be16Bytes]
    · simp [Event.fits, evPadResetCrc, zeroFPad, fpadLen]
  unfold auEvents
  split
  · exact herr _ _
  split
  · exact herr _ _
  · intro ev hev
    simp only [List.mem_cons, List.not_mem_nil, or_false] at hev
    rcases hev with rfl | rfl
    · unfold padLocate
      split
      · have h1 := (byteAt (auPayload w s e) 1).isLt
        have h2 := (byteAt (auPayload w s e) 2).isLt
        simp only [Event.fits, evPad, padRegion, padLen, List.length_take]
        split <;> omega
      · simp [Event.fits, evPadResetNone, zeroFPad, fpadLen]
    · simp only [Event.fits, evAu, auPayload, Memory.length_readBlock]
      omega

/-- The sentinel of good registers is below 65536 (00_scope R9, L_MAX). -/
theorem sentinel_le {p : Params} {r : Regs} (hp : p.legal = true) (hr : r.geometryOk p) : r.k * 110 ≤ 65535 := by
  rw [Params.legal_iff] at hp
  have hl : r.len ≤ 14280 := by
    cases h : r.latched with
    | true => exact Nat.le_trans (hr.2.1 h).2 hp.2.2.1
    | false =>
      rw [Regs.len, (hr.1 h).1]
      simp
  simp only [Regs.k, codewords, framesPerSf]
  omega

theorem auStartAt_setAuTable_le {w : Memory} {p : Params} {k nAu : Nat} {table : List Nat}
    (h : syncCheck p w k = .ok nAu table) (r : Regs) {j : Nat} :
    (r.setAuTable nAu table).clearSync.auStartAt j ≤ k * 110 := by
  obtain ⟨-, hlen, -, -, hle⟩ := syncCheck_ok_table h
  have hentry : ∀ j, (auEntry nAu table j).toNat ≤ k * 110 := by
    intro j
    unfold auEntry
    split
    · rename_i hj
      have hj' : j < table.length := by omega
      rw [BitVec.toNat_ofNat, List.getD_eq_getElem _ _ hj']
      exact Nat.le_trans (Nat.mod_le _ _) (hle _ (List.getElem_mem hj'))
    · simp
  unfold Regs.auStartAt
  rw [Regs.clearSync_auStart, Regs.setAuTable_auStart]
  match j with
  | 0 => exact hentry 0
  | 1 => exact hentry 1
  | 2 => exact hentry 2
  | 3 => exact hentry 3
  | 4 => exact hentry 4
  | 5 => exact hentry 5
  | 6 => exact hentry 6
  | _ + 7 => exact Nat.zero_le _

/-- Every record of FEED fits its ELEN. -/
theorem feedEffects_fit {p : Params} {r : Regs} {frame : List Byte} (hp : p.legal = true) (hr : r.Ok p) :
    ∀ e ∈ eventsOf (feedEffects p frame r), e.fits := by
  cases hg : feedGate p r frame.length with
  | some why =>
    rw [feedEffects_some hg]
    simp [eventsOf, Event.fits, evFrameReject, be16Nat, be16Bytes]
  | none =>
    have ha := acceptFrame_ok hp hr hg
    rw [feedEffects_none hg]
    split
    · simp [eventsOf]
    · rw [eventsOf, eventsOf_windowEffects]
      intro e he
      rcases List.mem_append.mp he with he | he
      · unfold rsStatusEvents at he
        split at he
        · simp only [List.mem_cons, List.not_mem_nil, or_false] at he
          subst he
          simp [Event.fits, evRsStatus, be16Bytes]
        · simp at he
      · split at he
        · split at he
          · simp only [List.mem_cons, List.not_mem_nil, or_false] at he
            subst he
            simp [Event.fits, evSyncStart]
          · simp at he
        · rename_i nAu table hs
          rw [eventsOf_okEffects] at he
          rcases List.mem_append.mp he with he | he
          · rcases List.mem_append.mp he with he | he
            · split at he
              · simp at he
              · simp only [List.mem_cons, List.not_mem_nil, or_false] at he
                rcases he with rfl | rfl
                · simp [Event.fits, evSyncOk, be32Bytes]
                · simp [Event.fits, evPadResetSync, zeroFPad, fpadLen]
            · split at he
              · simp only [List.mem_cons, List.not_mem_nil, or_false] at he
                subst he
                simp [Event.fits, evFormat]
              · simp at he
          · unfold auLoop at he
            obtain ⟨i, -, hi⟩ := List.mem_flatMap.mp he
            exact auEvents_fit _ _ _ _
              (Nat.le_trans (auStartAt_setAuTable_le hs _) (sentinel_le hp ha.1)) e hi

end Sys2Proof.Machine
end

