-- ==== Sys2Proof/Laws/PerInstr.lean ====
section
/-! SUPPORT. Statements made per instruction: how each command begins in the stream (30_encoding R70, R72, R73). -/

namespace Sys2Proof.Laws.EncodedHeader

/-- The encoding is OPC of the table, RSV 00, BE16 of the payload's length, and the payload; four bytes longer than
it. -/
def Statement (i : Instr) : Prop :=
  encode i = i.opcode :: 0x00#8 :: (be16Nat i.payload.length ++ i.payload) ∧
  (encode i).length = 4 + i.payload.length ∧ legalOpcode i.opcode = true

theorem feed (frame : List Byte) : Statement (.feed frame) :=
  ⟨rfl, by simp [encode, Instr.command, Command.bytes, be16Nat, be16Bytes]; omega, rfl⟩

theorem fireCrc (message : List Byte) : Statement (.fireCrc message) :=
  ⟨rfl, by simp [encode, Instr.command, Command.bytes, be16Nat, be16Bytes]; omega, rfl⟩

theorem ccittCrc (message : List Byte) : Statement (.ccittCrc message) :=
  ⟨rfl, by simp [encode, Instr.command, Command.bytes, be16Nat, be16Bytes]; omega, rfl⟩

theorem rsDecode (word : List Byte) : Statement (.rsDecode word) :=
  ⟨rfl, by simp [encode, Instr.command, Command.bytes, be16Nat, be16Bytes]; omega, rfl⟩

theorem readStatus : Statement .readStatus := ⟨rfl, rfl, rfl⟩

theorem softReset : Statement .softReset := ⟨rfl, rfl, rfl⟩

end Sys2Proof.Laws.EncodedHeader
end

