-- ==== Sys2Proof/Laws/Step.lean ====
section
/-! SUPPORT. One turn of the machine: whose it is, and what a command of each kind performs. -/

namespace Sys2Proof.Machine

/-- Every command but FEED and SOFT_RESET emits one record and does nothing else. -/
theorem exec_emits {i : Instr} (hf : ∀ frame, i ≠ .feed frame) (hr : i ≠ .softReset) (s : State) :
    ∃ e, exec i s = perform [.emit e] s := by
  cases i with
  | feed frame => exact absurd rfl (hf frame)
  | fireCrc message => exact ⟨_, rfl⟩
  | ccittCrc message => exact ⟨_, rfl⟩
  | rsDecode word =>
    show ∃ e, execRsDecode word s = _
    unfold execRsDecode
    split
    · exact ⟨_, rfl⟩
    · exact ⟨_, rfl⟩
  | readStatus => exact ⟨_, rfl⟩
  | softReset => exact absurd rfl hr

/-- A command performs effects, or is a FEED that finds its indices out of bounds (log 8). -/
theorem exec_performs (i : Instr) (s : State) :
    (∃ es, exec i s = perform es s) ∨ exec i s = .fault .bufferBounds := by
  by_cases hf : ∃ frame, i = .feed frame
  · obtain ⟨frame, rfl⟩ := hf
    show (∃ es, execFeed frame s = _) ∨ execFeed frame s = _
    unfold execFeed
    split
    · exact .inl ⟨_, rfl⟩
    · exact .inr rfl
  · by_cases hr : i = .softReset
    · subst hr
      exact .inl ⟨_, rfl⟩
    · obtain ⟨e, he⟩ := exec_emits (fun frame h => hf ⟨frame, h⟩) hr s
      exact .inl ⟨_, he⟩

/-- On CORE's turn the script loses that turn, if it names it (log 6). -/
theorem step_core {s : State} (h : s.coreIsNext) : step s = coreTurn (s.setScript s.script.tail) := by
  unfold step turn
  split
  · rename_i h0
    rw [h0]
    congr 1
    cases s
    simp_all [State.setScript]
  · rename_i h0
    rw [h0]
    rfl
  · rename_i a rest h0
    exact absurd (by rw [h0]; rfl) (h a)

/-- On the host's turn its action happens. -/
theorem step_host {s : State} {a : HostAct} {rest : List Turn} (h : s.script = .host a :: rest) :
    step s = .next (hostTurn a (s.setScript rest)) := by
  unfold step turn
  rw [h]

/-- It is CORE's turn or the host's. -/
theorem State.turn_cases (s : State) : s.coreIsNext ∨ ∃ a rest, s.script = .host a :: rest := by
  cases h : s.script with
  | nil => exact .inl fun a ha => by simp [h] at ha
  | cons head rest =>
    cases head with
    | core => exact .inl fun a ha => by simp [h] at ha
    | host a => exact .inr ⟨a, rest, rfl⟩

/-- What CORE's turn does: carry on a held command, wait, execute, or raise a CmdError (45_control R250). -/
theorem coreTurn_cases (s : State) :
    (s.held ≠ [] ∧ coreTurn s = .next (State.carryOut s.held s)) ∨
    (s.held = [] ∧ splitCommand s.rx = none ∧ coreTurn s = .next s) ∨
    (∃ c rest i, s.held = [] ∧ splitCommand s.rx = some (c, rest) ∧ decode c = .instr i ∧
      coreTurn s = exec i (s.setRx rest)) ∨
    (∃ c rest why, s.held = [] ∧ splitCommand s.rx = some (c, rest) ∧ decode c = .rejected why ∧
      coreTurn s = raiseCmdError why c.opc c.rsv (s.setRx rest)) := by
  unfold coreTurn
  split
  · rename_i h
    exact .inl ⟨by rw [h]; simp, rfl⟩
  · rename_i h
    split
    · rename_i hs
      exact .inr (.inl ⟨h, hs, rfl⟩)
    · rename_i c rest hs
      split
      · rename_i i hi
        exact .inr (.inr (.inl ⟨c, rest, i, h, hs, hi, rfl⟩))
      · rename_i why hw
        exact .inr (.inr (.inr ⟨c, rest, why, h, hs, hw, rfl⟩))

end Sys2Proof.Machine
end

