-- ==== Sys2Proof/Machine/Asm.lean ====
section
/-! DEFINITION. The assembler of 30_encoding R96 and R97: one command a line, the raw form `.cmd`, the
pseudo-instruction FEEDSF, and the disassembler. Text is a list of characters (log 14). -/

namespace Sys2Proof.Machine

/-- A line of assembly (R96, R97). -/
inductive AsmLine where
  /-- `MNEMONIC [hexbytes]`: RSV is 00, LEN computed. -/
  | command (i : Instr)
  /-- `.cmd OPC RSV [hexbytes]`: exactly those header bytes, LEN computed. -/
  | raw (opc rsv : Byte) (payload : List Byte)
  /-- `FEEDSF L, s0 ... s(5L−1)`. -/
  | feedSf (l : Nat) (bytes : List Byte)
deriving DecidableEq, Repr

/-- FEEDSF: five FEEDs of L bytes in order (R97). -/
def expandFeedSf (l : Nat) (bytes : List Byte) : List Instr :=
  [0, 1, 2, 3, 4].map fun slot => .feed ((bytes.drop (slot * l)).take l)

/-- The bytes of a line; none when LEN does not fit, or the payload is not the form's (R96, R97). -/
def assemble : AsmLine → Option (List Byte)
  | .command i => if i.wellFormed then some (encode i) else none
  | .raw opc rsv payload => if payload.length ≤ 65535 then some (Command.bytes ⟨opc, rsv, payload⟩) else none
  | .feedSf l bytes =>
    if bytes.length = 5 * l ∧ l ≤ 65535 then some ((expandFeedSf l bytes).flatMap encode) else none

/-- The disassembler: the same forms, `.cmd` for any header that R75 rejects (R96). -/
def disassemble (c : Command) : AsmLine :=
  match decode c with
  | .instr i => .command i
  | .rejected _ => .raw c.opc c.rsv c.payload

/-! ## Text -/

/-- The mnemonic of an instruction (R72). -/
def mnemonicOf : Instr → List Char
  | .feed _ => ['F', 'E', 'E', 'D']
  | .fireCrc _ => ['F', 'I', 'R', 'E', '_', 'C', 'R', 'C']
  | .ccittCrc _ => ['C', 'C', 'I', 'T', 'T', '_', 'C', 'R', 'C']
  | .rsDecode _ => ['R', 'S', '_', 'D', 'E', 'C', 'O', 'D', 'E']
  | .readStatus => ['R', 'E', 'A', 'D', '_', 'S', 'T', 'A', 'T', 'U', 'S']
  | .softReset => ['S', 'O', 'F', 'T', '_', 'R', 'E', 'S', 'E', 'T']

/-- A hexadecimal digit, capitals. -/
def hexDigit (n : Nat) : Char := if n < 10 then Char.ofNat (48 + n) else Char.ofNat (55 + n)

/-- A byte as two hexadecimal digits (R96). -/
def hexByte (b : Byte) : List Char := [hexDigit (b.toNat / 16), hexDigit (b.toNat % 16)]

/-- Bytes, each after a space (R96). -/
def hexBytes (bytes : List Byte) : List Char := bytes.flatMap fun b => ' ' :: hexByte b

/-- A line as text (R96, R97). L is printed in decimal (log 14). -/
def printLine : AsmLine → List Char
  | .command i => mnemonicOf i ++ hexBytes i.payload
  | .raw opc rsv payload => ['.', 'c', 'm', 'd'] ++ hexBytes (opc :: rsv :: payload)
  | .feedSf l bytes => ['F', 'E', 'E', 'D', 'S', 'F', ' '] ++ Nat.toDigits 10 l ++ [','] ++ hexBytes bytes

/-- The value of a hexadecimal digit, capital or small (log 14). -/
def digitValue (ch : Char) : Option Nat :=
  let n := ch.toNat
  if 48 ≤ n ∧ n ≤ 57 then some (n - 48)
  else if 65 ≤ n ∧ n ≤ 70 then some (n - 55)
  else if 97 ≤ n ∧ n ≤ 102 then some (n - 87)
  else none

/-- The line up to its comment (R96). -/
def dropComment (line : List Char) : List Char := line.takeWhile (· != ';')

/-- The words of a text, separated by spaces, tabs or commas; `word` is the word begun, reversed. -/
def wordsFrom : List Char → List Char → List (List Char)
  | [], word => if word.isEmpty then [] else [word.reverse]
  | ch :: rest, word =>
    if ch = ' ' ∨ ch = ',' ∨ ch = '\t' then
      if word.isEmpty then wordsFrom rest [] else word.reverse :: wordsFrom rest []
    else wordsFrom rest (ch :: word)

/-- Two-digit hexadecimal bytes (R96). -/
def readBytes : List (List Char) → Option (List Byte)
  | [] => some []
  | [hi, lo] :: rest => do
    let h ← digitValue hi
    let l ← digitValue lo
    let more ← readBytes rest
    return BitVec.ofNat 8 (16 * h + l) :: more
  | _ :: _ => none

/-- A decimal number (log 14). -/
def readDecimal (word : List Char) : Option Nat :=
  word.foldl (fun acc ch => do
    let n ← acc
    let d ← digitValue ch
    if d < 10 then some (10 * n + d) else none) (some 0)

/-- The instruction of a mnemonic and a payload; READ_STATUS and SOFT_RESET have none (R96). -/
def commandOf (word : List Char) (payload : List Byte) : Option Instr :=
  [.feed payload, .fireCrc payload, .ccittCrc payload, .rsDecode payload, .readStatus, .softReset].find?
    fun i => mnemonicOf i == word && i.payload == payload

/-- One line of text; none when it is blank or of no form (R96, R97). -/
def parseLine (line : List Char) : Option AsmLine :=
  match wordsFrom (dropComment line) [] with
  | [] => none
  | ['.', 'c', 'm', 'd'] :: rest => do
    match ← readBytes rest with
    | opc :: rsv :: payload => return .raw opc rsv payload
    | _ => none
  | ['F', 'E', 'E', 'D', 'S', 'F'] :: l :: rest => return .feedSf (← readDecimal l) (← readBytes rest)
  | word :: rest => do
    let payload ← readBytes rest
    let i ← commandOf word payload
    return .command i

end Sys2Proof.Machine
end

