-- ==== Sys2Proof/Tests/Slice0.lean ====
section
/-! SUPPORT. Tests of the model against 95_test_vectors and hand-written encodings, and for each obligation with
hypotheses a concrete state and operands that meet them together. -/

namespace Sys2Proof.Tests

open Sys2Proof Sys2Proof.Machine

-- The kernel evaluates these one after another, so that their memory does not add up.
set_option Elab.async false

/-! ## WellFormed refuses ill-formed terms -/

theorem test_wellFormed_feed_too_long : (Instr.feed (List.replicate 65536 0x00#8)).wellFormed = false := by
  rw [Instr.wellFormed, List.length_replicate]; decide

theorem test_wellFormed_fireCrc_too_long : (Instr.fireCrc (List.replicate 65536 0x00#8)).wellFormed = false := by
  rw [Instr.wellFormed, List.length_replicate]; decide

theorem test_wellFormed_ccittCrc_too_long : (Instr.ccittCrc (List.replicate 65536 0x00#8)).wellFormed = false := by
  rw [Instr.wellFormed, List.length_replicate]; decide

theorem test_wellFormed_rsDecode_119 : (Instr.rsDecode (List.replicate 119 0x00#8)).wellFormed = false := by decide

theorem test_wellFormed_rsDecode_121 : (Instr.rsDecode (List.replicate 121 0x00#8)).wellFormed = false := by decide

/-! ## Decoding: words written out from 30_encoding R70, R72 and 95_test_vectors 2.1 -/

/-- The decoder's answer for the first command of a stream, with the bytes after it. -/
def decodeFirst (bytes : List Byte) : Option (Decoded × List Byte) :=
  (splitCommand bytes).map fun q => (decode q.1, q.2)

/-- OPC 01, RSV 00, LEN 0002, payload AB CD; the next command's byte 05 is left. -/
theorem test_decode_feed :
    decodeFirst [0x01, 0x00, 0x00, 0x02, 0xAB, 0xCD, 0x05] = some (.instr (.feed [0xAB, 0xCD]), [0x05]) := by decide

theorem test_decode_fireCrc :
    decodeFirst [0x02, 0x00, 0x00, 0x09, 0x20, 0x03, 0xC0, 0x80, 0x04, 0xAA, 0xBB, 0x12, 0x34] =
      some (.instr (.fireCrc [0x20, 0x03, 0xC0, 0x80, 0x04, 0xAA, 0xBB, 0x12, 0x34]), []) := by decide

theorem test_decode_ccittCrc_empty : decodeFirst [0x03, 0x00, 0x00, 0x00] = some (.instr (.ccittCrc []), []) := by
  decide

theorem test_decode_rsDecode :
    decodeFirst ([0x04, 0x00, 0x00, 0x78] ++ List.replicate 120 0x01) =
      some (.instr (.rsDecode (List.replicate 120 0x01)), []) := by decide +kernel

theorem test_decode_readStatus : decodeFirst [0x05, 0x00, 0x00, 0x00] = some (.instr .readStatus, []) := by decide

theorem test_decode_softReset : decodeFirst [0x06, 0x00, 0x00, 0x00] = some (.instr .softReset, []) := by decide

/-- `.cmd FF 00 AB`: illegal opcode, its five bytes consumed. -/
theorem test_decode_illegal_consumes_payload :
    decodeFirst [0xFF, 0x00, 0x00, 0x01, 0xAB, 0x06] = some (.rejected .illegalOpcode, [0x06]) := by decide

/-- `.cmd 07 01`: the opcode is checked before RSV. -/
theorem test_decode_opcode_before_rsv :
    decodeFirst [0x07, 0x01, 0x00, 0x00] = some (.rejected .illegalOpcode, []) := by decide

/-- `.cmd 06 01 00`: RSV is checked before LEN. -/
theorem test_decode_rsv_before_len :
    decodeFirst [0x06, 0x01, 0x00, 0x01, 0x00] = some (.rejected .reservedNonzero, []) := by decide

/-- `.cmd 05 00 00`: BAD_LENGTH. -/
theorem test_decode_bad_length :
    decodeFirst [0x05, 0x00, 0x00, 0x01, 0x00] = some (.rejected .badLength, []) := by decide

/-- A header whose payload has not all arrived is no command yet. -/
theorem test_decode_partial : decodeFirst [0x01, 0x00, 0x00, 0x02, 0xAB] = none := by decide

/-! ## States -/

/-- The records a step from s leaves in EVQ, as byte strings. -/
def recordsAfter (o : Host.Outcome State Fault Refusal) : List (List Byte) :=
  match o with
  | .next t => t.evq.map Event.record
  | _ => []

/-- A predicate of the next state. -/
def holdsNext (o : Host.Outcome State Fault Refusal) (f : State → Bool) : Bool :=
  match o with
  | .next t => f t
  | _ => false

def zeros (n : Nat) : List Byte := List.replicate n 0x00#8

/-- Frames f0, f2 and f4 of the Superframe SF1 (95_test_vectors, Part 3); f1 and f3 are zero. -/
def sf0 : List Byte := [0x57, 0x25, 0x20, 0x03, 0xC0, 0x80, 0x04, 0xAA, 0xBB, 0x12, 0x34] ++ zeros 13

def sf2 : List Byte := zeros 10 ++ [0xC0, 0x8C, 0x21] ++ zeros 11

def sf4 : List Byte := zeros 12 ++ [0x55, 0x3F, 0xD1, 0x09, 0xC0, 0x4D, 0x46, 0x72, 0x1F, 0x3B, 0x1E, 0x7E]

/-- Registers with L = 24 and C frames of the given bytes in RAW. -/
def windowRegs (c : Nat) (bytes : List Byte) : Regs :=
  { Regs.reset with latched := true, l := 24#16, c := BitVec.ofNat 3 c, raw := Memory.writeBlock [] 0 bytes }

def withRegs (r : Regs) : State := { State.reset with regs := r }

/-- SF1 but for its last frame. -/
def sf1State : State := withRegs (windowRegs 4 (sf0 ++ zeros 24 ++ sf2))

/-- Four zero frames. -/
def zeroState : State := withRegs (windowRegs 4 [])

/-- A failed zero window: C = 5, one failure counted. -/
def slidState : State := withRegs { windowRegs 5 [] with syncFrames := 1#32, lastSync := 2#3 }

/-- The misaligned frame X of scenario 2, then f0, f1, f2 of SF1. -/
def misalignedState : State :=
  withRegs (windowRegs 4 ([0x00, 0x00, 0x20, 0x03, 0xC0, 0x80, 0x04, 0xAA, 0xBB, 0x12, 0x34, 0x00, 0xD8, 0xD9, 0xB6,
    0x04, 0x55, 0xB5, 0x81, 0x87, 0xB2, 0xF8, 0x00, 0x00] ++ sf0 ++ zeros 24 ++ sf2))

/-! ## One step of each command -/

/-- 95_test_vectors 2.2: the command form of FIRE_CRC. -/
theorem test_fireCrc :
    recordsAfter (exec (.fireCrc [0x20, 0x03, 0xC0, 0x80, 0x04, 0xAA, 0xBB, 0x12, 0x34]) State.reset) =
      [[0x30, 0x02, 0x00, 0x02, 0x57, 0x25]] := by decide +kernel

/-- 95_test_vectors 2.2: FIRE_CRC with LEN 0. -/
theorem test_fireCrc_empty :
    recordsAfter (exec (.fireCrc []) State.reset) = [[0x30, 0x02, 0x00, 0x02, 0x00, 0x00]] := by decide

/-- 40_crc R118: "123456789" gives D64E. -/
theorem test_ccittCrc :
    recordsAfter (exec (.ccittCrc [0x31, 0x32, 0x33, 0x34, 0x35, 0x36, 0x37, 0x38, 0x39]) State.reset) =
      [[0x30, 0x03, 0x00, 0x02, 0xD6, 0x4E]] := by decide +kernel

/-- 40_crc R118: a single zero byte gives 1E0F. -/
theorem test_ccittCrc_zero :
    recordsAfter (exec (.ccittCrc [0x00]) State.reset) = [[0x30, 0x03, 0x00, 0x02, 0x1E, 0x0F]] := by decide +kernel

set_option maxRecDepth 20000 in
/-- 95_test_vectors P6: one error at byte 7. -/
theorem test_rsDecode_one_error :
    recordsAfter (exec (.rsDecode (zeros 7 ++ [0x42] ++ zeros 112)) State.reset) =
      [[0x31, 0x00, 0x00, 0x79, 0x01] ++ zeros 120] := by decide +kernel

/-- 41_reed_solomon R133: word[0] = 01 has S_0..S_9 = 01 93 0B 44 45 D6 DD 99 DC 0A. -/
theorem test_syndromes :
    syndromes (0x01#8 :: zeros 119) = [0x01, 0x93, 0x0B, 0x44, 0x45, 0xD6, 0xDD, 0x99, 0xDC, 0x0A] := by
  decide +kernel

/-- 41_reed_solomon R130. -/
theorem test_gmul : gmul 0x80 0x02 = 0x1D#8 ∧ gmul 0x53 0xCA = 0x8F#8 ∧ alpha 254 = 0x8E#8 := by decide +kernel

/-- 45_control R252: READ_STATUS after reset emits 32 00 00 44 and 68 zero bytes. -/
theorem test_readStatus_reset :
    recordsAfter (exec .readStatus State.reset) = [[0x32, 0x00, 0x00, 0x44] ++ zeros 68] := by decide +kernel

/-- 45_control R253: SOFT_RESET clears L and LATCHED, keeps EVQ and emits nothing. -/
theorem test_softReset :
    holdsNext (exec .softReset { sf1State with evq := [evSyncStart] })
      (fun t => t.regs == Regs.reset && t.evq == [evSyncStart]) = true := by decide +kernel

/-- 95_test_vectors 1.3 B-1: a first frame of 10 bytes is rejected. -/
theorem test_feed_ten_bytes :
    holdsNext (exec (.feed (List.replicate 10 0x11)) State.reset)
      (fun t => t.evq.map Event.record == [[0x20, 0x02, 0x00, 0x02, 0x00, 0x0A]] && !t.regs.latched) = true := by
  decide +kernel

set_option maxRecDepth 20000 in
/-- 95_test_vectors P1: the fifth FEED of SF1: EV_FORMAT, EV_PAD, EV_AU, EV_PAD_RESET, EV_AU, and the end state. -/
theorem test_feed_sf1 :
    holdsNext (exec (.feed sf4) sf1State) (fun t =>
      t.evq.map Event.record ==
        [[0x10, 0x00, 0x00, 0x01, 0x20],
          [0x11, 0x00, 0x00, 0x04, 0xAA, 0xBB, 0x12, 0x34],
          [0x13, 0x00, 0x00, 0x35, 0x80, 0x04, 0xAA, 0xBB, 0x12, 0x34] ++ zeros 47,
          [0x12, 0x21, 0x00, 0x02, 0x00, 0x00],
          [0x13, 0x01, 0x00, 0x30, 0x21] ++ zeros 47] &&
      (statusWords t.regs).map BitVec.toNat ==
        [1, 24, 0, 0, 1, 32, 0, 0, 1, 2, 5, 60, 110, 0, 0, 0, 0]) = true := by decide +kernel

/-! ## The sync check on the headers of 95_test_vectors 2.4 -/

def headerMem (bytes : List Byte) : Memory := Memory.writeBlock [] 0 bytes

/-- S-4: N = 6. -/
theorem test_sync_s4 :
    syncCheck Params.default (headerMem [0x0E, 0x37, 0x40, 0x01, 0x90, 0x28, 0x03, 0x70, 0x46, 0x05, 0xA0]) 1 =
      .ok 6 [11, 25, 40, 55, 70, 90, 110] := by decide +kernel

/-- S-2: N = 3. -/
theorem test_sync_s2 :
    syncCheck Params.default (headerMem [0x5B, 0x0B, 0x60, 0x02, 0x80, 0x50]) 1 = .ok 3 [6, 40, 80, 110] := by
  decide +kernel

/-- S-6: an offset equal to the sentinel fails. -/
theorem test_sync_s6 :
    syncCheck Params.default (headerMem [0xC0, 0xA0, 0x20, 0x06, 0xE0]) 1 = .fail .notIncreasing := by decide +kernel

/-- S-8: the Fire word changed. -/
theorem test_sync_s8 :
    syncCheck Params.default (headerMem [0x81, 0xE1, 0x20, 0x03, 0xC0]) 1 = .fail .fireMismatch := by decide +kernel

/-- S-9: the zero guard. -/
theorem test_sync_s9 : syncCheck Params.default (headerMem (zeros 11)) 1 = .fail .zeroGuard := by decide +kernel

/-! ## The PAD locator, 95_test_vectors 2.6 -/

theorem test_pad_fpad_only :
    padLocate 3 [0x9F, 0x02, 0xF1, 0xF2] = ⟨.pad, 0x03, [0xF1, 0xF2]⟩ := by decide

theorem test_pad_not_dse : padLocate 3 [0x60, 0x02, 0xF1, 0xF2] = ⟨.padReset, 0x23, [0x00, 0x00]⟩ := by decide

theorem test_pad_short_region : padLocate 3 [0x80, 0x03, 0x01, 0xF1] = ⟨.padReset, 0x23, [0x00, 0x00]⟩ := by decide

theorem test_pad_escape :
    padLocate 3 (0x80 :: 0xFF :: 0x00 :: List.replicate 255 0x5C) = ⟨.pad, 0x03, List.replicate 255 0x5C⟩ := by
  decide +kernel

/-! ## The assembler, 95_test_vectors 2.1 -/

theorem test_asm_parse :
    parseLine ['F', 'E', 'E', 'D', ' ', '0', '1', ' ', 'A', 'b', ' ', ';', 'x'] =
      some (.command (.feed [0x01, 0xAB])) := by decide +kernel

theorem test_asm_raw :
    (parseLine ['.', 'c', 'm', 'd', ' ', 'F', 'F', ' ', '0', '0', ' ', 'A', 'B']).bind assemble =
      some [0xFF, 0x00, 0x00, 0x01, 0xAB] := by decide +kernel

theorem test_asm_disassemble :
    printLine (disassemble ⟨0x06, 0x01, [0x00]⟩) =
      ['.', 'c', 'm', 'd', ' ', '0', '6', ' ', '0', '1', ' ', '0', '0'] := by decide +kernel

/-! ## The sequencer and the host -/

/-- A full EVQ holds the command; after a take it goes on (70_reset R311). -/
theorem test_hold_and_resume :
    let s : State := { State.reset with
      params := { Params.default with evtDepth := 1 }, evq := [evSyncStart], rx := [0x05, 0x00, 0x00, 0x00],
      script := [.core, .host .take, .core] }
    holdsNext (step s) (fun t => t.evq == [evSyncStart] && !t.held.isEmpty &&
      holdsNext (step t) (fun u => holdsNext (step u) (fun v =>
        v.held.isEmpty && v.taken == [evSyncStart] && v.evq == [evStatus (statusWords Regs.reset)]))) = true := by
  decide +kernel

/-- From reset with nothing placed, a step changes nothing (70_reset R302, R312). -/
theorem test_reset_waits : step State.reset = .next State.reset := rfl

set_option maxRecDepth 20000 in
theorem test_fetch_every_row :
    (step (State.reset.withFetchWord 32 0x01000000) = exec (.feed []) State.reset) ∧
    (step (State.reset.withFetchWord 32 0x02000000) = exec (.fireCrc []) State.reset) ∧
    (step (State.reset.withFetchWord 32 0x03000000) = exec (.ccittCrc []) State.reset) ∧
    (step (State.reset.withFetchWord 32 0x04000078) = exec (.rsDecode (zeros 120)) State.reset) ∧
    (step (State.reset.withFetchWord 32 0x05000000) = exec .readStatus State.reset) ∧
    (step (State.reset.withFetchWord 32 0x06000000) = exec .softReset State.reset) := by
  refine ⟨rfl, rfl, rfl, rfl, rfl, rfl⟩

/-! ## Witnesses: the hypotheses of each obligation are met -/

theorem witness_EncodedCommandDecodesBack :
    (Instr.feed (zeros 65535)).wellFormed = true ∧ (Instr.fireCrc []).wellFormed = true ∧
    (Instr.ccittCrc [0x01]).wellFormed = true ∧ (Instr.rsDecode (zeros 120)).wellFormed = true ∧
    Instr.readStatus.wellFormed = true ∧ Instr.softReset.wellFormed = true := by
  refine ⟨?_, by decide, by decide, by decide, by decide, by decide⟩
  rw [Instr.wellFormed, zeros, List.length_replicate]
  decide

theorem witness_DecodedCommandEncodesBack :
    splitCommand [0x05, 0x00, 0x00, 0x00, 0x07] = some (⟨0x05, 0x00, []⟩, [0x07]) ∧
    decode ⟨0x05, 0x00, []⟩ = .instr .readStatus := by decide

theorem witness_CommandIsHeaderAndPayload :
    splitCommand [0x09, 0x01, 0x00, 0x01, 0xAB, 0xCD] = some (⟨0x09, 0x01, [0xAB]⟩, [0xCD]) := by decide

/-- One command for each clause, at the ends of the opcode range. -/
theorem witness_DecoderChecksInOrder :
    decode ⟨0x00, 0x01, [0x00]⟩ = .rejected .illegalOpcode ∧ decode ⟨0x07, 0x00, []⟩ = .rejected .illegalOpcode ∧
    decode ⟨0xFF, 0x00, []⟩ = .rejected .illegalOpcode ∧ decode ⟨0x01, 0x80, []⟩ = .rejected .reservedNonzero ∧
    decode ⟨0x06, 0x01, [0x00]⟩ = .rejected .reservedNonzero ∧ decode ⟨0x01, 0x00, []⟩ = .instr (.feed []) ∧
    decode ⟨0x02, 0x00, []⟩ = .instr (.fireCrc []) ∧ decode ⟨0x03, 0x00, []⟩ = .instr (.ccittCrc []) ∧
    decode ⟨0x04, 0x00, zeros 119⟩ = .rejected .badLength ∧
    decode ⟨0x04, 0x00, zeros 120⟩ = .instr (.rsDecode (zeros 120)) ∧
    decode ⟨0x05, 0x00, [0x00]⟩ = .rejected .badLength ∧ decode ⟨0x06, 0x00, []⟩ = .instr .softReset := by
  decide +kernel

/-- The reset state with command bytes received. -/
def received (bytes : List Byte) : State := { State.reset with rx := bytes }

theorem coreIsNext_of_empty (s : State) (h : s.script = []) : s.coreIsNext := by
  intro a
  simp [h]

theorem coreIsNext_of_core (s : State) (rest : List Turn) (h : s.script = .core :: rest) : s.coreIsNext := by
  intro a
  simp [h]

theorem witness_StepRunsDecodedCommand :
    (received [0x05, 0x00, 0x00, 0x00]).coreIsNext ∧ (received [0x05, 0x00, 0x00, 0x00]).held = [] ∧
    splitCommand (received [0x05, 0x00, 0x00, 0x00]).rx = some (⟨0x05, 0x00, []⟩, []) ∧
    decode ⟨0x05, 0x00, []⟩ = .instr .readStatus :=
  ⟨coreIsNext_of_empty _ rfl, rfl, by decide, by decide⟩

theorem witness_RejectedCommandOnlyEmitsError :
    (received [0x07, 0x00, 0x00, 0x00]).coreIsNext ∧ (received [0x07, 0x00, 0x00, 0x00]).held = [] ∧
    (received [0x07, 0x00, 0x00, 0x00]).room 1 ∧
    splitCommand (received [0x07, 0x00, 0x00, 0x00]).rx = some (⟨0x07, 0x00, []⟩, []) ∧
    decode ⟨0x07, 0x00, []⟩ = .rejected .illegalOpcode ∧
    splitCommand (received [0x01, 0x01, 0x00, 0x00]).rx = some (⟨0x01, 0x01, []⟩, []) ∧
    decode ⟨0x01, 0x01, []⟩ = .rejected .reservedNonzero ∧
    splitCommand (received [0x05, 0x00, 0x00, 0x01, 0xAB]).rx = some (⟨0x05, 0x00, [0xAB]⟩, []) ∧
    decode ⟨0x05, 0x00, [0xAB]⟩ = .rejected .badLength :=
  ⟨coreIsNext_of_empty _ rfl, rfl, by decide, by decide, by decide, by decide, by decide, by decide, by decide⟩

theorem witness_PartialCommandWaits :
    let s : State := { received [0x01, 0x00, 0x00, 0x02, 0xAB] with script := [.core, .host (.send [0xCD])] }
    s.coreIsNext ∧ s.held = [] ∧ splitCommand s.rx = none ∧ s.script = .core :: .host (.send [0xCD]) :: [] ∧
    splitCommand (s.rx ++ [0xCD]) = some (⟨0x01, 0x00, [0xAB, 0xCD]⟩, []) :=
  ⟨coreIsNext_of_core _ _ rfl, rfl, by decide, rfl, by decide⟩

theorem witness_RstResetsEverything :
    let s : State := { sf1State with script := [.host .rst], held := [.emit evSyncStart], rx := [0x01] }
    s.script = .host .rst :: [] := rfl

theorem witness_TakeGivesOldestRecord :
    let s : State := { State.reset with script := [.host .take], evq := [evSyncStart, evPadResetSync] }
    s.script = .host .take :: [] ∧ s.evq = evSyncStart :: [evPadResetSync] ∧
    ({ s with evq := [] } : State).evq = [] := ⟨rfl, rfl, rfl⟩

/-- A command that holds at an emit, EVQ full or not. -/
def heldState (depth : Nat) : State :=
  { State.reset with
    params := { Params.default with evtDepth := depth }, evq := [evSyncStart], held := [.emit evPadResetSync] }

theorem witness_FullQueueHoldsTheCommand :
    (heldState 1).coreIsNext ∧ (heldState 1).held = .emit evPadResetSync :: [] ∧
    (heldState 1).params.evtDepth ≤ (heldState 1).evq.length ∧
    (heldState 2).coreIsNext ∧ (heldState 2).held = .emit evPadResetSync :: [] ∧
    (heldState 2).evq.length < (heldState 2).params.evtDepth :=
  ⟨coreIsNext_of_empty _ rfl, rfl, by decide, coreIsNext_of_empty _ rfl, rfl, by decide⟩

theorem witness_HoldingLosesNothing :
    let s : State := { heldState 1 with held := [] }
    s.held = [] ∧ s.evq.length ≤ s.params.evtDepth ∧
    holdsNext (perform [.emit evSyncStart] s) (fun t => !t.held.isEmpty) = true := by decide

theorem witness_RecordsAreNeverLost :
    step (received []) = .next (received []) ∧ (received []).script.head? ≠ some (.host .rst) := by
  exact ⟨rfl, by simp [received, State.reset]⟩

/-- Each of the three ways the registers change. -/
theorem witness_OnlyFeedAndResetsChangeRegs :
    holdsNext (step { received (encode (.feed (zeros 24))) with held := [] })
      (fun t => t.regs != (received []).regs) = true ∧
    holdsNext (step { sf1State with rx := encode .softReset }) (fun t => t.regs != sf1State.regs) = true ∧
    holdsNext (step { sf1State with script := [.host .rst] }) (fun t => t.regs != sf1State.regs) = true := by
  decide +kernel

/-- A command that holds between two register writes. -/
def heldWriteState : State :=
  { sf1State with
    params := { Params.default with evtDepth := 1 }
    held := [.emit evSyncStart, .write { sf1State.regs with syncFrames := 1#32 }] }

theorem witness_LatchedLengthIsImmutable :
    (let s : State := { sf1State with rx := encode .readStatus }
    keepsLength s.regs s.held ∧ s.regs.latched = true ∧ holdsNext (step s) (fun t => t.regs.l == 24#16) = true) ∧
    keepsLength heldWriteState.regs heldWriteState.held ∧ heldWriteState.regs.latched = true ∧
    holdsNext (step heldWriteState) (fun t => t.regs.syncFrames == 1#32) = true := by
  refine ⟨⟨?_, ?_⟩, ?_, ?_⟩
  · exact fun x hx => absurd hx (List.not_mem_nil)
  · decide +kernel
  · intro x hx r' hx'
    subst hx'
    simp only [heldWriteState, List.mem_cons, reduceCtorEq, Effect.write.injEq, List.not_mem_nil, or_false,
      false_or] at hx
    subst hx
    exact ⟨rfl, rfl⟩
  · decide +kernel

theorem witness_oneEventCommands : State.reset.held = [] ∧ State.reset.room 1 := by decide

theorem witness_CrcIsLinear : ([0x01#8, 0x02#8] : List Byte).length = ([0x03#8, 0x04#8] : List Byte).length := rfl

theorem witness_PowersOfAlphaMultiply : (0xFF#8 : Byte) ≠ 0x00#8 := by decide

/-- The word whose only non-zero syndrome is S_0: no codeword is within five errors of it, and Corrected(0, ·) would
break law 3 (log 4). -/
def onlyS0 : List Byte :=
  zeros 110 ++ [0x01, 0xD9, 0x1B, 0x84, 0xEB, 0x2C, 0x72, 0x2D, 0x5C, 0xC1]

set_option maxRecDepth 20000 in
theorem test_law3_only_s0 : (syndromes onlyS0).take 2 = [0x42, 0x00] ∧ rsDecode Params.default onlyS0 = .uncorrectable := by
  decide +kernel

set_option maxRecDepth 20000 in
theorem witness_RsAnswersObeyLaws1And3 :
    (zeros 120).length = 120 ∧ isCodeword (zeros 120) = true ∧
    (zeros 119 ++ [0x01#8]).length = 120 ∧
    rsDecode Params.default (zeros 119 ++ [0x01#8]) = .corrected 1 (zeros 120) := by decide +kernel

theorem witness_SingleByteErrorIsCorrected :
    isCodeword (zeros 120) = true ∧ 0 < 120 ∧ 119 < 120 ∧ (0x01#8 : Byte) ≠ 0x00#8 := by decide +kernel

/-- Distances 1 and 5, the ends of the range. -/
theorem witness_RestoredWithinFiveErrors :
    isCodeword (zeros 120) = true ∧
    (zeros 119 ++ [0x01]).length = 120 ∧ Machine.dist (zeros 119 ++ [0x01]) (zeros 120) = 1 ∧
    ([0x01, 0x02, 0x03] ++ zeros 115 ++ [0x04, 0xFF]).length = 120 ∧
    Machine.dist ([0x01, 0x02, 0x03] ++ zeros 115 ++ [0x04, 0xFF]) (zeros 120) = 5 := by decide +kernel

/-- Clauses one and three; `test_rsDecode_one_error` and `test_law3_only_s0` meet the rest. -/
theorem witness_RsDecodeEmitsItsResult :
    State.reset.held = [] ∧ State.reset.room 1 ∧ (zeros 120).length = 120 ∧
    rsDecode Params.default (zeros 120) = .corrected 0 (zeros 120) ∧ onlyS0.length = 120 ∧
    (zeros 119).length ≠ 120 ∧ (zeros 121).length ≠ 120 := by decide +kernel

theorem witness_InterleavedCodewordsAreDisjoint :
    Memory.wf [(3, 0x07#8)] ∧ 0 < 2 ∧ 1 < 2 ∧ (1 : Nat) ≠ 0 ∧ (zeros 120).length = 120 := by decide

theorem witness_PassDecodesEveryCodeword :
    sf1State.regs.buffersOk ∧ legalLen sf1State.regs.len = true := by decide +kernel

theorem witness_SyncOkGuaranteesTable :
    syncCheck Params.default (headerMem [0x81, 0xE0, 0x20, 0x03, 0xC0]) (codewords 24) = .ok 2 [5, 60, 110] := by
  decide +kernel

/-- Both outcomes of an AU of two bytes, and the last AU index. -/
theorem witness_ShortAusFailOrAreEmpty :
    5 < 6 ∧ (Memory.read [(7, 0x01#8)] 5 = 0x00#8 ∧ Memory.read [(7, 0x01#8)] 6 = 0x00#8) ∧
    ¬ (Memory.read [(7, 0x01#8)] 6 = 0x00#8 ∧ Memory.read [(7, 0x01#8)] 7 = 0x00#8) := by decide

theorem witness_EachAuGivesOnePadEvent :
    0 < 6 ∧ 5 < 6 ∧ (2 ≤ 7 - 5 ∧ storedCrc [] 7 = ccitt Params.default (auPayload [] 5 7)) ∧
    ¬ (2 ≤ 6 - 5) := by decide +kernel

/-- Two AUs, the first of two zero bytes. -/
def tinyAus : Regs :=
  { Regs.reset with n := 2#3, auStart := #v[5#32, 7#32, 8#32, 0#32, 0#32, 0#32, 0#32] }

theorem witness_DeliveredAusHaveGoodCrc :
    evAu 0 [] ∈ auLoop Params.default tinyAus ∧ (evAu 0 []).code = .au := by decide +kernel

theorem witness_PadRegionIsLocated :
    (0x80#8 : Byte).toNat / 32 = 4 ∧ 2 ≤ [0xF1#8, 0xF2#8].length ∧
    ((0x02#8 : Byte).toNat ≠ 255 ∧ (0x02#8 : Byte).toNat = [0xF1#8, 0xF2#8].length) ∧
    ((0xFE#8 : Byte).toNat ≠ 255 ∧ (0xFE#8 : Byte).toNat = (zeros 254).length) ∧
    255 + (0x00#8 : Byte).toNat = (zeros 255).length ∧ 255 + (0xFF#8 : Byte).toNat = (zeros 510).length := by
  decide +kernel

/-- One payload for each of the four cases. -/
theorem witness_MissingPadIsReset :
    5 < 6 ∧ ([0x80#8, 0x02#8] : List Byte).length < 3 ∧ (0x60#8 : Byte).toNat / 32 ≠ 4 ∧
    (0x01#8 : Byte).toNat < 2 ∧ ((0x03#8 : Byte).toNat ≠ 255 ∧ [0x01#8, 0xF1#8].length < (0x03#8 : Byte).toNat) ∧
    (zeros 255).length < 255 + (0x01#8 : Byte).toNat := by decide +kernel

/-- Too short, wrong modulus, longer than L_MAX. -/
theorem witness_FirstFrameOfBadLengthIsRejected :
    let small : State := { State.reset with params := { Params.default with lMax := 24 } }
    State.reset.held = [] ∧ State.reset.room 1 ∧ State.reset.regs.latched = false ∧ (zeros 9).length < 10 ∧
    5 * (zeros 10).length % 120 ≠ 0 ∧ small.held = [] ∧ small.room 1 ∧ small.regs.latched = false ∧
    small.params.lMax < (zeros 48).length := by decide

theorem witness_FrameOfOtherLengthIsRejected :
    sf1State.held = [] ∧ sf1State.room 1 ∧ sf1State.regs.latched = true ∧
    (zeros 23).length ≠ sf1State.regs.l.toNat ∧ (zeros 25).length ≠ sf1State.regs.l.toNat := by decide +kernel

theorem witness_FirstFrameLatchesLength :
    State.reset.held = [] ∧ State.reset.params.legal = true ∧ State.reset.regs.Ok State.reset.params ∧
    State.reset.regs.latched = false ∧ 10 ≤ (zeros 24).length ∧ 5 * (zeros 24).length % 120 = 0 ∧
    (zeros 24).length ≤ State.reset.params.lMax := by decide +kernel

theorem witness_FrameGoesToSlotC :
    let first := withRegs (windowRegs 0 [])
    let last := withRegs (windowRegs 3 (sf0 ++ zeros 24 ++ sf2))
    (first.held = [] ∧ first.regs.Ok first.params ∧ first.regs.latched = true ∧
      (zeros 24).length = first.regs.l.toNat ∧ first.regs.c.toNat < 4) ∧
    (last.held = [] ∧ last.regs.Ok last.params ∧ last.regs.latched = true ∧
      (zeros 24).length = last.regs.l.toNat ∧ last.regs.c.toNat < 4) := by decide +kernel

theorem witness_FullWindowSlides :
    slidState.held = [] ∧ slidState.room 16 ∧ slidState.regs.Ok slidState.params ∧ slidState.regs.latched = true ∧
    (zeros 24).length = slidState.regs.l.toNat ∧ slidState.regs.c = 5#3 := by decide +kernel

theorem witness_FifthFrameGoesToSlot4 :
    sf1State.held = [] ∧ sf1State.room 16 ∧ sf1State.regs.Ok sf1State.params ∧ sf1State.regs.latched = true ∧
    sf4.length = sf1State.regs.l.toNat ∧ sf1State.regs.c = 4#3 := by decide +kernel

/-- What FailedWindowCountsAndWaits and PassingWindowDeliversSuperframe ask of a state and a frame, but for the check's
result. -/
abbrev windowPremises (s : State) (frame : List Byte) : Prop :=
  s.held = [] ∧ s.room 16 ∧ s.regs.Ok s.params ∧ s.params.legal = true ∧ s.regs.latched = true ∧
  frame.length = s.regs.l.toNat ∧ 4 ≤ s.regs.c.toNat

/-- The sync check of the window that `frame` completes. -/
def windowCheck (s : State) (frame : List Byte) : SyncResult :=
  syncCheck s.params (evaluateWindow s.params (acceptFrame frame s.regs)).work (5 * s.regs.l.toNat / 120)

theorem witness_FailedWindow_zeroGuard :
    windowPremises zeroState (zeros 24) ∧ windowCheck zeroState (zeros 24) = .fail .zeroGuard := by decide +kernel

theorem witness_FailedWindow_slid :
    windowPremises slidState (zeros 24) ∧ windowCheck slidState (zeros 24) = .fail .zeroGuard := by decide +kernel

set_option maxRecDepth 20000 in
/-- Scenario 2: the window X, f0, f1, f2, f3. -/
theorem witness_FailedWindow_fireMismatch :
    windowPremises misalignedState (zeros 24) ∧
    windowCheck misalignedState (zeros 24) = .fail .fireMismatch := by decide +kernel

/-- The header S-5 with its offsets out of order: eleven non-zero bytes, an uncorrectable codeword. -/
def unsortedState : State :=
  withRegs (windowRegs 4 [0x46, 0x37, 0x40, 0x01, 0x90, 0x28, 0x03, 0x70, 0x5A, 0x04, 0x60])

set_option maxRecDepth 20000 in
theorem witness_FailedWindow_notIncreasing :
    windowPremises unsortedState (zeros 24) ∧
    windowCheck unsortedState (zeros 24) = .fail .notIncreasing := by decide +kernel

set_option maxRecDepth 20000 in
theorem witness_PassingWindowDeliversSuperframe :
    windowPremises sf1State sf4 ∧ windowCheck sf1State sf4 = .ok 2 [5, 60, 110] := by decide +kernel

/-- The same window after a loss of sync, with the format byte it carries set already. -/
def recoveringState : State :=
  { sf1State with regs := { sf1State.regs with syncFrames := 3#32, lastSync := 3#3, fmtSet := true, fmtRaw := 0x20#8 } }

set_option maxRecDepth 20000 in
theorem witness_PassingWindow_recovers :
    windowPremises recoveringState sf4 ∧ windowCheck recoveringState sf4 = .ok 2 [5, 60, 110] ∧
    recoveringState.regs.syncFrames ≠ 0#32 ∧
    (recoveringState.regs.fmtSet = true ∧
      recoveringState.regs.fmtRaw =
        Memory.read (evaluateWindow recoveringState.params (acceptFrame sf4 recoveringState.regs)).work 2) := by
  decide +kernel

theorem witness_RecordIsHeaderAndPayload : evFrameReject .badLength 84 = ⟨.frameReject, 0x02, [0x00, 0x54]⟩ ∧
    (evFrameReject .badLength 84).payload.length ≤ 65535 ∧
    (evFrameReject .badLength 84).record = [0x20, 0x02, 0x00, 0x02, 0x00, 0x54] := by decide

theorem witness_EventBytesDetermineRecords :
    (∀ e ∈ [evSyncStart, evPadResetSync] ++ [evSyncStart, evPadResetSync], e.payload.length ≤ 65535) ∧
    [evSyncStart, evPadResetSync].flatMap Event.record = [evSyncStart, evPadResetSync].flatMap Event.record := by
  decide

theorem witness_RsStatusOnlyWhenSomethingHappened :
    Regs.reset.rsCorr.toNat < 65536 ∧ (Regs.reset.rsCorr = 0#32 ∧ Regs.reset.rsUncorr = false) ∧
    ({ Regs.reset with rsCorr := 5950#32 } : Regs).rsCorr ≠ 0#32 ∧
    ({ Regs.reset with rsUncorr := true } : Regs).rsUncorr = true := by decide

theorem feed_next (s : State) (frame : List Byte) (h : feedInBounds s.params frame s.regs = true) :
    ∃ t, exec (.feed frame) s = .next t := by
  simp only [exec, execFeed, h, if_true, perform]
  exact ⟨_, rfl⟩

/-- FeedEventCounts and FeedFrame: a FEED of such a state gives a next state. -/
theorem witness_FeedEventCounts :
    (∃ t, exec (.feed (zeros 24)) zeroState = .next t) ∧ (∃ t, exec (.feed []) State.reset = .next t) ∧
    (∃ t, exec (.feed (zeros 24)) State.reset = .next t) ∧
    zeroState.held = [] ∧ zeroState.room 16 ∧ zeroState.regs.Ok zeroState.params ∧ zeroState.params.legal = true ∧
    State.reset.held = [] ∧ State.reset.room 16 ∧ State.reset.regs.Ok State.reset.params := by
  refine ⟨?_, ?_, ?_, by decide +kernel⟩
  · exact feed_next _ _ (by decide +kernel)
  · exact feed_next _ _ (by decide +kernel)
  · exact feed_next _ _ (by decide +kernel)

/-- WORK, and RAW beyond the first frame, differ. -/
theorem witness_UnwrittenBytesAreUnobservable :
    let s := withRegs (windowRegs 1 sf0)
    let r' : Regs := { s.regs with raw := Memory.write s.regs.raw 24 0xAA#8, work := [(0, 0x01#8)] }
    (s.held = [] ∧ s.room 16 ∧ s.params.legal = true ∧ s.regs.Ok s.params ∧ r'.Ok s.params) ∧ s.regs.Agree r' := by
  refine ⟨by decide +kernel, ⟨rfl, ?_⟩⟩
  decide +kernel

/-- No command in progress is a good held command. -/
theorem heldOk_nil (p : Params) (r : Regs) : heldOk p r [] :=
  ⟨fun _ hx => absurd hx List.not_mem_nil, fun _ hx => absurd hx List.not_mem_nil, fun _ => by simp⟩

theorem witness_Inv_reset : State.reset.Inv :=
  ⟨by decide, by decide, by decide, heldOk_nil _ _, by simp [State.reset, eventsOf], by decide⟩

theorem witness_Inv_sf1 : sf1State.Inv :=
  ⟨by decide +kernel, by decide +kernel, by decide +kernel, heldOk_nil _ _,
    by simp [sf1State, withRegs, State.reset, eventsOf], by decide +kernel⟩

theorem witness_EveryStepKeepsInvariant : State.reset.Inv ∧ step State.reset = .next State.reset :=
  ⟨witness_Inv_reset, rfl⟩

end Sys2Proof.Tests
end

section
/-! 00_scope R9: no step changes a parameter. CORE's turn waits or carries out effects, and neither these nor the
host's actions write the parameters. -/

namespace Sys2Proof.Machine

/-- A command that gives a next state got there by carrying out effects. -/
theorem exec_next {i : Instr} {s t : State} (h : exec i s = .next t) : ∃ es, t = State.carryOut es s := by
  obtain ⟨es, he⟩ | he := exec_performs i s
  · rw [he, perform_next] at h
    cases h
    exact ⟨_, rfl⟩
  · rw [he] at h
    cases h

/-- CORE's turn leaves the state as it is, or uses up received bytes and carries out effects (45_control R250,
70_reset R311, R312). -/
theorem coreTurn_next {s t : State} (h : coreTurn s = .next t) :
    t = s ∨ ∃ es bytes, t = State.carryOut es (s.setRx bytes) := by
  obtain ⟨-, hc⟩ | ⟨-, -, hc⟩ | ⟨c, rest, i, -, -, -, hc⟩ | ⟨c, rest, why, -, -, -, hc⟩ := coreTurn_cases s <;>
    rw [hc] at h
  case inl =>
    cases h
    exact .inr ⟨s.held, s.rx, rfl⟩
  case inr.inl =>
    cases h
    exact .inl rfl
  case inr.inr.inl =>
    obtain ⟨es, rfl⟩ := exec_next h
    exact .inr ⟨es, rest, rfl⟩
  case inr.inr.inr =>
    rw [raiseCmdError, perform_next] at h
    cases h
    exact .inr ⟨_, rest, rfl⟩

theorem coreTurn_params {s t : State} (h : coreTurn s = .next t) : t.params = s.params := by
  obtain rfl | ⟨es, bytes, rfl⟩ := coreTurn_next h
  · rfl
  · simp

@[simp] theorem hostTurn_params (a : HostAct) (s : State) : (hostTurn a s).params = s.params := by
  cases a with
  | send bytes => exact State.send_params bytes s
  | take => exact State.take_params s
  | rst => exact State.rst_params s

/-- Settles O50, by whose turn the step is. -/
theorem parametersNeverChange : Obligations.ParametersNeverChange := by
  intro s t h
  obtain hcore | ⟨a, rest, hscript⟩ := s.turn_cases
  · rw [step_core hcore] at h
    simpa using coreTurn_params h
  · rw [step_host hscript] at h
    cases h
    simp

end Sys2Proof.Machine
end

section
/-! 10_state R20, R31, 70_reset R318: what one step can do, said once. Later proofs split on these moves and do not
unfold step, coreTurn or exec. -/

namespace Sys2Proof.Machine

/-- What CORE's turn can do: carry on a held command, wait, or use up a received command and carry out its effects. A
command that is neither FEED nor SOFT_RESET, and one that is rejected, emits one record (45_control R250, R255). -/
inductive CoreMove (s : State) : State → Prop
  | resume (hs : s.held ≠ []) : CoreMove s (State.carryOut s.held s)
  | wait (hs : s.held = []) : CoreMove s s
  | feed {c : Command} {rest frame : List Byte} (hs : s.held = []) (hc : splitCommand s.rx = some (c, rest))
      (hd : decode c = .instr (.feed frame)) :
      CoreMove s (State.carryOut (feedEffects s.params frame s.regs) (s.setRx rest))
  | softReset {c : Command} {rest : List Byte} (hs : s.held = []) (hc : splitCommand s.rx = some (c, rest))
      (hd : decode c = .instr .softReset) : CoreMove s (State.carryOut [.write Regs.reset] (s.setRx rest))
  | emit {rest : List Byte} {e : Event} (hs : s.held = []) (he : e.fits) :
      CoreMove s (State.carryOut [.emit e] (s.setRx rest))

theorem evCrc_fits (which : Byte) (v : Word16) : (evCrc which v).fits := by
  simp [Event.fits, evCrc, be16Bytes]

theorem evCmdErr_fits (why : CmdReason) (opc rsv : Byte) : (evCmdErr why opc rsv).fits := by
  simp [Event.fits, evCmdErr]

/-- The one record of a command that is neither FEED nor SOFT_RESET fits its ELEN (30_encoding R90). -/
theorem exec_emits_fits {i : Instr} (hf : ∀ frame, i ≠ .feed frame) (hr : i ≠ .softReset) (s : State) :
    ∃ e, e.fits ∧ exec i s = perform [.emit e] s := by
  cases i with
  | feed frame => exact absurd rfl (hf frame)
  | fireCrc message => exact ⟨_, evCrc_fits _ _, rfl⟩
  | ccittCrc message => exact ⟨_, evCrc_fits _ _, rfl⟩
  | rsDecode word =>
    by_cases hw : word.length = 120
    · exact ⟨_, evRsResult_fits s.params hw, if_pos hw⟩
    · exact ⟨_, evCmdErr_fits .badLength 0x04#8 0x00#8, if_neg hw⟩
  | readStatus => exact ⟨_, evStatus_fits s.regs, rfl⟩
  | softReset => exact absurd rfl hr

/-- A FEED that gives a next state carried out its effects. -/
theorem execFeed_next {frame : List Byte} {s t : State} (h : execFeed frame s = .next t) :
    t = State.carryOut (s.held ++ feedEffects s.params frame s.regs) s := by
  unfold execFeed at h
  split at h
  · rw [perform_next] at h
    cases h
    rfl
  · cases h

/-- Executing the received command is one of CORE's moves. -/
theorem exec_move {s t : State} {c : Command} {rest : List Byte} {i : Instr} (hs : s.held = [])
    (hc : splitCommand s.rx = some (c, rest)) (hd : decode c = .instr i) (h : exec i (s.setRx rest) = .next t) :
    CoreMove s t := by
  by_cases hf : ∃ frame, i = .feed frame
  · obtain ⟨frame, rfl⟩ := hf
    have ht := execFeed_next h
    rw [State.setRx_held, hs, List.nil_append] at ht
    exact ht ▸ .feed hs hc hd
  by_cases hr : i = .softReset
  · subst hr
    change perform [.write Regs.reset] (s.setRx rest) = _ at h
    rw [perform_next, State.setRx_held, hs] at h
    cases h
    exact .softReset hs hc hd
  · obtain ⟨e, he, hx⟩ := exec_emits_fits (fun frame h => hf ⟨frame, h⟩) hr (s.setRx rest)
    rw [hx, perform_next, State.setRx_held, hs] at h
    cases h
    exact .emit hs he

/-- CORE's turn is one of these moves. -/
theorem coreTurn_move {s t : State} (h : coreTurn s = .next t) : CoreMove s t := by
  obtain ⟨hs, hc⟩ | ⟨hs, -, hc⟩ | ⟨c, rest, i, hs, hsplit, hd, hc⟩ | ⟨c, rest, why, hs, -, -, hc⟩ :=
    coreTurn_cases s <;> rw [hc] at h
  case inl =>
    cases h
    exact .resume hs
  case inr.inl =>
    cases h
    exact .wait hs
  case inr.inr.inl => exact exec_move hs hsplit hd h
  case inr.inr.inr =>
    rw [raiseCmdError, perform_next, State.setRx_held, hs] at h
    cases h
    exact .emit hs (evCmdErr_fits _ _ _)

/-- A step is a move of CORE or an action of the host; either uses up its turn of the script (log 6). -/
theorem step_moves {s t : State} (h : step s = .next t) :
    (s.coreIsNext ∧ CoreMove (s.setScript s.script.tail) t) ∨
    ∃ a rest, s.script = .host a :: rest ∧ t = hostTurn a (s.setScript rest) := by
  obtain hcore | ⟨a, rest, hscript⟩ := s.turn_cases
  · rw [step_core hcore] at h
    exact .inl ⟨hcore, coreTurn_move h⟩
  · rw [step_host hscript] at h
    cases h
    exact .inr ⟨a, rest, hscript, rfl⟩

end Sys2Proof.Machine
end

section
/-! 10_state R21, R22, R29 to R33, 20_memory R65, 30_encoding R90: the invariant holds after reset, and every step
keeps it. -/

namespace Sys2Proof.Machine

theorem keepsLength_nil (r : Regs) : keepsLength r [] := fun _ hx => absurd hx List.not_mem_nil

theorem keepsLength_emit (r : Regs) (e : Event) : keepsLength r [.emit e] := by
  intro x hx r' hx'
  rw [List.mem_singleton.mp hx] at hx'
  cases hx'

/-- No command in progress is a good held command. -/
theorem heldOk_of_nil (p : Params) (r : Regs) : heldOk p r [] := ⟨writesOk_nil p, keepsLength_nil r, by simp⟩

/-- A FEED emits one record, or writes the accepted frame and then keeps LATCHED and L (42_superframe R160). -/
theorem feedEffects_shape (p : Params) (frame : List Byte) (r : Regs) :
    (∃ e, feedEffects p frame r = [.emit e]) ∨
    (feedGate p r frame.length = none ∧ ∃ es, feedEffects p frame r = .write (acceptFrame frame r) :: es ∧
      keepsLength (acceptFrame frame r) es) := by
  cases hg : feedGate p r frame.length with
  | some why => exact .inl ⟨_, feedEffects_some hg⟩
  | none =>
    rw [feedEffects_none hg]
    split
    · exact .inr ⟨rfl, [], rfl, keepsLength_nil _⟩
    · exact .inr ⟨rfl, _, rfl, windowEffects_keepsLength p _⟩

/-- The registers of a good state with no command in progress are settled. -/
theorem State.Inv.settled_of_idle {s : State} (h : s.Inv) (hs : s.held = []) : s.regs.Settled s.params := by
  have := h.settled
  rwa [State.settledRegs, hs] at this

/-- The invariant does not read the received bytes, the script or the records taken. -/
theorem State.Inv.of_fields_eq {s t : State} (h : s.Inv) (hp : t.params = s.params) (hr : t.regs = s.regs)
    (hh : t.held = s.held) (hq : t.evq = s.evq) : t.Inv := by
  obtain ⟨hparams, hqueue, hregs, hheld, hrecords, hsettled⟩ := h
  exact ⟨by rwa [hp], by rwa [hp, hq], by rwa [hp, hr], by rwa [hp, hr, hh], by rwa [hq, hh],
    by rwa [State.settledRegs, hp, hr, hh]⟩

/-- Effects that begin with a register write may change LATCHED and L there, and only there: no record stands before
that write at which CORE could hold. -/
theorem State.carryOut_write_inv {r : Regs} {es : List Effect} {s : State} (h : s.Inv)
    (hw : writesOk s.params (.write r :: es)) (hk : keepsLength r es) (he : ∀ e ∈ eventsOf es, e.fits)
    (hs : (lastRegs es r).Settled s.params) : (State.carryOut (.write r :: es) s).Inv := by
  refine State.carryOut_inv (s := s.setRegs r) h.params h.queue (hw _ List.mem_cons_self r rfl)
    (fun x hx => hw x (List.mem_cons_of_mem _ hx)) hk (fun e hmem => ?_) hs
  rcases List.mem_append.mp hmem with hq | hn
  · exact h.records e (List.mem_append_left _ hq)
  · exact he e hn

/-- A command that emits one record keeps the invariant. -/
theorem State.carryOut_emit_inv {e : Event} {s : State} (h : s.Inv) (hs : s.held = []) (he : e.fits) :
    (State.carryOut [.emit e] s).Inv := by
  refine State.carryOut_inv h.params h.queue h.regs (writesOk_emit (writesOk_nil _)) (keepsLength_emit _ e)
    (fun e' hmem => ?_) (h.settled_of_idle hs)
  rcases List.mem_append.mp hmem with hq | hn
  · exact h.records e' (List.mem_append_left _ hq)
  · rwa [List.mem_singleton.mp hn]

/-- FEED keeps the invariant. -/
theorem State.carryOut_feed_inv {s : State} (h : s.Inv) (hs : s.held = []) (frame : List Byte) :
    (State.carryOut (feedEffects s.params frame s.regs) s).Inv := by
  have hfit := feedEffects_fit (frame := frame) h.params h.regs
  have hok := feedEffects_ok (frame := frame) h.params h.regs
  have hset := feedEffects_settled (frame := frame) h.params (h.settled_of_idle hs)
  obtain ⟨e, hshape⟩ | ⟨-, es, hshape, hk⟩ := feedEffects_shape s.params frame s.regs <;>
    rw [hshape] at hfit hok hset ⊢
  · exact State.carryOut_emit_inv h hs (hfit e List.mem_cons_self)
  · exact State.carryOut_write_inv h hok hk hfit hset

/-- CORE's moves keep the invariant. -/
theorem CoreMove.inv {s t : State} (hm : CoreMove s t) (h : s.Inv) : t.Inv := by
  have hrx : ∀ rest, (s.setRx rest).Inv := fun rest => h.of_fields_eq rfl rfl rfl rfl
  cases hm with
  | resume hs =>
    obtain ⟨hw, hk, -⟩ := h.held
    exact State.carryOut_inv h.params h.queue h.regs hw hk h.records h.settled
  | wait hs => exact h
  | @feed c rest frame hs hc hd => exact State.carryOut_feed_inv (hrx rest) hs frame
  | softReset hs hc hd =>
    have hreset := resetRegs_settled s.params
    exact State.carryOut_write_inv (hrx _) (writesOk_write hreset.1 (writesOk_nil _)) (keepsLength_nil _)
      (by simp [eventsOf]) hreset
  | emit hs he => exact State.carryOut_emit_inv (hrx _) hs he

/-- The host takes a record: the queue gets shorter, and the registers stay. -/
theorem State.take_inv {s : State} (h : s.Inv) : s.take.Inv := by
  unfold State.take
  split
  · exact h
  · rename_i e rest hq
    refine ⟨h.params, ?_, h.regs, h.held, fun e' he' => h.records e' ?_, h.settled⟩
    · have := h.queue
      rw [hq, List.length_cons] at this
      exact Nat.le_of_succ_le this
    · rw [hq]
      exact List.mem_cons_of_mem _ he'

/-- RST gives a good state whatever it discards (70_reset R300). -/
theorem State.rst_inv {s : State} (h : s.params.legal = true) : s.rst.Inv := by
  have hreset := resetRegs_settled s.params
  exact ⟨h, Nat.zero_le _, hreset.1, heldOk_of_nil _ _, by simp [eventsOf], hreset⟩

theorem hostTurn_inv {s : State} (h : s.Inv) (a : HostAct) : (hostTurn a s).Inv := by
  cases a with
  | send bytes => exact h.of_fields_eq rfl rfl rfl rfl
  | take => exact State.take_inv h
  | rst => exact State.rst_inv h.params

/-- Settles O48, by the move that the step is. -/
theorem everyStepKeepsInvariant : Obligations.EveryStepKeepsInvariant := by
  intro s t h hstep
  have hscript : ∀ turns, (s.setScript turns).Inv := fun turns => h.of_fields_eq rfl rfl rfl rfl
  obtain ⟨-, hm⟩ | ⟨a, rest, -, rfl⟩ := step_moves hstep
  · exact hm.inv (hscript _)
  · exact hostTurn_inv (hscript _) a

/-- Settles O47: the reset registers are settled for all parameters, and the default parameters are legal. -/
theorem resetMeetsInvariant : Obligations.ResetMeetsInvariant := by
  have hreset := resetRegs_settled Params.default
  exact ⟨by decide, Nat.zero_le _, hreset.1, heldOk_of_nil _ _, by simp [State.reset, eventsOf], hreset⟩

end Sys2Proof.Machine
end

section
/-! 10_state R21, R31, R33: what no step, or no step but a reset, does to the records, the registers, and L. -/

namespace Sys2Proof.Machine

/-- Carrying out effects adds records at the tail of EVQ only. -/
theorem State.carryOut_evq_append (es : List Effect) (s : State) :
    ∃ new, (State.carryOut es s).evq = s.evq ++ new := by
  obtain ⟨done, -, -, hq, -⟩ := State.carryOut_split es s
  exact ⟨_, hq⟩

/-- Effects that keep LATCHED and L, carried out as far as EVQ has room, keep them. -/
theorem State.carryOut_keepsLength {es : List Effect} {s : State} (h : keepsLength s.regs es) :
    (State.carryOut es s).regs.latched = s.regs.latched ∧ (State.carryOut es s).regs.l = s.regs.l := by
  obtain ⟨done, hes, hr, -, -⟩ := State.carryOut_split es s
  rw [hr]
  exact lastRegs_keepsLength fun x hx => h x (hes ▸ List.mem_append_left _ hx)

theorem State.carryOut_emit_regs (e : Event) (s : State) : (State.carryOut [.emit e] s).regs = s.regs := by
  simp only [State.carryOut]
  split <;> rfl

/-- CORE takes no record, and its moves add records at the tail of EVQ only (10_state R31). -/
theorem CoreMove.records {s t : State} (hm : CoreMove s t) :
    t.taken = s.taken ∧ ∃ new, t.evq = s.evq ++ new := by
  cases hm with
  | wait hs => exact ⟨rfl, [], (List.append_nil _).symm⟩
  | resume | feed | softReset | emit => exact ⟨State.carryOut_taken _ _, State.carryOut_evq_append _ _⟩

/-- The record the host takes moves from the head of EVQ to the end of those taken. -/
theorem State.take_records (s : State) : s.take.taken ++ s.take.evq = s.taken ++ s.evq := by
  unfold State.take
  split
  · rfl
  · rename_i e rest hq
    simp [hq]

/-- Settles O13, by the move that the step is. -/
theorem recordsAreNeverLost : Obligations.RecordsAreNeverLost := by
  intro s t hstep hrst
  obtain ⟨-, hm⟩ | ⟨a, rest, hscript, rfl⟩ := step_moves hstep
  · obtain ⟨htaken, new, hq⟩ := hm.records
    exact ⟨new, by rw [htaken, hq, List.append_assoc]; rfl⟩
  · refine ⟨[], ?_⟩
    rw [List.append_nil]
    cases a with
    | send bytes => rfl
    | take => exact State.take_records _
    | rst => exact absurd (by rw [hscript]; rfl) hrst

/-- Settles O14: of the moves of an idle CORE, only those of FEED and SOFT_RESET write registers. -/
theorem onlyFeedAndResetsChangeRegs : Obligations.OnlyFeedAndResetsChangeRegs := by
  intro s t hstep hs hne
  obtain ⟨hcore, hm⟩ | ⟨a, rest, hscript, rfl⟩ := step_moves hstep
  · refine .inr ⟨hcore, ?_⟩
    cases hm with
    | resume hh => exact absurd hs hh
    | wait => exact absurd rfl hne
    | feed _ hc hd => exact ⟨_, _, hc, .inl ⟨_, hd⟩⟩
    | softReset _ hc hd => exact ⟨_, _, hc, .inr hd⟩
    | emit => exact absurd (State.carryOut_emit_regs _ _) hne
  · cases a with
    | send bytes => exact absurd rfl hne
    | take => exact absurd (State.take_regs _) hne
    | rst => exact .inl (by rw [hscript]; rfl)

/-- Once LATCHED, no write of FEED changes LATCHED or L (42_superframe R161, R162). -/
theorem feedEffects_keepsLength (p : Params) (frame : List Byte) {r : Regs} (hl : r.latched = true) :
    keepsLength r (feedEffects p frame r) := by
  obtain ⟨e, hshape⟩ | ⟨-, es, hshape, hk⟩ := feedEffects_shape p frame r <;> rw [hshape]
  · exact keepsLength_emit r e
  · have hacc : (acceptFrame frame r).latched = r.latched ∧ (acceptFrame frame r).l = r.l := by
      rw [acceptFrame_latched, acceptFrame_l, Regs.latch, if_pos hl, hl]
      exact ⟨rfl, rfl⟩
    intro x hx r' hx'
    rcases List.mem_cons.mp hx with rfl | hx
    · cases hx'
      exact hacc
    · rw [← hacc.1, ← hacc.2]
      exact hk x hx r' hx'

/-- Settles O15: each move of CORE but SOFT_RESET carries out effects that keep LATCHED and L. -/
theorem latchedLengthIsImmutable : Obligations.LatchedLengthIsImmutable := by
  intro s t hstep hk hl
  rw [← hl]
  obtain ⟨hcore, hm⟩ | ⟨a, rest, hscript, rfl⟩ := step_moves hstep
  · cases hm with
    | resume => exact .inl (State.carryOut_keepsLength (s := s.setScript _) hk)
    | wait => exact .inl ⟨rfl, rfl⟩
    | feed => exact .inl (State.carryOut_keepsLength (s := (s.setScript _).setRx _) (feedEffects_keepsLength _ _ hl))
    | softReset hs hc hd => exact .inr (.inr ⟨hcore, hs, _, _, hc, hd⟩)
    | emit => exact .inl (by rw [State.carryOut_emit_regs]; exact ⟨rfl, rfl⟩)
  · cases a with
    | send bytes => exact .inl ⟨rfl, rfl⟩
    | take => exact .inl (by rw [hostTurn, State.take_regs]; exact ⟨rfl, rfl⟩)
    | rst => exact .inr (.inl (by rw [hscript]; rfl))

end Sys2Proof.Machine
end

section
/-! 10_state R25, R34: two runs of one FEED from registers that differ only in WORK and in RAW outside the C frames. -/

namespace Sys2Proof.Machine

/-- Registers that agree are one record up to RAW and WORK. -/
theorem Regs.Agree.exists_eq {r r' : Regs} (h : r.Agree r') :
    ∃ raw' work', r' = { r with raw := raw', work := work' } ∧
      ∀ a, a < r.c.toNat * r.len → Memory.read raw' a = Memory.read r.raw a :=
  ⟨_, _, h.rest, h.raw⟩

/-- The latch keeps agreement: while L is not latched, no frame is held. -/
theorem Regs.Agree.latch {p : Params} {r r' : Regs} (hgeo : r.geometryOk p) (h : r.Agree r') (n : Nat) :
    (r.latch n).Agree (r'.latch n) := by
  obtain ⟨raw', work', rfl, hraw⟩ := h.exists_eq
  rw [Regs.latch_eq, Regs.latch_eq]
  refine ⟨rfl, fun a ha => ?_⟩
  cases hl : r.latched with
  | true => exact hraw a (by simpa [Regs.len, hl] using ha)
  | false => simp [(hgeo.1 hl).2] at ha

/-- Accumulation writes the same bytes, and RAW then agrees in one frame more, or in all five (42_superframe R163). -/
theorem Regs.Agree.accumulate {r r' : Regs} {frame : List Byte} (hw : Memory.wf r.raw) (hw' : Memory.wf r'.raw)
    (hc : r.c.toNat ≤ 5) (hf : frame.length = r.len) (h : r.Agree r') :
    (accumulate frame r).Agree (accumulate frame r') := by
  obtain ⟨raw', work', rfl, hraw⟩ := h.exists_eq
  have hcount := accumulate_c frame hc
  have hcount' : (Machine.accumulate frame { r with raw := raw', work := work' }).c = (Machine.accumulate frame r).c :=
    BitVec.eq_of_toNat_eq ((accumulate_c frame (r := { r with raw := raw', work := work' }) hc).trans hcount.symm)
  refine ⟨(accumulate_eq frame _).trans (by simp [hcount']), fun a ha => ?_⟩
  rw [Regs.len, accumulate_l, hcount] at ha
  change a < _ * r.len at ha
  by_cases ho : r.c.toNat < 5
  · rw [Nat.min_eq_left ho, Nat.succ_mul] at ha
    rw [accumulate_raw_open frame ho, accumulate_raw_open frame (by exact ho), Memory.read_writeBlock hw,
      Memory.read_writeBlock hw']
    change (if r.c.toNat * r.len ≤ a ∧ a < r.c.toNat * r.len + frame.length then _ else _) = _
    split
    · rfl
    · exact hraw a (by omega)
  · have h5 : r.c.toNat = 5 := by omega
    rw [h5, Nat.min_eq_right (by omega)] at ha
    rw [h5] at hraw
    have hslide : Memory.readBlock raw' r.len (4 * r.len) = Memory.readBlock r.raw r.len (4 * r.len) :=
      List.map_congr_left fun j hj => hraw _ (by have := List.mem_range.mp hj; omega)
    rw [accumulate_raw_full frame ho, accumulate_raw_full frame (by exact ho)]
    change Memory.read (Memory.writeBlock (Memory.writeBlock raw' 0 (Memory.readBlock raw' r.len (4 * r.len)))
      (4 * r.len) frame) a = _
    rw [hslide, Memory.read_writeBlock (Memory.writeBlock_wf hw _ _),
      Memory.read_writeBlock (Memory.writeBlock_wf hw' _ _), Memory.read_writeBlock hw, Memory.read_writeBlock hw',
      hraw a (by omega)]

/-- Steps 1 and 2 keep agreement. -/
theorem Regs.Agree.acceptFrame {p : Params} {r r' : Regs} {frame : List Byte} (hp : p.legal = true) (hr : r.Ok p)
    (hr' : r'.Ok p) (hg : feedGate p r frame.length = none) (h : r.Agree r') :
    (acceptFrame frame r).Agree (acceptFrame frame r') := by
  obtain ⟨hgeo, hbuf, -⟩ := hr
  obtain ⟨-, hbuf', -⟩ := hr'
  refine (h.latch hgeo frame.length).accumulate ?_ ?_ ?_ (Regs.latch_len hp hgeo hg).1.symm
  · rw [Regs.latch_raw]; exact hbuf.1
  · rw [Regs.latch_raw]; exact hbuf'.1
  · rw [Regs.latch_c]; exact hgeo.2.2

/-- Of a complete window the copy overwrites all of WORK, so after the pass only RAW can still differ (42_superframe
R166). -/
theorem Regs.Agree.evaluateWindow {p : Params} {r r' : Regs} (hr : r.buffersOk) (hr' : r'.buffersOk)
    (hc : r.c.toNat = 5) (h : r.Agree r') :
    evaluateWindow p r' = { evaluateWindow p r with raw := r'.raw } := by
  obtain ⟨raw', work', rfl, hraw⟩ := h.exists_eq
  obtain ⟨-, hwork, -, hworkb⟩ := hr
  obtain ⟨-, hwork', -, hworkb'⟩ := hr'
  rw [hc] at hraw
  have hcopy : copyWindow { r with raw := raw', work := work' } = { copyWindow r with raw := raw' } :=
    congrArg (fun w => ({ r with raw := raw', work := w } : Regs))
      (copyWindow_work_eq hwork hwork' hworkb hworkb' hraw)
  rw [Machine.evaluateWindow, hcopy]
  rfl

/-- The records of an evaluated window do not depend on RAW any more. -/
theorem eventsOf_windowEffects_of_agree {p : Params} {r r' : Regs} (hr : r.buffersOk) (hr' : r'.buffersOk)
    (hc : r.c.toNat = 5) (h : r.Agree r') :
    eventsOf (windowEffects p r') = eventsOf (windowEffects p r) := by
  have he := h.evaluateWindow (p := p) hr hr' hc
  obtain ⟨raw', work', rfl, -⟩ := h.exists_eq
  rw [eventsOf_windowEffects, eventsOf_windowEffects, he]
  change _ ++ (match syncCheck p (evaluateWindow p r).work r.k with | .fail _ => _ | .ok _ _ => _) = _
  cases syncCheck p (evaluateWindow p r).work r.k with
  | fail why => rfl
  | ok nAu table =>
    simp only [eventsOf_okEffects]
    rfl

/-- The registers after an evaluated window agree: a failed one leaves RAW and C, a good one C = 0. -/
theorem lastRegs_windowEffects_of_agree {p : Params} {r r' : Regs} (hr : r.buffersOk) (hr' : r'.buffersOk)
    (hc : r.c.toNat = 5) (h : r.Agree r') (r0 r0' : Regs) :
    (lastRegs (windowEffects p r) r0).Agree (lastRegs (windowEffects p r') r0') := by
  have he := h.evaluateWindow (p := p) hr hr' hc
  obtain ⟨raw', work', rfl, hraw⟩ := h.exists_eq
  rw [lastRegs_windowEffects, lastRegs_windowEffects, he]
  change Regs.Agree _ (match syncCheck p (evaluateWindow p r).work r.k with | .fail _ => _ | .ok _ _ => _)
  cases syncCheck p (evaluateWindow p r).work r.k with
  | fail why => exact ⟨rfl, hraw⟩
  | ok nAu table =>
    simp only [afterFormat_eq]
    exact ⟨rfl, fun a ha => absurd ha (by simp)⟩

/-- One FEED from registers that agree emits the same records and ends in registers that agree. -/
theorem feedEffects_of_agree {p : Params} {r r' : Regs} (frame : List Byte) (hp : p.legal = true) (hr : r.Ok p)
    (hr' : r'.Ok p) (h : r.Agree r') :
    eventsOf (feedEffects p frame r') = eventsOf (feedEffects p frame r) ∧
      (lastRegs (feedEffects p frame r) r).Agree (lastRegs (feedEffects p frame r') r') := by
  have hgate : feedGate p r' frame.length = feedGate p r frame.length := by
    obtain ⟨raw', work', rfl, -⟩ := h.exists_eq
    rfl
  cases hg : feedGate p r frame.length with
  | some why =>
    rw [feedEffects_some hg, feedEffects_some (hgate.trans hg)]
    exact ⟨rfl, h⟩
  | none =>
    have hg' := hgate.trans hg
    have ha := h.acceptFrame hp hr hr' hg
    obtain ⟨hgeo, hbuf, -⟩ := acceptFrame_ok hp hr hg
    obtain ⟨-, hbuf', -⟩ := acceptFrame_ok hp hr' hg'
    have hopen : (acceptFrame frame r').windowOpen = (acceptFrame frame r).windowOpen := by
      obtain ⟨raw', work', he, -⟩ := ha.exists_eq
      rw [he]
      rfl
    rw [feedEffects_none hg, feedEffects_none hg', hopen]
    split
    · exact ⟨rfl, ha⟩
    · rename_i hfull
      have hc : (acceptFrame frame r).c.toNat = 5 :=
        Nat.le_antisymm hgeo.2.2 (Nat.le_of_not_lt fun hlt => hfull ((Regs.windowOpen_iff _).mpr hlt))
      exact ⟨eventsOf_windowEffects_of_agree hbuf hbuf' hc ha, lastRegs_windowEffects_of_agree hbuf hbuf' hc ha
        (acceptFrame frame r) (acceptFrame frame r')⟩

/-- Settles O44, by the commuting lemma for FEED's effects: with room for all records FEED is exactly its effects. -/
theorem unwrittenBytesAreUnobservable : Obligations.UnwrittenBytesAreUnobservable := by
  intro s regs' frame hs hroom hp hr hr' h
  obtain ⟨hev, hagree⟩ := feedEffects_of_agree frame hp hr hr' h
  exact ⟨_, _, execFeed_room hp hr.1 hs hroom frame,
    execFeed_room (s := { s with regs := regs' }) hp hr'.1 hs hroom frame, congrArg (s.evq ++ ·) hev, hagree⟩

end Sys2Proof.Machine
end

section
/-! 20_memory R57, 30_encoding R92: what the host's taking of a record gives, and that it changes nothing else. -/

namespace Sys2Proof.Machine

theorem State.take_of_evq_cons {s : State} {e : Event} {more : List Event} (h : s.evq = e :: more) :
    s.take = { s with evq := more, taken := s.taken ++ [e] } := by
  simp only [State.take, h]

/-- An empty EVQ has nothing to take (log 9). -/
theorem State.take_of_evq_nil {s : State} (h : s.evq = []) : s.take = s := by
  simp only [State.take, h]

/-- Settles O10: the step is the host's take, after its turn is consumed, and EVQ is empty or has a head. -/
theorem takeGivesOldestRecord : Obligations.TakeGivesOldestRecord := by
  intro s rest hscript
  have hstep : step s = .next (s.setScript rest).take := step_host hscript
  rw [hstep]
  constructor
  · intro e more hq
    exact congrArg _ (State.take_of_evq_cons (s := s.setScript rest) hq)
  · intro hq
    exact congrArg _ (State.take_of_evq_nil (s := s.setScript rest) hq)

end Sys2Proof.Machine
end

section
/-! 30_encoding R70 to R75, R90 to R92, 00_scope R14: the header that commands and records share, a byte, a byte and a
big-endian length before the payload, and how it is read back from the stream. -/

namespace Sys2Proof

/-! ## Big-endian words -/

theorem be16_toNat (x y : Byte) : (be16 x y).toNat = x.toNat * 256 + y.toNat := by
  have hx := x.isLt
  have hy := y.isLt
  have hor := Nat.shiftLeft_add_eq_or_of_lt (i := 8) hy x.toNat
  simp only [Nat.shiftLeft_eq] at hor
  simp only [be16, BitVec.toNat_or, BitVec.toNat_shiftLeft, BitVec.toNat_setWidth, Nat.shiftLeft_eq]
  rw [Nat.mod_eq_of_lt (by omega : x.toNat < 2 ^ 16), Nat.mod_eq_of_lt (by omega : y.toNat < 2 ^ 16),
    Nat.mod_eq_of_lt (by omega : x.toNat * 2 ^ 8 < 2 ^ 16), ← hor]

/-- The two bytes of a length in arithmetic, high byte first; a length above 65535 is taken modulo 65536 (log 10). -/
theorem be16Nat_eq (n : Nat) : be16Nat n = [BitVec.ofNat 8 (n / 256), BitVec.ofNat 8 (n % 256)] := by
  have hhigh : (BitVec.ofNat 16 n).extractLsb' 8 8 = BitVec.ofNat 8 (n / 256) := by
    apply BitVec.eq_of_toNat_eq
    simp only [BitVec.extractLsb'_toNat, BitVec.toNat_ofNat, Nat.shiftRight_eq_div_pow]
    omega
  have hlow : (BitVec.ofNat 16 n).extractLsb' 0 8 = BitVec.ofNat 8 (n % 256) := by
    apply BitVec.eq_of_toNat_eq
    simp only [BitVec.extractLsb'_toNat, BitVec.toNat_ofNat, Nat.shiftRight_zero]
    omega
  rw [be16Nat, be16Bytes, hhigh, hlow]

/-- The bytes x, y are BE16 of the length that be16 reads from them. -/
theorem be16Nat_eq_iff {n : Nat} {x y : Byte} (hn : n ≤ 65535) :
    be16Nat n = [x, y] ↔ (be16 x y).toNat = n := by
  have hx := x.isLt
  have hy := y.isLt
  rw [be16Nat_eq, be16_toNat]
  simp only [List.cons.injEq, and_true, BitVec.toNat_eq, BitVec.toNat_ofNat]
  omega

/-- A length that fits 16 bits has two bytes, from which it is read back. -/
theorem exists_be16Nat {n : Nat} (hn : n ≤ 65535) :
    ∃ hi lo : Byte, be16Nat n = [hi, lo] ∧ hi.toNat * 256 + lo.toNat = n :=
  ⟨_, _, be16Nat_eq n, (be16_toNat _ _).symm.trans ((be16Nat_eq_iff hn).mp (be16Nat_eq n))⟩

/-! ## Splitting a command off the stream -/

/-- The stream splits where the payload that LEN announces ends (R70, R71). -/
theorem splitCommand_cons_eq_some_iff {opc rsv hi lo : Byte} {bytes rest : List Byte} {c : Command} :
    splitCommand (opc :: rsv :: hi :: lo :: bytes) = some (c, rest) ↔
      c.opc = opc ∧ c.rsv = rsv ∧ c.payload.length = (be16 hi lo).toNat ∧ bytes = c.payload ++ rest := by
  obtain ⟨copc, crsv, payload⟩ := c
  simp only [splitCommand]
  constructor
  · intro h
    split at h
    · rename_i hlen
      cases h
      exact ⟨rfl, rfl, List.length_take_of_le hlen, (List.take_append_drop _ _).symm⟩
    · cases h
  · rintro ⟨rfl, rfl, hlen, rfl⟩
    rw [← hlen, if_pos (by simp), List.take_left, List.drop_left]

/-- A stream splits into c and rest exactly when it is the bytes of c and then rest, and LEN can carry c's length
(R70, R71). -/
theorem splitCommand_eq_some_iff {bytes rest : List Byte} {c : Command} :
    splitCommand bytes = some (c, rest) ↔ c.payload.length ≤ 65535 ∧ bytes = c.bytes ++ rest := by
  constructor
  · intro h
    match bytes, h with
    | opc :: rsv :: hi :: lo :: more, h =>
      obtain ⟨hopc, hrsv, hlen, rfl⟩ := splitCommand_cons_eq_some_iff.mp h
      have hlt := (be16 hi lo).isLt
      have hle : c.payload.length ≤ 65535 := by omega
      have hbe : be16Nat c.payload.length = [hi, lo] := (be16Nat_eq_iff hle).mpr hlen.symm
      exact ⟨hle, by simp [Command.bytes, hbe, hopc, hrsv]⟩
  · rintro ⟨hle, rfl⟩
    obtain ⟨hi, lo, hbe, hlen⟩ := exists_be16Nat hle
    simp only [Command.bytes, hbe, List.cons_append, List.nil_append]
    exact splitCommand_cons_eq_some_iff.mpr ⟨rfl, rfl, by rw [be16_toNat, hlen], rfl⟩

/-- Settles O3: the bytes of a command with its length in arithmetic. -/
theorem commandIsHeaderAndPayload : Obligations.CommandIsHeaderAndPayload := by
  intro bytes rest c
  rw [splitCommand_eq_some_iff, Command.bytes, be16Nat_eq]
  rfl

/-! ## Decoding -/

theorem legalOpcode_iff {opc : Byte} :
    legalOpcode opc = true ↔
      opc = 0x01#8 ∨ opc = 0x02#8 ∨ opc = 0x03#8 ∨ opc = 0x04#8 ∨ opc = 0x05#8 ∨ opc = 0x06#8 := by
  simp [legalOpcode]

/-- The instruction read from a legal command has that command's opcode and payload. -/
theorem command_instrOf {opc : Byte} {payload : List Byte} (ho : legalOpcode opc = true)
    (hl : legalLength opc payload.length = true) : (instrOf opc payload).command = ⟨opc, 0x00#8, payload⟩ := by
  obtain rfl | rfl | rfl | rfl | rfl | rfl := legalOpcode_iff.mp ho
  case inr.inr.inr.inr.inl | inr.inr.inr.inr.inr =>
    obtain rfl : payload = [] := by simpa [legalLength] using hl
    rfl
  all_goals rfl

theorem instrOf_command (i : Instr) : instrOf i.opcode i.payload = i := by
  cases i <;> rfl

/-- A command decodes to i exactly when it is i's command and its length is legal (R72 to R75). -/
theorem decode_eq_instr_iff {c : Command} {i : Instr} :
    decode c = .instr i ↔ c = i.command ∧ legalLength i.opcode i.payload.length = true := by
  constructor
  · obtain ⟨opc, rsv, payload⟩ := c
    intro h
    unfold decode at h
    split_ifs at h with hopc hrsv hlen
    obtain rfl : instrOf opc payload = i := by simpa using h
    obtain rfl : rsv = 0x00#8 := by simpa using hrsv
    have hl : legalLength opc payload.length = true := by simpa using hlen
    have hc := command_instrOf (by simpa using hopc) hl
    obtain ⟨ho, -, hp⟩ := Command.mk.inj hc
    exact ⟨hc.symm, by rw [ho, hp, hl]⟩
  · rintro ⟨rfl, hl⟩
    have ho : legalOpcode i.opcode = true := by cases i <;> rfl
    simp [decode, Instr.command, ho, hl, instrOf_command]

/-- An instruction is well formed when its length is legal and LEN can carry it (R70, R74). -/
theorem Instr.wellFormed_iff {i : Instr} :
    i.wellFormed = true ↔ legalLength i.opcode i.payload.length = true ∧ i.payload.length ≤ 65535 := by
  cases i with
  | feed frame | fireCrc message | ccittCrc message | readStatus | softReset =>
    simp [Instr.wellFormed, Instr.opcode, Instr.payload, legalLength]
  | rsDecode word =>
    simp only [Instr.wellFormed, Instr.opcode, Instr.payload, legalLength, if_true, beq_iff_eq]
    omega

/-- The stream begins with a command that decodes to i exactly when it begins with i's encoding and i is well
formed. -/
theorem splitCommand_decode_iff {bytes rest : List Byte} {i : Instr} :
    (∃ c, splitCommand bytes = some (c, rest) ∧ decode c = .instr i) ↔
      bytes = encode i ++ rest ∧ i.wellFormed = true := by
  simp only [splitCommand_eq_some_iff, decode_eq_instr_iff, Instr.wellFormed_iff, encode]
  constructor
  · rintro ⟨c, ⟨hlen, hbytes⟩, rfl, hlegal⟩
    exact ⟨hbytes, hlegal, hlen⟩
  · rintro ⟨hbytes, hlegal, hlen⟩
    exact ⟨i.command, ⟨hlen, hbytes⟩, rfl, hlegal⟩

/-- Settles O1, by the round trip read from the encoding. -/
theorem encodedCommandDecodesBack : Obligations.EncodedCommandDecodesBack :=
  fun _ _ hwf => splitCommand_decode_iff.mpr ⟨rfl, hwf⟩

/-- Settles O2, by the round trip read from the stream. -/
theorem decodedCommandEncodesBack : Obligations.DecodedCommandEncodesBack :=
  fun _ _ c _ hsplit hdecode => splitCommand_decode_iff.mp ⟨c, hsplit, hdecode⟩

/-- Table bits laid out as the encoding of a well-formed instruction are that instruction (log 12). -/
theorem decodeTableWord_of_encode {nbits w : Nat} {i : Instr} (hw : tableWordBytes nbits w = encode i)
    (hwf : i.wellFormed = true) : decodeTableWord nbits w = some i := by
  obtain ⟨c, hsplit, hdecode⟩ := encodedCommandDecodesBack i [] hwf
  rw [List.append_nil] at hsplit
  simp only [decodeTableWord, hw, hsplit, hdecode]

/-- A header word of a well-formed instruction whose payload is n bytes 00 is laid out as its encoding (log 12). -/
theorem tableWordBytes_of_header {w n : Nat} {i : Instr} (hpayload : i.payload = List.replicate n 0x00#8)
    (hwf : i.wellFormed = true) (hw : tableBytes (w % 2 ^ 32) 1 = i.opcode :: 0x00#8 :: be16Nat n) :
    tableWordBytes 32 w = encode i := by
  obtain ⟨-, hn⟩ := Instr.wellFormed_iff.mp hwf
  rw [hpayload, List.length_replicate] at hn
  obtain ⟨hi, lo, hbe, hlen⟩ := exists_be16Nat hn
  have hwords : max 1 ((32 + 31) / 32) = 1 := rfl
  rw [hbe] at hw
  simp only [tableWordBytes, hwords, hw]
  simp [encode, Command.bytes, Instr.command, hpayload, hbe, be16_toNat, hlen]

/-- The header word of a well-formed instruction whose payload is n bytes 00 decodes to it. -/
theorem decodeTableWord_of_header {w : Nat} {i : Instr} (n : Nat) (hpayload : i.payload = List.replicate n 0x00#8)
    (hwf : i.wellFormed = true) (hw : tableBytes (w % 2 ^ 32) 1 = i.opcode :: 0x00#8 :: be16Nat n) :
    decodeTableWord 32 w = some i :=
  decodeTableWord_of_encode (tableWordBytes_of_header hpayload hwf hw) hwf

/-- Settles O5: six words are headers of well-formed instructions, and the decoder rejects the other four. -/
theorem specCommandWordsDecode : Obligations.SpecCommandWordsDecode := by
  have hRsDecode : (Instr.rsDecode (List.replicate 120 0x00#8)).wellFormed = true := by simp [Instr.wellFormed]
  exact ⟨decodeTableWord_of_header 0 rfl rfl rfl, decodeTableWord_of_header 0 rfl rfl rfl,
    decodeTableWord_of_header 0 rfl rfl rfl, decodeTableWord_of_header 120 rfl hRsDecode rfl,
    decodeTableWord_of_header 24 rfl rfl rfl, decodeTableWord_of_header 9 rfl rfl rfl, rfl, rfl, rfl, rfl⟩

end Sys2Proof

namespace Sys2Proof.Machine

/-! ## Event records -/

/-- A record's first two bytes, its length and its payload, where ELEN can carry the length (R90). -/
theorem Event.exists_record {e : Event} (he : e.payload.length ≤ 65535) : ∃ hi lo : Byte,
    e.record = e.code.byte :: e.arg :: hi :: lo :: e.payload ∧ hi.toNat * 256 + lo.toNat = e.payload.length := by
  obtain ⟨hi, lo, hbe, hlen⟩ := exists_be16Nat he
  exact ⟨hi, lo, by simp [Event.record, hbe], hlen⟩

/-- Settles O53: the header of a record, and the table of codes. -/
theorem recordIsHeaderAndPayload : Obligations.RecordIsHeaderAndPayload :=
  ⟨fun _ => Event.exists_record, rfl⟩

/-- The table of R91 read backwards. -/
def EvCode.ofByte (b : Byte) : Option EvCode :=
  [EvCode.format, .pad, .padReset, .au, .frameReject, .rsStatus, .syncStart, .syncOk, .auCrcErr, .crc, .rsResult,
    .status, .cmdErr].find? (·.byte = b)

theorem EvCode.ofByte_byte (code : EvCode) : EvCode.ofByte code.byte = some code := by
  cases code <;> rfl

theorem EvCode.byte_injective : Function.Injective EvCode.byte := fun a b h =>
  Option.some.inj (by rw [← a.ofByte_byte, h, b.ofByte_byte])

/-- What begins with the bytes of a record begins with no other record's (R90). -/
theorem Event.record_append_inj {e f : Event} {xs ys : List Byte} (he : e.payload.length ≤ 65535)
    (hf : f.payload.length ≤ 65535) (h : e.record ++ xs = f.record ++ ys) : e = f ∧ xs = ys := by
  obtain ⟨hi, lo, hre, hlen⟩ := Event.exists_record he
  obtain ⟨hi', lo', hrf, hlen'⟩ := Event.exists_record hf
  simp only [hre, hrf, List.cons_append, List.cons.injEq] at h
  obtain ⟨hcode, harg, rfl, rfl, hrest⟩ := h
  obtain ⟨hpayload, hxs⟩ := List.append_inj hrest (hlen.symm.trans hlen')
  cases e
  cases f
  cases EvCode.byte_injective hcode
  cases harg
  cases hpayload
  exact ⟨rfl, hxs⟩

theorem Event.record_ne_nil (e : Event) : e.record ≠ [] :=
  List.cons_ne_nil _ _

/-- Settles O54, by induction on the records of one list: the first record of each is the same, and so is the rest. -/
theorem eventBytesDetermineRecords : Obligations.EventBytesDetermineRecords := by
  intro es fs hfits h
  induction es generalizing fs with
  | nil =>
    cases fs with
    | nil => rfl
    | cons f fs => exact absurd (List.append_eq_nil_iff.mp h.symm).1 f.record_ne_nil
  | cons e es ih =>
    cases fs with
    | nil => exact absurd (List.append_eq_nil_iff.mp h).1 e.record_ne_nil
    | cons f fs =>
      simp only [List.flatMap_cons] at h
      obtain ⟨rfl, hmore⟩ := Event.record_append_inj (hfits e (by simp)) (hfits f (by simp)) h
      have htail : ∀ x ∈ es ++ fs, x.payload.length ≤ 65535 := fun x hx =>
        hfits x (by simp only [List.mem_append, List.mem_cons] at hx ⊢; tauto)
      rw [ih fs htail hmore]

end Sys2Proof.Machine
end

section
/-! 30_encoding R84 to R86: the format byte and the packed offsets in arithmetic. -/

namespace Sys2Proof.Machine

theorem offsetHigh_eq (x y : Byte) : offsetHigh x y = x.toNat * 16 + y.toNat / 16 := by
  have hx := x.isLt
  have hy := y.isLt
  have hor := Nat.shiftLeft_add_eq_or_of_lt (i := 4) (b := y.toNat / 16) (by omega) x.toNat
  simp only [Nat.shiftLeft_eq] at hor
  simp only [offsetHigh, BitVec.toNat_or, BitVec.toNat_shiftLeft, BitVec.toNat_ushiftRight, BitVec.toNat_setWidth,
    Nat.shiftLeft_eq, Nat.shiftRight_eq_div_pow]
  rw [Nat.mod_eq_of_lt (by omega : x.toNat < 2 ^ 12), Nat.mod_eq_of_lt (by omega : y.toNat < 2 ^ 12),
    Nat.mod_eq_of_lt (by omega : x.toNat * 2 ^ 4 < 2 ^ 12)]
  exact hor.symm

theorem offsetLow_eq (x y : Byte) : offsetLow x y = x.toNat % 16 * 256 + y.toNat := by
  have hy := y.isLt
  have hor := Nat.shiftLeft_add_eq_or_of_lt (i := 8) hy (x.toNat % 16)
  have hmask : (x &&& 0x0F#8).toNat = x.toNat % 16 := Nat.and_two_pow_sub_one_eq_mod x.toNat 4
  simp only [Nat.shiftLeft_eq] at hor
  simp only [offsetLow, BitVec.toNat_or, BitVec.toNat_shiftLeft, BitVec.toNat_setWidth, Nat.shiftLeft_eq, hmask]
  rw [Nat.mod_eq_of_lt (by omega : x.toNat % 16 < 2 ^ 12), Nat.mod_eq_of_lt (by omega : y.toNat < 2 ^ 12),
    Nat.mod_eq_of_lt (by omega : x.toNat % 16 * 2 ^ 8 < 2 ^ 12)]
  exact hor.symm

/-- Bit i of a byte in arithmetic. -/
theorem getLsbD_eq_decide (b : Byte) (i : Nat) : b.getLsbD i = decide (b.toNat / 2 ^ i % 2 = 1) :=
  Nat.testBit_eq_decide_div_mod_eq

theorem fmt_dacRate (b : Byte) : (fmt b).dacRate = decide (b.toNat / 64 % 2 = 1) := getLsbD_eq_decide b 6

theorem fmt_sbrFlag (b : Byte) : (fmt b).sbrFlag = decide (b.toNat / 32 % 2 = 1) := getLsbD_eq_decide b 5

/-- Settles O26, by the four rows of R85. -/
theorem auTableReadsPackedFields : Obligations.AuTableReadsPackedFields := by
  intro w k
  obtain hd | hd := Nat.mod_two_eq_zero_or_one ((Memory.read w 2).toNat / 64) <;>
    obtain hs | hs := Nat.mod_two_eq_zero_or_one ((Memory.read w 2).toNat / 32) <;>
    simp [auTable, packedOffsets, auCount, firstOffset, offsetHigh_eq, offsetLow_eq, fmt_dacRate, fmt_sbrFlag, hd, hs]

end Sys2Proof.Machine
end

section
/-! 40_crc R110 to R120: the CRC engine is linear in register and data together, runs backwards, and shifts its own
register out. -/

namespace Sys2Proof.Machine

/-! ## One bit -/

/-- The register after one data bit (40_crc R110). -/
def crcStep (poly crc : Word16) (bit : Bool) : Word16 :=
  (crc <<< 1) ^^^ if bit ^^ crc.getLsbD 15 then poly else 0#16

@[simp] theorem crcBits_nil (poly crc : Word16) : crcBits poly crc [] = crc := rfl

@[simp] theorem crcBits_cons (poly crc : Word16) (bit : Bool) (rest : List Bool) :
    crcBits poly crc (bit :: rest) = crcBits poly (crcStep poly crc bit) rest := by
  rw [crcBits, crcStep]
  split <;> simp

theorem feedback_xor (poly : Word16) (p q : Bool) :
    (if p ^^ q then poly else 0#16) = (if p then poly else 0#16) ^^^ if q then poly else 0#16 := by
  cases p <;> cases q <;> simp

theorem crcStep_xor (poly c d : Word16) (x y : Bool) :
    crcStep poly (c ^^^ d) (x ^^ y) = crcStep poly c x ^^^ crcStep poly d y := by
  simp only [crcStep, BitVec.getLsbD_xor, BitVec.shiftLeft_xor_distrib, feedback_xor]
  ac_rfl

/-- With x^0 in the generator, bit 0 of the register is the feedback of the last step. -/
theorem getLsbD_zero_crcStep {poly : Word16} (hpoly : poly.getLsbD 0 = true) (crc : Word16) (bit : Bool) :
    (crcStep poly crc bit).getLsbD 0 = (bit ^^ crc.getLsbD 15) := by
  rw [crcStep, BitVec.getLsbD_xor]
  cases bit ^^ crc.getLsbD 15 <;> simp [hpoly]

/-- The feedback tells which bit was shifted out, so a step can be undone. -/
theorem crcStep_injective {poly : Word16} (hpoly : poly.getLsbD 0 = true) (bit : Bool) :
    Function.Injective (crcStep poly · bit) := by
  intro c d h
  have htop : c.getLsbD 15 = d.getLsbD 15 := by
    have hbit := congrArg (BitVec.getLsbD · 0) h
    simp only [getLsbD_zero_crcStep hpoly] at hbit
    exact Bool.xor_right_inj.mp hbit
  simp only [crcStep, htop, BitVec.xor_left_inj] at h
  apply BitVec.eq_of_getLsbD_eq
  intro i hi
  obtain rfl | hlow : i = 15 ∨ i + 1 < 16 := by omega
  · exact htop
  · have hbit := congrArg (BitVec.getLsbD · (i + 1)) h
    simpa [BitVec.getLsbD_shiftLeft, hlow, -BitVec.getLsbD_eq_getElem] using hbit

/-! ## A string of bits -/

theorem crcBits_append (poly crc : Word16) (xs ys : List Bool) :
    crcBits poly crc (xs ++ ys) = crcBits poly (crcBits poly crc xs) ys := by
  induction xs generalizing crc with
  | nil => rfl
  | cons x xs ih => simp [ih]

theorem crcBits_zipWith_xor (poly c d : Word16) {xs ys : List Bool} (h : xs.length = ys.length) :
    crcBits poly (c ^^^ d) (List.zipWith (· ^^ ·) xs ys) = crcBits poly c xs ^^^ crcBits poly d ys := by
  induction xs generalizing ys c d with
  | nil => cases List.length_eq_zero_iff.mp h.symm; rfl
  | cons x xs ih =>
    obtain ⟨y, ys, rfl⟩ := List.exists_cons_of_length_eq_add_one h.symm
    simp [crcStep_xor, ih _ _ (Nat.succ.inj h)]

theorem crcBits_injective {poly : Word16} (hpoly : poly.getLsbD 0 = true) (bits : List Bool) :
    Function.Injective (crcBits poly · bits) := by
  induction bits with
  | nil => exact fun _ _ h => h
  | cons bit bits ih =>
    intro c d h
    simp only [crcBits_cons] at h
    exact crcStep_injective hpoly bit (ih h)

/-- Data equal to the register's own top bits leaves the feedback at 0: the register is only shifted. -/
theorem crcBits_topBits (poly w : Word16) {n : Nat} (hn : n ≤ 16) :
    crcBits poly w ((List.range n).map fun i => w.getLsbD (15 - i)) = w <<< n := by
  induction n with
  | zero => simp
  | succ n ih =>
    have htop : (w <<< n).getLsbD 15 = w.getLsbD (15 - n) := by
      rw [BitVec.getLsbD_shiftLeft]
      simp [show ¬ 15 < n by omega]
    rw [List.range_succ, List.map_append, crcBits_append, ih (by omega)]
    simp only [List.map_cons, List.map_nil, crcBits_cons, crcBits_nil, crcStep, htop]
    simp [BitVec.shiftLeft_add]

/-! ## A string of bytes -/

theorem byteBits_xor (x y : Byte) : byteBits (x ^^^ y) = List.zipWith (· ^^ ·) (byteBits x) (byteBits y) := by
  simp [byteBits]

theorem flatMap_byteBits_zipWith_xor {a b : List Byte} (h : a.length = b.length) :
    (List.zipWith (· ^^^ ·) a b).flatMap byteBits =
      List.zipWith (· ^^ ·) (a.flatMap byteBits) (b.flatMap byteBits) := by
  induction a generalizing b with
  | nil => rfl
  | cons x a ih =>
    obtain ⟨y, b, rfl⟩ := List.exists_cons_of_length_eq_add_one h.symm
    simp only [List.zipWith_cons_cons, List.flatMap_cons, byteBits_xor, ih (Nat.succ.inj h)]
    exact (List.zipWith_append (by simp [byteBits])).symm

theorem length_flatMap_byteBits (a : List Byte) : (a.flatMap byteBits).length = a.length * 8 := by
  simp [List.length_flatMap, byteBits]

theorem flatMap_byteBits_be16Bytes (w : Word16) :
    (be16Bytes w).flatMap byteBits = (List.range 16).map fun i => w.getLsbD (15 - i) := by
  simp [be16Bytes, byteBits, List.range_succ]

/-- The engine is linear in its two constants and the data together (40_crc R116). -/
theorem crc16_zipWith_xor (poly i j x y : Word16) {a b : List Byte} (h : a.length = b.length) :
    crc16 poly (i ^^^ j) (x ^^^ y) (List.zipWith (· ^^^ ·) a b) = crc16 poly i x a ^^^ crc16 poly j y b := by
  have hbits : (a.flatMap byteBits).length = (b.flatMap byteBits).length := by
    rw [length_flatMap_byteBits, length_flatMap_byteBits, h]
  rw [crc16, flatMap_byteBits_zipWith_xor h, crcBits_zipWith_xor poly i j hbits, crc16, crc16]
  ac_rfl

theorem crc16_append (poly init xorOut : Word16) (a b : List Byte) :
    crc16 poly init xorOut (a ++ b) = crc16 poly (crc16 poly init 0#16 a) xorOut b := by
  simp [crc16, crcBits_append]

theorem crc16_init_inj {poly : Word16} (hpoly : poly.getLsbD 0 = true) {i j xorOut : Word16} {a : List Byte} :
    crc16 poly i xorOut a = crc16 poly j xorOut a ↔ i = j := by
  rw [crc16, crc16, BitVec.xor_left_inj]
  exact (crcBits_injective hpoly _).eq_iff

/-- The register's own bytes bring it to 0. -/
theorem crc16_be16Bytes_self (poly w : Word16) : crc16 poly w 0#16 (be16Bytes w) = 0#16 := by
  rw [crc16, flatMap_byteBits_be16Bytes, crcBits_topBits poly w (le_refl 16)]
  simp

theorem zipWith_xor_replicate_zero {a : List Byte} {n : Nat} (h : a.length = n) :
    List.zipWith (· ^^^ ·) a (List.replicate n 0x00#8) = a := by
  subst h
  induction a with
  | nil => rfl
  | cons x a ih => simpa [List.replicate_succ] using ih

theorem fire_zipWith_xor {a b : List Byte} (h : a.length = b.length) :
    fire Params.default (List.zipWith (· ^^^ ·) a b) = fire Params.default a ^^^ fire Params.default b :=
  crc16_zipWith_xor Params.default.firePoly 0#16 0#16 0#16 0#16 h

/-- A string of zeros is its own XOR with itself. -/
theorem fire_zeros (n : Nat) : fire Params.default (List.replicate n 0x00#8) = 0#16 := by
  have h := fire_zipWith_xor (a := List.replicate n 0x00#8) rfl
  rwa [zipWith_xor_replicate_zero List.length_replicate, BitVec.xor_self] at h

/-- Settles O18: each constant is the XOR of three copies of itself, and a ^ b that of a, b and zeros. -/
theorem crcIsLinear : Obligations.CrcIsLinear := by
  refine ⟨fun poly init xorOut a b h => ?_, fire_zeros, fun _ _ => fire_zipWith_xor⟩
  have hlen : (List.zipWith (· ^^^ ·) a b).length = a.length := by simp [h]
  have h3 := crc16_zipWith_xor poly (init ^^^ init) init (xorOut ^^^ xorOut) xorOut
    (hlen.trans (List.length_replicate (a := 0x00#8)).symm)
  rwa [zipWith_xor_replicate_zero hlen, crc16_zipWith_xor poly init init xorOut xorOut h, BitVec.xor_self,
    BitVec.xor_self, BitVec.zero_xor, BitVec.zero_xor] at h3

/-! ## The residue -/

/-- A register that differs from xorOut by the data makes of it what xorOut makes of two zero bytes. -/
theorem crc16_be16Bytes_residue (poly xorOut w : Word16) :
    crc16 poly (xorOut ^^^ w) xorOut (be16Bytes w) = crc16 poly xorOut xorOut (List.replicate 2 0x00#8) := by
  have h := crc16_zipWith_xor poly w xorOut 0#16 xorOut (a := be16Bytes w) (b := List.replicate 2 0x00#8) rfl
  rwa [zipWith_xor_replicate_zero (n := 2) rfl, crc16_be16Bytes_self, BitVec.zero_xor, BitVec.zero_xor,
    BitVec.xor_comm] at h

/-- A message and a stored word give the residue exactly when the word is the message's CRC (40_crc R120). -/
theorem crc16_append_be16Bytes_eq_residue_iff {poly : Word16} (hpoly : poly.getLsbD 0 = true)
    (init xorOut stored : Word16) (m : List Byte) :
    crc16 poly init xorOut (m ++ be16Bytes stored) = crc16 poly xorOut xorOut (List.replicate 2 0x00#8) ↔
      stored = crc16 poly init xorOut m := by
  have hm : crc16 poly init 0#16 m = xorOut ^^^ crc16 poly init xorOut m := by simp [crc16]
  rw [crc16_append, ← crc16_be16Bytes_residue poly xorOut stored, crc16_init_inj hpoly, hm, BitVec.xor_right_inj,
    eq_comm]

/-- Settles O19: the residues of the default constants are 0 and E2F0, and both generators have x^0. -/
theorem crcResiduesAgree : Obligations.CrcResiduesAgree := by
  intro m stored
  have hccitt : crc16 ccittPoly 0xFFFF#16 0xFFFF#16 (List.replicate 2 0x00#8) = 0xE2F0#16 := by decide
  constructor
  · rw [← fire_zeros 2]
    exact crc16_append_be16Bytes_eq_residue_iff rfl _ _ stored m
  · rw [← hccitt]
    exact crc16_append_be16Bytes_eq_residue_iff rfl _ _ stored m

/-! ## The commands -/

/-- Performing one emit with room for it, no command in progress. -/
theorem perform_emit (e : Event) (s : State) (hs : s.held = []) (hroom : s.room 1) :
    perform [.emit e] s = .next { s with evq := s.evq ++ [e] } :=
  perform_room [.emit e] s hs hroom

/-- Settles O16: the command performs one emit. -/
theorem fireCrcEmitsItsResult : Obligations.FireCrcEmitsItsResult :=
  fun s message => perform_emit (evCrc 0x02#8 (fire s.params message)) s

/-- Settles O17: the command performs one emit. -/
theorem ccittCrcEmitsItsResult : Obligations.CcittCrcEmitsItsResult :=
  fun s message => perform_emit (evCrc 0x03#8 (ccitt s.params message)) s

end Sys2Proof.Machine
end

section
/-! 41_reed_solomon R130 to R146: the powers of α, the laws that rsDecode's answers obey, the result that RS_DECODE
emits, and the pass over a window, which decodes its codewords one after another without disturbing the others. -/

namespace Sys2Proof.Machine

/-! ## Powers of α (R130) -/

theorem alpha_of_lt {e : Nat} (he : e < 255) : alpha e = alphaPow e := by rw [alpha, Nat.mod_eq_of_lt he]

theorem gmul_alpha (i j : Nat) : gmul (alpha i) (alpha j) = alpha (i + j) := by
  obtain ⟨F, _, φ, h⟩ := exists_byteField
  apply h.inj
  rw [h.mul, h.alpha, h.alpha, h.alpha, pow_add]

/-- Settles O20: in the field, alpha is a power of φ 02, of order 255. -/
theorem powersOfAlphaMultiply : Obligations.PowersOfAlphaMultiply := by
  refine ⟨gmul_alpha, fun b hb => ?_⟩
  obtain ⟨e, he, rfl⟩ := exists_alphaPow hb
  exact ⟨e, he, alpha_of_lt he, fun e' he' h => alphaPow_inj he' he ((alpha_of_lt he').symm.trans h)⟩

/-! ## Distance (R134) -/

@[simp] theorem dist_nil : Machine.dist [] [] = 0 := rfl

@[simp] theorem dist_cons (a b : Byte) (u v : List Byte) :
    Machine.dist (a :: u) (b :: v) = Machine.dist u v + if a = b then 0 else 1 := by
  by_cases hab : a = b <;> simp [Machine.dist, hab]

@[simp] theorem dist_self (u : List Byte) : Machine.dist u u = 0 := by
  induction u with
  | nil => rfl
  | cons a u ih => simp [ih]

/-- Words of one length at distance 0 are equal. -/
theorem eq_of_dist_eq_zero {u v : List Byte} (hlen : u.length = v.length) (h : Machine.dist u v = 0) : u = v := by
  induction u generalizing v with
  | nil => exact (List.length_eq_zero_iff.mp hlen.symm).symm
  | cons a u ih =>
    obtain ⟨b, v, rfl⟩ := List.exists_cons_of_length_eq_add_one hlen.symm
    rw [dist_cons] at h
    obtain ⟨htail, hhead⟩ := Nat.add_eq_zero_iff.mp h
    rw [ih (Nat.succ.inj hlen) htail, show a = b by simpa using hhead]

theorem dist_modify_xor {c : List Byte} {pos : Nat} {e : Byte} (hpos : pos < c.length) (he : e ≠ 0x00#8) :
    Machine.dist (c.modify pos (· ^^^ e)) c = 1 := by
  induction c generalizing pos with
  | nil => simp at hpos
  | cons a c ih =>
    cases pos with
    | zero => simp [he]
    | succ pos => simp [ih (Nat.lt_of_succ_lt_succ hpos)]

/-! ## The laws of rsDecode (R134) -/

theorem rsDecode_of_isCodeword (p : Params) {word : List Byte} (h : isCodeword word = true) :
    rsDecode p word = .corrected 0 word := if_pos h

theorem rsDecode_of_rsNearest (p : Params) {word c : List Byte} (hno : isCodeword word = false)
    (hnear : rsNearest word = some c) : rsDecode p word = .corrected (Machine.dist word c) c := by
  simp [rsDecode, hno, hnear]

/-- Settles O21, by the three branches of rsDecode: count 0 in the second would make the word the codeword answered. -/
theorem rsAnswersObeyLaws1And3 : Obligations.RsAnswersObeyLaws1And3 := by
  intro p word hlen
  refine ⟨rsDecode_of_isCodeword p, fun count w h => ⟨rsDecode_length p hlen h, rsDecode_count_le p h, ?_⟩⟩
  obtain ⟨hc, rfl, rfl⟩ | ⟨hno, -, hw, rfl, -⟩ | ⟨hno, -, hpos, -, -, hdist⟩ := rsDecode_cases p h
  · simp [hc]
  · refine ⟨Nat.le_refl _, fun h0 => ?_, fun hc => by simp [hno] at hc⟩
    rwa [eq_of_dist_eq_zero (hlen.trans (isCodeword_length hw).symm) h0]
  · exact ⟨hdist, fun h0 => by omega, fun hc => by simp [hno] at hc⟩

/-- Settles O51: the reference decoder answers the codeword, so it is the nearest one found. -/
theorem restoredWithinFiveErrors : Obligations.RestoredWithinFiveErrors := by
  intro p c word hc hlen h1 h5
  obtain ⟨href, hno⟩ := rsDecodeRef_restores hlen hc h1 h5
  exact rsDecode_of_rsNearest p hno (by simp [rsNearest, href, hc, h5])

/-- Settles O22: one changed byte is distance 1. -/
theorem singleByteErrorIsCorrected : Obligations.SingleByteErrorIsCorrected := by
  intro p c pos e hc hpos he
  have hlen := isCodeword_length hc
  have hdist := dist_modify_xor (hlen.symm ▸ hpos) he
  have h := restoredWithinFiveErrors p c (c.modify pos (· ^^^ e)) hc (by rw [List.length_modify, hlen])
    (by omega) (by omega)
  rwa [hdist] at h

/-! ## Records (R142, R145) -/

/-- Settles O23: either way the command performs one emit. -/
theorem rsDecodeEmitsItsResult : Obligations.RsDecodeEmitsItsResult := by
  intro s word hs hroom
  have hexec (hlen : word.length = 120) :
      exec (.rsDecode word) s = perform [.emit (evRsResult word (rsDecode s.params word))] s := if_pos hlen
  refine ⟨fun hlen count w hd => ?_, fun hlen hd => ?_, fun hlen => ?_⟩
  · rw [hexec hlen, hd]
    exact perform_emit _ s hs hroom
  · rw [hexec hlen, hd]
    exact perform_emit _ s hs hroom
  · exact (if_neg hlen).trans (perform_emit (evCmdErr .badLength 0x04#8 0x00#8) s hs hroom)

/-- Settles O41: RS_CORR below 65536 fits the two bytes of the payload. -/
theorem rsStatusOnlyWhenSomethingHappened : Obligations.RsStatusOnlyWhenSomethingHappened := by
  intro r hcorr
  refine ⟨fun h0 hunc => by simp [rsStatusEvents, h0, hunc], fun h => ?_⟩
  obtain ⟨hi, lo, hbytes, hvalue⟩ := exists_be16Nat (Nat.le_of_lt_succ hcorr)
  rw [be16Nat, BitVec.ofNat_toNat] at hbytes
  refine ⟨if r.rsUncorr then 0x01#8 else 0x00#8, hi, lo, ?_, ?_, hvalue⟩
  · rw [rsStatusEvents, if_pos h, evRsStatus, hbytes]
  · cases r.rsUncorr <;> rfl

/-! ## Interleaving (R138) -/

theorem extractWord_congr {m m' : Memory} {k i : Nat}
    (h : ∀ pos, pos < 120 → Memory.read m (pos * k + i) = Memory.read m' (pos * k + i)) :
    extractWord m k i = extractWord m' k i :=
  List.map_congr_left fun pos hpos => h pos (List.mem_range.mp hpos)

theorem extractWord_insertWord_same {m : Memory} (hm : Memory.wf m) {k i : Nat} (hi : i < k) {w : List Byte}
    (hw : w.length = 120) : extractWord (insertWord m k i w) k i = w := by
  apply List.ext_getElem (by simp [hw])
  intro pos h1 h2
  rw [getElem_extractWord, read_insertWord_at hm (Nat.zero_lt_of_lt hi) w (hw ▸ h2), List.getD_eq_getElem _ _ h2]

theorem extractWord_insertWord_other (m : Memory) {k i j : Nat} (hi : i < k) (hj : j < k) (hji : j ≠ i)
    (w : List Byte) : extractWord (insertWord m k i w) k j = extractWord m k j :=
  extractWord_congr fun _ _ => read_insertWord_off m k i w fun _ _ => codeword_index_ne hj hi hji

/-- Settles O24: the positions of different codewords are different indices, all below 120·K. -/
theorem interleavedCodewordsAreDisjoint : Obligations.InterleavedCodewordsAreDisjoint :=
  fun m k i _ w hm hi hj hw =>
    ⟨extractWord_insertWord_same hm hi hw, fun hji => extractWord_insertWord_other m hi hj hji w,
      fun _ ha => read_insertWord_off m k i w fun _ hp =>
        Nat.ne_of_gt (Nat.lt_of_lt_of_le (codeword_index_lt hi hp) ha)⟩

/-! ## The pass (R140, R141) -/

/-- What the pass leaves in WORK for a codeword that was `sent`. -/
def restoredWord (sent : List Byte) : RsResult → List Byte
  | .corrected _ w => w
  | .uncorrectable => sent

/-- What an answer adds to the total. -/
def correctedCount : RsResult → Nat
  | .corrected count _ => count
  | .uncorrectable => 0

theorem passWord_corrected {p : Params} {k i count : Nat} {st : PassState} {w : List Byte}
    (h : rsDecode p (extractWord st.work k i) = .corrected count w) :
    passWord p k st i = ⟨insertWord st.work k i w, st.corr + count, st.unc⟩ := by simp only [passWord, h]

theorem passWord_uncorrectable {p : Params} {k i : Nat} {st : PassState}
    (h : rsDecode p (extractWord st.work k i) = .uncorrectable) : passWord p k st i = ⟨st.work, st.corr, true⟩ := by
  simp only [passWord, h]

theorem passWord_corr (p : Params) (k i : Nat) (st : PassState) :
    (passWord p k st i).corr = st.corr + correctedCount (rsDecode p (extractWord st.work k i)) := by
  cases h : rsDecode p (extractWord st.work k i) with
  | corrected count w => rw [passWord_corrected h, correctedCount]
  | uncorrectable => rw [passWord_uncorrectable h, correctedCount, Nat.add_zero]

theorem passWord_unc (p : Params) (k i : Nat) (st : PassState) :
    (passWord p k st i).unc = (st.unc || rsDecode p (extractWord st.work k i) == .uncorrectable) := by
  cases h : rsDecode p (extractWord st.work k i) with
  | corrected count w => simp [passWord_corrected h]
  | uncorrectable => simp [passWord_uncorrectable h]

theorem passWord_wf (p : Params) (k i : Nat) {st : PassState} (hwf : Memory.wf st.work) :
    Memory.wf (passWord p k st i).work := by
  cases h : rsDecode p (extractWord st.work k i) with
  | corrected count w => simpa only [passWord_corrected h] using insertWord_wf hwf k i w
  | uncorrectable => rwa [passWord_uncorrectable h]

theorem extractWord_passWord_same (p : Params) {k i : Nat} (hi : i < k) {st : PassState} (hwf : Memory.wf st.work) :
    extractWord (passWord p k st i).work k i =
      restoredWord (extractWord st.work k i) (rsDecode p (extractWord st.work k i)) := by
  cases h : rsDecode p (extractWord st.work k i) with
  | corrected count w =>
    have hw : w.length = 120 := rsDecode_length p (length_extractWord _ _ _) h
    simpa only [passWord_corrected h, restoredWord] using extractWord_insertWord_same hwf hi hw
  | uncorrectable => rw [passWord_uncorrectable h, restoredWord]

theorem extractWord_passWord_other (p : Params) {k i j : Nat} (hi : i < k) (hj : j < k) (hji : j ≠ i)
    (st : PassState) : extractWord (passWord p k st i).work k j = extractWord st.work k j := by
  cases h : rsDecode p (extractWord st.work k i) with
  | corrected count w =>
    simpa only [passWord_corrected h] using extractWord_insertWord_other st.work hi hj hji w
  | uncorrectable => rw [passWord_uncorrectable h]

/-- The state of a pass over the codewords `sent` when the first n of them are decoded. -/
structure PassedUpTo (p : Params) (k : Nat) (sent : Nat → List Byte) (n : Nat) (st : PassState) : Prop where
  wf : Memory.wf st.work
  decoded : ∀ i, i < n → extractWord st.work k i = restoredWord (sent i) (rsDecode p (sent i))
  pending : ∀ i, n ≤ i → i < k → extractWord st.work k i = sent i
  corr : st.corr = ((List.range n).map fun i => correctedCount (rsDecode p (sent i))).sum
  unc : st.unc = (List.range n).any fun i => rsDecode p (sent i) == .uncorrectable

/-- Codeword n is still as it was sent, and decoding it leaves the others alone. -/
theorem PassedUpTo.passWord {p : Params} {k n : Nat} {sent : Nat → List Byte} {st : PassState}
    (h : PassedUpTo p k sent n st) (hn : n < k) : PassedUpTo p k sent (n + 1) (passWord p k st n) := by
  have hsent := h.pending n (Nat.le_refl n) hn
  refine ⟨passWord_wf p k n h.wf, fun i hi => ?_, fun i hni hi => ?_, ?_, ?_⟩
  · obtain rfl | hlt := Nat.eq_or_lt_of_le (Nat.le_of_lt_succ hi)
    · rw [extractWord_passWord_same p hn h.wf, hsent]
    · rw [extractWord_passWord_other p hn (by omega) (by omega), h.decoded i hlt]
  · rw [extractWord_passWord_other p hn hi (by omega), h.pending i (by omega) hi]
  · simp [passWord_corr, hsent, h.corr, List.range_succ]
  · simp [passWord_unc, hsent, h.unc, List.range_succ]

theorem passedUpTo_foldl (p : Params) {k n : Nat} {sent : Nat → List Byte} {work : Memory} (hwf : Memory.wf work)
    (hsent : ∀ i, i < k → extractWord work k i = sent i) (hn : n ≤ k) :
    PassedUpTo p k sent n ((List.range n).foldl (Machine.passWord p k) ⟨work, 0, false⟩) := by
  induction n with
  | zero => exact ⟨hwf, fun _ hi => absurd hi (Nat.not_lt_zero _), fun i _ => hsent i, rfl, rfl⟩
  | succ n ih =>
    rw [List.range_succ, List.foldl_append]
    exact (ih (Nat.le_of_succ_le hn)).passWord hn

/-- Inside the window the copy makes WORK equal to RAW (42_superframe R166). -/
theorem read_copyWindow_work {r : Regs} (h : Memory.wf r.work) {a : Nat} (ha : a < framesPerSf * r.len) :
    Memory.read (copyWindow r).work a = Memory.read r.raw a := by
  have hblock := Memory.read_writeBlock_same h 0 a (Memory.readBlock r.raw 0 (framesPerSf * r.len))
    (by rwa [Memory.length_readBlock])
  rwa [Memory.getElem_readBlock, Nat.zero_add] at hblock

theorem extractWord_copyWindow_work {r : Regs} (h : Memory.wf r.work) (hlen : legalLen r.len = true) {i : Nat}
    (hi : i < r.k) : extractWord (copyWindow r).work r.k i = extractWord r.raw r.k i :=
  extractWord_congr fun _ hpos =>
    read_copyWindow_work h (Nat.lt_of_lt_of_eq (codeword_index_lt hi hpos) (codewords_fill hlen).1)

/-- A window has so few codewords that the total of a pass fits RS_CORR. -/
theorem passWords_corr_lt (p : Params) {r : Regs} (hr : r.buffersOk) (hlen : legalLen r.len = true) :
    (passWords p r.k (copyWindow r).work).corr < 2 ^ 32 := by
  obtain ⟨-, hwork, -, hworkb⟩ := hr
  have hfill : 120 * r.k = framesPerSf * r.len := (codewords_fill hlen).1
  have hbelow : Memory.within (copyWindow r).work (framesPerSf * r.len) :=
    Memory.writeBlock_below hworkb _ (by simp)
  obtain ⟨-, -, hcorr⟩ :=
    passWords_ok p (Memory.writeBlock_wf hwork _ _) hbelow (Nat.le_of_eq hfill) r.k (Nat.le_refl _)
  have hl := r.l.isLt
  rw [framesPerSf, Regs.len] at hfill
  exact Nat.lt_of_le_of_lt hcorr (by omega)

/-- Settles O25: WORK starts the pass with RAW's codewords, the pass goes up to K, and the total fits RS_CORR. -/
theorem passDecodesEveryCodeword : Obligations.PassDecodesEveryCodeword := by
  intro p r hr hlen
  have hwork : Memory.wf r.work := hr.2.1
  have hpass : PassedUpTo p r.k (extractWord r.raw r.k) r.k (passWords p r.k (copyWindow r).work) :=
    passedUpTo_foldl p (Memory.writeBlock_wf hwork _ _) (fun _ => extractWord_copyWindow_work hwork hlen)
      (Nat.le_refl _)
  have hcorr : (evaluateWindow p r).rsCorr.toNat = (passWords p r.k (copyWindow r).work).corr :=
    Nat.mod_eq_of_lt (passWords_corr_lt p hr hlen)
  exact ⟨hpass.decoded, hcorr.trans hpass.corr, hpass.unc, rfl⟩

end Sys2Proof.Machine
end

section
/-! 42_superframe R160 to R178, 43_sync_and_au R200: what one FEED does to the registers, to RAW and to EVQ, first for
a frame that the gate rejects, then for one that leaves the window open, then for one that completes it. -/

namespace Sys2Proof.Machine

/-! ## Step 1: the gate (R161, R162) -/

/-- A frame that the gate rejects is reported, and nothing else happens. -/
theorem execFeed_rejected {s : State} {frame : List Byte} {why : FrameReject}
    (hg : feedGate s.params s.regs frame.length = some why) (hs : s.held = []) (hroom : s.room 1) :
    exec (.feed frame) s = .next { s with evq := s.evq ++ [evFrameReject why frame.length] } := by
  have hbounds : feedInBounds s.params frame s.regs = true := by simp [feedInBounds, hg]
  have hexec : exec (.feed frame) s = perform (feedEffects s.params frame s.regs) s := if_pos hbounds
  rw [hexec, feedEffects_some hg, perform_emit _ s hs hroom]

theorem feedGate_unlatched {p : Params} {r : Regs} {n : Nat} (hl : r.latched = false) :
    feedGate p r n = if 10 ≤ n ∧ 5 * n % 120 = 0 ∧ n ≤ p.lMax then none else some .badLength := by
  have hok : firstFrameOk p n = true ↔ 10 ≤ n ∧ 5 * n % 120 = 0 ∧ n ≤ p.lMax := by
    rw [firstFrameOk_iff, legalLen_iff]
    omega
  rw [feedGate, hl, if_neg Bool.false_ne_true, if_congr hok rfl rfl]

theorem feedGate_latched {p : Params} {r : Regs} {n : Nat} (hl : r.latched = true) :
    feedGate p r n = if n = r.len then none else some .lenMismatch := by
  rw [feedGate, if_pos hl]

/-- Settles O34: the gate's answer is BAD_LENGTH. -/
theorem firstFrameOfBadLengthIsRejected : Obligations.FirstFrameOfBadLengthIsRejected := by
  intro s frame hs hroom hl hbad
  refine execFeed_rejected (why := .badLength) ?_ hs hroom
  rw [feedGate_unlatched hl, if_neg (by omega)]

/-- Settles O35: the gate's answer is LEN_MISMATCH. -/
theorem frameOfOtherLengthIsRejected : Obligations.FrameOfOtherLengthIsRejected := by
  intro s frame hs hroom hl hne
  refine execFeed_rejected (why := .lenMismatch) ?_ hs hroom
  exact (feedGate_latched hl).trans (if_neg hne)

/-! ## Step 2: the slots of RAW (R163) -/

/-- Accumulation into slot C, field by field. -/
theorem accumulate_of_open (frame : List Byte) {r : Regs} (hc : r.c.toNat < 5) :
    accumulate frame r = { r with
      raw := Memory.writeBlock r.raw (r.c.toNat * r.len) frame
      c := BitVec.ofNat 3 (r.c.toNat + 1) } := by
  rw [accumulate, if_pos ((Regs.windowOpen_iff r).mpr hc), BitVec.ofNat_add, BitVec.ofNat_toNat, BitVec.setWidth_eq]

/-- A block written to RAW is read back, and no byte outside it changes. -/
theorem Memory.writeBlock_spec {m : Memory} (hm : Memory.wf m) (i : Nat) (bytes : List Byte) :
    Memory.readBlock (Memory.writeBlock m i bytes) i bytes.length = bytes ∧
      ∀ a, (a < i ∨ i + bytes.length ≤ a) → Memory.read (Memory.writeBlock m i bytes) a = Memory.read m a :=
  ⟨Memory.readBlock_writeBlock hm i bytes, fun a => Memory.read_writeBlock_other m i a bytes⟩

/-- While the window stays open, FEED writes the accepted frame and emits nothing (R165). -/
theorem execFeed_open {s : State} {frame : List Byte} (hs : s.held = [])
    (hbounds : feedInBounds s.params frame s.regs = true) (hg : feedGate s.params s.regs frame.length = none)
    (hopen : (acceptFrame frame s.regs).windowOpen = true) :
    exec (.feed frame) s = .next { s with regs := acceptFrame frame s.regs } := by
  have hexec : exec (.feed frame) s = perform (feedEffects s.params frame s.regs) s := if_pos hbounds
  rw [hexec, feedEffects_none hg, if_pos hopen]
  exact perform_silent _ s hs rfl

/-- Settles O36: C is 0 before the latch, so the frame goes to slot 0. -/
theorem firstFrameLatchesLength : Obligations.FirstFrameLatchesLength := by
  intro s frame hs hp hr hl hmin hmod hmax
  obtain ⟨hgeo, ⟨hraw, -⟩, -⟩ := hr
  have hc : s.regs.c = 0#3 := (hgeo.1 hl).2
  have hg : feedGate s.params s.regs frame.length = none := by
    rw [feedGate_unlatched hl, if_pos ⟨hmin, hmod, hmax⟩]
  have hlatch : s.regs.latch frame.length =
      { s.regs with latched := true, l := BitVec.ofNat 16 frame.length } := by
    rw [Regs.latch_eq, hl]
    rfl
  have hacc : acceptFrame frame s.regs = { s.regs with
      latched := true, l := BitVec.ofNat 16 frame.length, c := 1#3, raw := Memory.writeBlock s.regs.raw 0 frame } := by
    rw [acceptFrame, accumulate_of_open frame (by simp [hc]), hlatch]
    simp [hc]
  have hopen : (acceptFrame frame s.regs).windowOpen = true := by
    rw [hacc]
    rfl
  obtain ⟨hslot, hrest⟩ := Memory.writeBlock_spec hraw 0 frame
  refine ⟨Memory.writeBlock s.regs.raw 0 frame, ?_, hslot, fun a ha => hrest a (.inr (by omega))⟩
  rw [execFeed_open hs (feedInBounds_of_ok hp hgeo frame) hg hopen, hacc]

/-! ## A frame of L bytes while LATCHED = 1 -/

/-- The premises of a FEED that the gate lets pass once L is latched. -/
structure LatchedFrame (s : State) (frame : List Byte) : Prop where
  idle : s.held = []
  regs : s.regs.Ok s.params
  latched : s.regs.latched = true
  length : frame.length = s.regs.len

theorem LatchedFrame.gate {s : State} {frame : List Byte} (h : LatchedFrame s frame) :
    feedGate s.params s.regs frame.length = none := feedGate_none.mpr (.inl ⟨h.latched, h.length⟩)

theorem acceptFrame_of_latched (frame : List Byte) {r : Regs} (hl : r.latched = true) :
    acceptFrame frame r = accumulate frame r := by
  rw [acceptFrame, Regs.latch, if_pos hl]

theorem LatchedFrame.inBounds {s : State} {frame : List Byte} (h : LatchedFrame s frame) :
    feedInBounds s.params frame s.regs = true := by
  obtain ⟨hlegal, -⟩ := h.regs.1.2.1 h.latched
  rw [feedInBounds, Regs.latch, if_pos h.latched, hlegal, Bool.or_true]

/-- Settles O37: the window stays open, and accumulation writes slot C. -/
theorem frameGoesToSlotC : Obligations.FrameGoesToSlotC := by
  intro s frame hs hr hl hlen hc
  have h : LatchedFrame s frame := ⟨hs, hr, hl, hlen⟩
  have hacc := (acceptFrame_of_latched frame hl).trans (accumulate_of_open frame (r := s.regs) (by omega))
  have hopen : (acceptFrame frame s.regs).windowOpen = true := by
    rw [Regs.windowOpen_iff, acceptFrame_c frame hr.1.2.2]
    omega
  obtain ⟨hslot, hrest⟩ := Memory.writeBlock_spec hr.2.1.1 (s.regs.c.toNat * frame.length) frame
  refine ⟨_, ?_, hslot, fun a ha => hrest a (by rwa [← Nat.succ_mul])⟩
  rw [execFeed_open hs h.inBounds h.gate hopen, hacc, h.length]

/-- With room for its records, FEED of a frame of L bytes does all its effects. -/
theorem LatchedFrame.execFeed {s : State} {frame : List Byte} (h : LatchedFrame s frame) {n : Nat}
    (hcount : (eventsOf (feedEffects s.params frame s.regs)).length ≤ n) (hroom : s.room n) :
    exec (.feed frame) s = .next { s with
      regs := lastRegs (feedEffects s.params frame s.regs) s.regs
      evq := s.evq ++ eventsOf (feedEffects s.params frame s.regs) } :=
  (if_pos h.inBounds).trans (perform_room _ s h.idle (Nat.le_trans (Nat.add_le_add_left hcount _) hroom))

/-- Whatever the window's outcome, RAW is what accumulation made of it (R164). -/
theorem LatchedFrame.exists_next {s : State} {frame : List Byte} (h : LatchedFrame s frame) (hroom : s.room 16) :
    ∃ t, exec (.feed frame) s = .next t ∧ t.regs.raw = (accumulate frame s.regs).raw := by
  refine ⟨_, h.execFeed (length_eventsOf_feedEffects s.params frame s.regs) hroom, ?_⟩
  rw [← acceptFrame_of_latched frame h.latched]
  exact lastRegs_feedEffects_raw h.gate s.regs

/-- Settles O52: with C = 4 accumulation writes slot 4. -/
theorem fifthFrameGoesToSlot4 : Obligations.FifthFrameGoesToSlot4 := by
  intro s frame hs hroom hr hl hlen hc
  have h : LatchedFrame s frame := ⟨hs, hr, hl, hlen⟩
  obtain ⟨t, hexec, hraw⟩ := h.exists_next hroom
  have hopen : s.regs.c.toNat < 5 := by rw [hc]; decide
  have hslot4 : s.regs.c.toNat * s.regs.len = 4 * frame.length := by rw [hc, h.length]; rfl
  rw [accumulate_raw_open frame hopen, hslot4] at hraw
  obtain ⟨hslot, hrest⟩ := Memory.writeBlock_spec hr.2.1.1 (4 * frame.length) frame
  rw [← hraw] at hslot hrest
  exact ⟨t, hexec, hslot, fun a ha => hrest a (by omega)⟩

/-- Settles O38: with C = 5 accumulation copies slots 1..4 down and then writes slot 4. -/
theorem fullWindowSlides : Obligations.FullWindowSlides := by
  intro s frame hs hroom hr hl hlen hc
  have h : LatchedFrame s frame := ⟨hs, hr, hl, hlen⟩
  obtain ⟨t, hexec, hraw⟩ := h.exists_next hroom
  rw [accumulate_raw_full frame (by simp [hc]), ← h.length] at hraw
  have hwf : Memory.wf s.regs.raw := hr.2.1.1
  obtain ⟨hslot, hrest⟩ := Memory.writeBlock_spec (Memory.writeBlock_wf hwf 0
    (Memory.readBlock s.regs.raw frame.length (4 * frame.length))) (4 * frame.length) frame
  rw [← hraw] at hslot hrest
  refine ⟨t, hexec, fun a ha => ?_, hslot, fun a ha => ?_⟩
  · have hslide := Memory.read_writeBlock_same hwf 0 a
      (Memory.readBlock s.regs.raw frame.length (4 * frame.length)) (by simpa using ha)
    rw [hrest a (.inl ha)]
    simpa using hslide
  · rw [hrest a (.inr (by omega)), Memory.read_writeBlock_other _ _ _ _ (.inr (by simp; omega))]

/-! ## A complete window (R166 to R175) -/

theorem LatchedFrame.feedEffects_window {s : State} {frame : List Byte} (h : LatchedFrame s frame)
    (hc : 4 ≤ s.regs.c.toNat) :
    feedEffects s.params frame s.regs =
      .write (acceptFrame frame s.regs) :: windowEffects s.params (acceptFrame frame s.regs) := by
  have hfull : ¬ (acceptFrame frame s.regs).windowOpen = true := by
    rw [Regs.windowOpen_iff, acceptFrame_c frame h.regs.1.2.2]
    omega
  rw [feedEffects_none h.gate, if_neg hfull]

/-- FEED of a frame that completes the window, with room for the window's records. -/
theorem LatchedFrame.execFeed_window {s : State} {frame : List Byte} (h : LatchedFrame s frame)
    (hc : 4 ≤ s.regs.c.toNat) {n : Nat}
    (hcount : (eventsOf (windowEffects s.params (acceptFrame frame s.regs))).length ≤ n) (hroom : s.room n) :
    exec (.feed frame) s = .next { s with
      regs := lastRegs (windowEffects s.params (acceptFrame frame s.regs)) (acceptFrame frame s.regs)
      evq := s.evq ++ eventsOf (windowEffects s.params (acceptFrame frame s.regs)) } := by
  have hexec := h.execFeed (n := n)
  rw [h.feedEffects_window hc] at hexec
  exact hexec hcount hroom

/-- Steps 1, 2 and 4 of a complete window write C, RAW, WORK and the RS totals only. -/
theorem LatchedFrame.window_eq {s : State} {frame : List Byte} (h : LatchedFrame s frame) (hc : 4 ≤ s.regs.c.toNat)
    (p : Params) :
    evaluateWindow p (acceptFrame frame s.regs) = { s.regs with
      c := 5#3
      raw := (evaluateWindow p (acceptFrame frame s.regs)).raw
      work := (evaluateWindow p (acceptFrame frame s.regs)).work
      rsCorr := (evaluateWindow p (acceptFrame frame s.regs)).rsCorr
      rsUncorr := (evaluateWindow p (acceptFrame frame s.regs)).rsUncorr } := by
  have h5 : (accumulate frame s.regs).c = 5#3 := by
    apply BitVec.eq_of_toNat_eq
    rw [accumulate_c frame h.regs.1.2.2, Nat.min_eq_right (by omega)]
    rfl
  have hacc : acceptFrame frame s.regs = { s.regs with raw := (accumulate frame s.regs).raw, c := 5#3 } := by
    rw [acceptFrame_of_latched frame h.latched, ← h5]
    exact accumulate_eq frame s.regs
  rw [hacc]
  exact evaluateWindow_eq p _

/-- K of the accepted frame is that of L. -/
theorem LatchedFrame.k_eq {s : State} {frame : List Byte} (h : LatchedFrame s frame) :
    (acceptFrame frame s.regs).k = 5 * s.regs.l.toNat / 120 := by
  rw [acceptFrame_k, Regs.latch, if_pos h.latched]
  rfl

/-- LAST_SYNC tells a failed check from one that passed (10_state R29). -/
theorem SyncReason.code_ne_one (why : SyncReason) : why.code ≠ 1#3 := by cases why <;> decide

/-- A window that fails emits at most 2 records, one that passes with N AUs between 2·N and 2·N + 4
(R176). -/
theorem windowEffects_counts (p : Params) (r r0 : Regs) :
    ((lastRegs (windowEffects p r) r0).lastSync ≠ 1#3 → (eventsOf (windowEffects p r)).length ≤ 2) ∧
    ((lastRegs (windowEffects p r) r0).lastSync = 1#3 →
      4 ≤ 2 * (lastRegs (windowEffects p r) r0).n.toNat ∧
      2 * (lastRegs (windowEffects p r) r0).n.toNat ≤ (eventsOf (windowEffects p r)).length ∧
      (eventsOf (windowEffects p r)).length ≤ 2 * (lastRegs (windowEffects p r) r0).n.toNat + 4) := by
  have hstatus := length_rsStatusEvents (evaluateWindow p r)
  rw [lastRegs_windowEffects, eventsOf_windowEffects]
  cases hsync : syncCheck p (evaluateWindow p r).work r.k with
  | fail why =>
    refine ⟨fun _ => ?_, fun hone => absurd hone why.code_ne_one⟩
    have hstart : (if r.syncFrames = 0#32 then [evSyncStart] else []).length ≤ 1 := by split <;> decide
    rw [List.length_append]
    exact Nat.add_le_add hstatus hstart
  | ok nAu table =>
    have hn := setAuTable_n_toNat hsync (evaluateWindow p r)
    have hmem := (syncCheck_ok_table hsync).1
    have hcount := length_eventsOf_okEffects hsync (evaluateWindow p r)
    simp only [List.mem_cons, List.not_mem_nil, or_false] at hmem
    simp only [List.length_append, Regs.closeWindow_lastSync, Regs.closeWindow_n, afterFormat_lastSync, afterFormat_n,
      Regs.clearSync_lastSync, Regs.clearSync_n, Regs.setAuTable_lastSync, hn]
    exact ⟨fun hne => absurd rfl hne, fun _ => by omega⟩

/-- Settles O39: the window's effects are those of a failed check, so it emits two records at most. -/
theorem failedWindowCountsAndWaits : Obligations.FailedWindowCountsAndWaits := by
  intro s frame why hs hroom hr hp hl hlen hc window hsync
  have h : LatchedFrame s frame := ⟨hs, hr, hl, hlen⟩
  rw [← h.k_eq] at hsync
  have hev : eventsOf (windowEffects s.params (acceptFrame frame s.regs)) =
      rsStatusEvents window ++ if s.regs.syncFrames = 0#32 then [evSyncStart] else [] := by
    rw [eventsOf_windowEffects, hsync, acceptFrame_syncFrames]
  have hregs : lastRegs (windowEffects s.params (acceptFrame frame s.regs)) (acceptFrame frame s.regs) =
      (window.setLastSync why.code).countFailure := by
    rw [lastRegs_windowEffects, hsync]
  have hcount : (eventsOf (windowEffects s.params (acceptFrame frame s.regs))).length ≤ 2 :=
    (windowEffects_counts _ _ (acceptFrame frame s.regs)).1 (by rw [hregs]; exact why.code_ne_one)
  have hw := h.window_eq hc s.params
  change window = { s.regs with
    c := 5#3, raw := window.raw, work := window.work, rsCorr := window.rsCorr, rsUncorr := window.rsUncorr } at hw
  rw [h.execFeed_window hc hcount hroom, hev, hregs, ← List.append_assoc, hw, Regs.countFailure, satInc_eq]
  cases why <;> rfl

/-! ## The AU table and the format of a window that passes (R171, R172, R200) -/

theorem auEntry_toNat {p : Params} {w : Memory} {k nAu : Nat} {table : List Nat}
    (h : syncCheck p w k = .ok nAu table) (hk : k * 110 < 2 ^ 32) (j : Nat) :
    (auEntry nAu table j).toNat = if j ≤ nAu then table.getD j 0 else 0 := by
  obtain ⟨-, hlen, -, -, hle⟩ := syncCheck_ok_table h
  unfold auEntry
  split
  · have hj : j < table.length := by omega
    have hentry := hle _ (List.getElem_mem hj)
    rw [BitVec.toNat_ofNat, List.getD_eq_getElem _ _ hj, Nat.mod_eq_of_lt (Nat.lt_of_le_of_lt hentry hk)]
  · rfl

theorem Regs.setAuTable_auStart_toList (nAu : Nat) (table : List Nat) (r : Regs) :
    (r.setAuTable nAu table).auStart.toList = (List.range 7).map (auEntry nAu table) := rfl

/-- AU_START after a success: the table up to the sentinel, zeros above. -/
theorem auStartAt_setAuTable {p : Params} {w : Memory} {k nAu : Nat} {table : List Nat}
    (h : syncCheck p w k = .ok nAu table) (hk : k * 110 < 2 ^ 32) (r : Regs) {j : Nat} (hj : j < 7) :
    (r.setAuTable nAu table).auStartAt j = if j ≤ nAu then table.getD j 0 else 0 := by
  rw [← auEntry_toNat h hk, Regs.auStartAt, Regs.setAuTable_auStart_toList,
    List.getD_eq_getElem _ _ (by simpa using hj), List.getElem_map, List.getElem_range]

/-- The AU loop after a success runs over the table of the check. -/
theorem auLoop_setAuTable {p : Params} {w : Memory} {k nAu : Nat} {table : List Nat}
    (h : syncCheck p w k = .ok nAu table) (hk : k * 110 < 2 ^ 32) (r : Regs) :
    auLoop p (r.setAuTable nAu table).clearSync =
      (List.range nAu).flatMap fun i => auEvents p r.work i (table.getD i 0) (table.getD (i + 1) 0) := by
  have hmem := (syncCheck_ok_table h).1
  have hmax : nAu ≤ 6 := by
    simp only [List.mem_cons, List.not_mem_nil, or_false] at hmem
    omega
  have hstart (j : Nat) (hj : j ≤ nAu) : (r.setAuTable nAu table).clearSync.auStartAt j = table.getD j 0 :=
    (auStartAt_setAuTable h hk r (by omega)).trans (if_pos hj)
  rw [auLoop, Regs.clearSync_n, setAuTable_n_toNat h, List.flatMap_def, List.flatMap_def]
  refine congrArg List.flatten (List.map_congr_left fun i hi => ?_)
  have hi : i < nAu := List.mem_range.mp hi
  rw [hstart i (by omega), hstart (i + 1) hi]
  rfl

theorem Regs.formatChanged_iff (r : Regs) :
    r.formatChanged = true ↔ ¬ (r.fmtSet = true ∧ r.fmtRaw = Memory.read r.work 2) := by
  rw [Regs.formatChanged, Bool.or_eq_true, Bool.not_eq_true', bne_iff_ne, not_and_or, Bool.not_eq_true,
    eq_comm (a := r.fmtRaw)]

/-- Settles O40: the window's effects are those of a check that succeeds, whose loop runs over the check's table. -/
theorem passingWindowDeliversSuperframe : Obligations.PassingWindowDeliversSuperframe := by
  intro s frame nAu table hs hroom hr hp hl hlen hc window formatByte hsync
  have h : LatchedFrame s frame := ⟨hs, hr, hl, hlen⟩
  have hk : 5 * s.regs.l.toNat / 120 * 110 < 2 ^ 32 := by
    have := s.regs.l.isLt
    omega
  have hstart := fun j => auStartAt_setAuTable hsync hk window (j := j)
  have hloop := auLoop_setAuTable hsync hk window
  rw [← h.k_eq] at hsync
  have hchanged : window.formatChanged = true ↔ ¬ (s.regs.fmtSet = true ∧ s.regs.fmtRaw = formatByte) := by
    rw [Regs.formatChanged_iff, evaluateWindow_fmtSet, evaluateWindow_fmtRaw, acceptFrame_fmtSet, acceptFrame_fmtRaw]
  have hformat : (if window.formatChanged then [evFormat formatByte] else []) =
      if s.regs.fmtSet = true ∧ s.regs.fmtRaw = formatByte then [] else [evFormat formatByte] := by
    rw [if_congr hchanged rfl rfl, ite_not]
  have hev : eventsOf (windowEffects s.params (acceptFrame frame s.regs)) = rsStatusEvents window ++
      ((if s.regs.syncFrames = 0#32 then [] else [evSyncOk s.regs.syncFrames, evPadResetSync]) ++
        (if s.regs.fmtSet = true ∧ s.regs.fmtRaw = formatByte then [] else [evFormat formatByte]) ++
        (List.range nAu).flatMap fun i =>
          auEvents s.params window.work i (table.getD i 0) (table.getD (i + 1) 0)) := by
    rw [eventsOf_windowEffects, hsync, ← hloop, ← hformat]
    simp only [eventsOf_okEffects, evaluateWindow_syncFrames, acceptFrame_syncFrames]
    rfl
  have hregs : lastRegs (windowEffects s.params (acceptFrame frame s.regs)) (acceptFrame frame s.regs) =
      (afterFormat (window.setAuTable nAu table).clearSync).closeWindow := by
    rw [lastRegs_windowEffects, hsync]
  have hcount := length_eventsOf_feedEffects s.params frame s.regs
  rw [h.feedEffects_window hc] at hcount
  have hw := h.window_eq hc s.params
  change window = { s.regs with
    c := 5#3, raw := window.raw, work := window.work, rsCorr := window.rsCorr, rsUncorr := window.rsUncorr } at hw
  refine ⟨(window.setAuTable nAu table).auStart, hstart, ?_⟩
  rw [h.execFeed_window hc hcount hroom, hev, hregs, afterFormat_eq, hw]
  simp only [List.append_assoc]
  rfl

/-! ## Counts and frame (R160, R176) -/

/-- Settles O42, by the gate and by whether the accepted frame leaves the window open. -/
theorem feedEventCounts : Obligations.FeedEventCounts := by
  intro s t frame hs hroom hr hp hexec
  cases hexec.symm.trans (execFeed_room hp hr.1 hs hroom frame)
  refine ⟨_, rfl, length_eventsOf_feedEffects s.params frame s.regs, fun hg => ?_, fun hg hc => ?_, fun hg hc => ?_⟩
  · obtain ⟨why, hg⟩ := Option.isSome_iff_exists.mp hg
    rw [feedEffects_some hg]
    rfl
  · rw [feedEffects_none hg, if_pos ((Regs.windowOpen_iff _).mpr hc)]
    rfl
  · have hfull : ¬ (acceptFrame frame s.regs).windowOpen = true := by
      rw [Regs.windowOpen_iff]
      omega
    rw [feedEffects_none hg, if_neg hfull]
    exact windowEffects_counts s.params (acceptFrame frame s.regs) (acceptFrame frame s.regs)

/-- Good registers hold nothing in RAW or WORK from 5·L on. -/
theorem Regs.Ok.read_beyond {p : Params} {r : Regs} (hr : r.Ok p) {a : Nat} (ha : 5 * r.len ≤ a) :
    Memory.read r.raw a = Memory.unlisted ∧ Memory.read r.work a = Memory.unlisted := by
  obtain ⟨-, ⟨-, -, hraw, hwork⟩, -⟩ := hr
  exact ⟨Memory.read_of_not_listed _ _ fun cell hc => Nat.ne_of_lt (Nat.lt_of_lt_of_le (hraw cell hc) ha),
    Memory.read_of_not_listed _ _ fun cell hc => Nat.ne_of_lt (Nat.lt_of_lt_of_le (hwork cell hc) ha)⟩

/-- FEED never makes L smaller: it keeps a latched L, and before the latch L is 0. -/
theorem len_le_lastRegs_feedEffects {p : Params} {r : Regs} (hr : r.geometryOk p) (frame : List Byte) :
    r.len ≤ (lastRegs (feedEffects p frame r) r).len := by
  cases hl : r.latched with
  | true =>
    have hkeep := lastRegs_keepsLength (feedEffects_keepsLength p frame hl)
    rw [Regs.len, Regs.len, hkeep.2]
  | false =>
    rw [Regs.len, (hr.1 hl).1]
    exact Nat.zero_le _

theorem lastRegs_feedEffects_open {p : Params} {frame : List Byte} {r : Regs}
    (hg : feedGate p r frame.length = none) (hc : r.c.toNat < 4) :
    lastRegs (feedEffects p frame r) r = acceptFrame frame r := by
  have hopen : (acceptFrame frame r).windowOpen = true := by
    rw [Regs.windowOpen_iff, acceptFrame_c frame (by omega)]
    omega
  rw [feedEffects_none hg, if_pos hopen]
  rfl

theorem lastRegs_feedEffects_rejected {p : Params} {frame : List Byte} {r : Regs}
    (hg : (feedGate p r frame.length).isSome = true) : lastRegs (feedEffects p frame r) r = r := by
  obtain ⟨why, hg⟩ := Option.isSome_iff_exists.mp hg
  rw [feedEffects_some hg]
  rfl

/-- Settles O43: FEED leaves good registers, whose buffers end at 5·L, as those before did at or below it. -/
theorem feedFrame : Obligations.FeedFrame := by
  intro s t frame hs hroom hr hp hexec
  cases hexec.symm.trans (execFeed_room hp hr.1 hs hroom frame)
  refine ⟨rfl, rfl, rfl, rfl, hs, ⟨_, rfl⟩, fun a ha => ?_, lastRegs_feedEffects_rejected, fun hc => ?_⟩
  · have hlen := len_le_lastRegs_feedEffects hr.1 frame
    obtain ⟨hraw, hwork⟩ := hr.read_beyond (Nat.le_trans (Nat.mul_le_mul_left 5 hlen) ha)
    obtain ⟨hraw', hwork'⟩ := (lastRegs_ok hr (feedEffects_ok hp hr)).read_beyond ha
    exact ⟨hraw'.trans hraw.symm, hwork'.trans hwork.symm⟩
  · by_cases hg : feedGate s.params s.regs frame.length = none
    · simp [lastRegs_feedEffects_open hg hc]
    · simp [lastRegs_feedEffects_rejected (feedGate_isSome.mpr hg)]

end Sys2Proof.Machine
end

section
/-! 43_sync_and_au R190 to R206: the tests of the sync check in their order, the table of a success, and the records of
one AU by its length and its CRC. -/

namespace Sys2Proof.Machine

/-! ## The three tests (R190 to R198) -/

theorem zeroGuard_iff (w : Memory) :
    zeroGuard w = true ↔ Memory.read w 3 = 0x00#8 ∧ Memory.read w 4 = 0x00#8 := by
  simp [zeroGuard]

theorem fireMatches_iff (p : Params) (w : Memory) :
    fireMatches p w = true ↔
      be16 (Memory.read w 0) (Memory.read w 1) = fire p (Memory.readBlock w 2 9) := by
  simp [fireMatches]

theorem increasing_iff_isChain (t : List Nat) : increasing t = true ↔ t.IsChain (· < ·) :=
  (increasing_iff t).trans List.isChain_iff_pairwise.symm

theorem syncCheck_of_guarded {w : Memory} (hg : zeroGuard w = true) (p : Params) (k : Nat) :
    syncCheck p w k = .fail .zeroGuard := if_pos hg

theorem syncCheck_of_mismatch {p : Params} {w : Memory} (hg : ¬ zeroGuard w = true) (hm : ¬ fireMatches p w = true)
    (k : Nat) : syncCheck p w k = .fail .fireMismatch := by
  simp [syncCheck, hg, hm]

theorem syncCheck_of_not_increasing {p : Params} {w : Memory} {k : Nat} (hg : ¬ zeroGuard w = true)
    (hm : fireMatches p w = true) (hs : ¬ increasing (auTable w k) = true) :
    syncCheck p w k = .fail .notIncreasing := by
  simp [syncCheck, hg, hm, hs]

theorem syncCheck_of_passed {p : Params} {w : Memory} {k : Nat} (hg : ¬ zeroGuard w = true)
    (hm : fireMatches p w = true) (hs : increasing (auTable w k) = true) :
    syncCheck p w k = .ok (auCount (fmt (Memory.read w 2))) (auTable w k) := by
  simp [syncCheck, hg, hm, hs]

/-- Settles O27: each way through the three tests has one answer, and the four answers differ. -/
theorem syncCheckFirstFailingTestDecides : Obligations.SyncCheckFirstFailingTestDecides := by
  intro p w k guarded matched sorted
  have hguarded : zeroGuard w = true ↔ guarded := zeroGuard_iff w
  have hmatched : fireMatches p w = true ↔ matched := fireMatches_iff p w
  have hsorted : increasing (auTable w k) = true ↔ sorted := increasing_iff_isChain _
  rw [← hguarded, ← hmatched, ← hsorted]
  by_cases hg : zeroGuard w = true
  · simp [syncCheck_of_guarded hg, hg]
  by_cases hm : fireMatches p w = true
  · by_cases hs : increasing (auTable w k) = true
    · simp [syncCheck_of_passed hg hm hs, hg, hm, hs, eq_comm]
    · simp [syncCheck_of_not_increasing hg hm hs, hg, hm, hs]
  · simp [syncCheck_of_mismatch hg hm, hg, hm]

/-! ## The table of a success (R199) -/

/-- A header whose last AU is one byte long: N = 2, T[1] = 109, and with L = 24 the sentinel is 110. -/
def lastAuOfOneByte : Memory := Memory.writeBlock [] 0 [0xD0, 0xAE, 0x20, 0x06, 0xD0]

theorem syncCheck_lastAuOfOneByte :
    syncCheck Params.default lastAuOfOneByte (codewords 24) = .ok 2 [5, 109, 110] := by decide

theorem syncCheck_ok_getLast? {p : Params} {w : Memory} {k nAu : Nat} {table : List Nat}
    (h : syncCheck p w k = .ok nAu table) : table.getLast? = some (k * 110) := by
  obtain ⟨-, hlen, -, hlast, -⟩ := syncCheck_ok_table h
  have hn : nAu < table.length := by omega
  rw [List.getLast?_eq_getElem?, hlen, Nat.add_sub_cancel, List.getElem?_eq_getElem hn, ← hlast,
    List.getD_eq_getElem _ _ hn]

/-- Every AU range is inside the RS payload region and not empty. -/
theorem syncCheck_ok_range {p : Params} {w : Memory} {k nAu : Nat} {table : List Nat}
    (h : syncCheck p w k = .ok nAu table) {i : Nat} (hi : i < nAu) :
    table.getD i 0 < table.getD (i + 1) 0 ∧ table.getD (i + 1) 0 ≤ k * 110 := by
  obtain ⟨-, hlen, hpair, -, hle⟩ := syncCheck_ok_table h
  have hend : i + 1 < table.length := by omega
  rw [List.getD_eq_getElem _ _ hend, List.getD_eq_getElem _ _ (Nat.lt_of_succ_lt hend)]
  exact ⟨List.pairwise_iff_getElem.mp hpair _ _ _ hend (Nat.lt_succ_self i), hle _ (List.getElem_mem hend)⟩

/-- Settles O28: the tests that a success passed, and a header whose last AU is one byte long. -/
theorem syncOkGuaranteesTable : Obligations.SyncOkGuaranteesTable := by
  refine ⟨fun p w l nAu table h => ?_, lastAuOfOneByte, syncCheck_lastAuOfOneByte⟩
  obtain ⟨hguard, hfire, -⟩ := syncCheck_ok h
  obtain ⟨hn, hlen, hpair, -⟩ := syncCheck_ok_table h
  have hne : ¬ (Memory.read w 3 = 0x00#8 ∧ Memory.read w 4 = 0x00#8) := by
    rw [← zeroGuard_iff, hguard]
    exact Bool.false_ne_true
  exact ⟨hlen, hpair, syncCheck_ok_getLast? h, (fireMatches_iff p w).mp hfire, not_and_or.mp hne,
    fun i => syncCheck_ok_range h, hn⟩

/-! ## The records of one AU (R200 to R206) -/

theorem evPadResetCrc_eq {i : Nat} (hi : i < 6) :
    evPadResetCrc i = ⟨.padReset, BitVec.ofNat 8 (16 + i), [0x00#8, 0x00#8]⟩ := by
  revert i
  decide

theorem evPadResetNone_eq {i : Nat} (hi : i < 6) :
    evPadResetNone i = ⟨.padReset, BitVec.ofNat 8 (32 + i), [0x00#8, 0x00#8]⟩ := by
  revert i
  decide

theorem padLocate_cases (i : Nat) (d : List Byte) :
    padLocate i d = evPad i (padRegion d) ∨ padLocate i d = evPadResetNone i :=
  ite_eq_or_eq _ _ _

theorem auEvents_of_short {s e : Nat} (h : e - s < 2) (p : Params) (w : Memory) (i : Nat) :
    auEvents p w i s e = auErrorEvents i 0x0000#16 0x0000#16 := if_pos h

theorem auEvents_of_mismatch {p : Params} {w : Memory} {s e : Nat} (hlen : 2 ≤ e - s)
    (hcrc : storedCrc w e ≠ ccitt p (auPayload w s e)) (i : Nat) :
    auEvents p w i s e = auErrorEvents i (storedCrc w e) (ccitt p (auPayload w s e)) := by
  rw [auEvents, if_neg (Nat.not_lt.mpr hlen), if_pos hcrc]

theorem auEvents_of_match {p : Params} {w : Memory} {s e : Nat} (hlen : 2 ≤ e - s)
    (hcrc : storedCrc w e = ccitt p (auPayload w s e)) (i : Nat) :
    auEvents p w i s e = [padLocate i (auPayload w s e), evAu i (auPayload w s e)] := by
  rw [auEvents, if_neg (Nat.not_lt.mpr hlen), if_neg (not_not.mpr hcrc)]

/-- An AU that does not pass, for its length or its CRC, gives the pair of a skipped AU. -/
theorem auEvents_of_not_passed {p : Params} {w : Memory} {s e : Nat}
    (h : ¬ (2 ≤ e - s ∧ storedCrc w e = ccitt p (auPayload w s e))) (i : Nat) :
    ∃ stored computed, auEvents p w i s e = auErrorEvents i stored computed := by
  by_cases hlen : 2 ≤ e - s
  · exact ⟨_, _, auEvents_of_mismatch hlen (fun hcrc => h ⟨hlen, hcrc⟩) i⟩
  · exact ⟨_, _, auEvents_of_short (Nat.not_le.mp hlen) p w i⟩

/-! ## AUs of one and of two bytes (R202) -/

theorem be16Bytes_be16 (x y : Byte) : be16Bytes (be16 x y) = [x, y] := by
  have h := (be16Nat_eq_iff (Nat.le_of_lt_succ (be16 x y).isLt)).mpr (rfl : (be16 x y).toNat = _)
  rwa [be16Nat, BitVec.ofNat_toNat, BitVec.setWidth_eq] at h

theorem be16_eq_zero_iff (x y : Byte) : be16 x y = 0x0000#16 ↔ x = 0x00#8 ∧ y = 0x00#8 := by
  simp only [BitVec.toNat_eq, be16_toNat, BitVec.toNat_ofNat]
  omega

/-- The initial value and the final XOR cancel (40_crc R114). -/
theorem ccitt_default_nil : ccitt Params.default [] = 0x0000#16 := by decide

theorem auPayload_two_bytes (w : Memory) (s : Nat) : auPayload w s (s + 2) = [] := by
  simp [auPayload, Memory.readBlock]

theorem storedCrc_two_bytes (w : Memory) (s : Nat) :
    storedCrc w (s + 2) = be16 (Memory.read w s) (Memory.read w (s + 1)) := rfl

/-- Settles O29: the CRC of no bytes is 0, the stored word of two bytes is 0 only when both are. -/
theorem shortAusFailOrAreEmpty : Obligations.ShortAusFailOrAreEmpty := by
  intro w i s hi
  have hlen : 2 ≤ s + 2 - s := by omega
  have hcalc : ccitt Params.default (auPayload w s (s + 2)) = 0x0000#16 := by
    rw [auPayload_two_bytes, ccitt_default_nil]
  have hpass : storedCrc w (s + 2) = 0x0000#16 ↔ Memory.read w s = 0x00#8 ∧ Memory.read w (s + 1) = 0x00#8 :=
    be16_eq_zero_iff _ _
  refine ⟨?_, ?_⟩
  · rw [auEvents_of_short (by omega), auErrorEvents, evPadResetCrc_eq hi]
    rfl
  rw [← evPadResetNone_eq hi, ← evPadResetCrc_eq hi]
  split
  case isTrue hzero =>
    rw [auEvents_of_match hlen ((hpass.mpr hzero).trans hcalc.symm), auPayload_two_bytes]
    rfl
  case isFalse hzero =>
    rw [auEvents_of_mismatch hlen (fun hcrc => hzero (hpass.mp (hcrc.trans hcalc))), hcalc, auErrorEvents, evAuCrcErr,
      storedCrc_two_bytes, be16Bytes_be16]
    rfl

/-! ## PAD events and EV_AU (R201, R205, R206) -/

/-- Settles O30: the PAD event of an AU that passes is PAD_LOCATE's, that of any other the reset of cause AU_CRC. -/
theorem eachAuGivesOnePadEvent : Obligations.EachAuGivesOnePadEvent := by
  intro p w i s e hi
  split
  case isTrue hpass =>
    rw [auEvents_of_match hpass.1 hpass.2]
    obtain hpad | hpad := padLocate_cases i (auPayload w s e)
    · exact ⟨evPad i _, by rw [hpad]; rfl, .inl ⟨rfl, rfl⟩⟩
    · exact ⟨evPadResetNone i, by rw [hpad]; rfl, .inr (evPadResetNone_eq hi)⟩
  case isFalse hfail =>
    obtain ⟨stored, computed, herr⟩ := auEvents_of_not_passed hfail i
    exact ⟨evPadResetCrc i, by rw [herr]; rfl, evPadResetCrc_eq hi⟩

theorem padLocate_code_ne_au (i : Nat) (d : List Byte) : (padLocate i d).code ≠ .au := by
  obtain hpad | hpad := padLocate_cases i d <;> rw [hpad] <;> exact EvCode.noConfusion

theorem code_ne_au_of_mem_auErrorEvents {i : Nat} {stored computed : Word16} {ev : Event}
    (h : ev ∈ auErrorEvents i stored computed) : ev.code ≠ .au := by
  obtain rfl | rfl := List.mem_pair.mp h <;> exact EvCode.noConfusion

/-- An AU that gives an EV_AU passed, and the EV_AU carries its payload. -/
theorem eq_evAu_of_mem_auEvents {p : Params} {w : Memory} {i s e : Nat} {ev : Event} (h : ev ∈ auEvents p w i s e)
    (hcode : ev.code = .au) :
    (2 ≤ e - s ∧ storedCrc w e = ccitt p (auPayload w s e)) ∧ ev = evAu i (auPayload w s e) := by
  by_cases hpass : 2 ≤ e - s ∧ storedCrc w e = ccitt p (auPayload w s e)
  · rw [auEvents_of_match hpass.1 hpass.2] at h
    obtain rfl | rfl := List.mem_pair.mp h
    · exact absurd hcode (padLocate_code_ne_au _ _)
    · exact ⟨hpass, rfl⟩
  · obtain ⟨stored, computed, herr⟩ := auEvents_of_not_passed hpass i
    exact absurd hcode (code_ne_au_of_mem_auErrorEvents (herr ▸ h))

/-- Settles O31: an EV_AU of the loop is that of the AU it came from, which passed. -/
theorem deliveredAusHaveGoodCrc : Obligations.DeliveredAusHaveGoodCrc := by
  intro p r ev hev hcode
  obtain ⟨i, hi, hmem⟩ := List.mem_flatMap.mp hev
  obtain ⟨⟨hlen, hcrc⟩, rfl⟩ := eq_evAu_of_mem_auEvents hmem hcode
  exact ⟨i, List.mem_range.mp hi, rfl, rfl, by omega, hcrc.symm⟩

end Sys2Proof.Machine
end

section
/-! The PAD locator (44_pad): an EV_PAD when the payload begins with a DSE whose region fits, in either length form, and
the reset of cause NO_PAD otherwise. -/

namespace Sys2Proof.Machine

/-! ## The tests of PAD_LOCATE in arithmetic (R231, R233) -/

/-- The element id is the top 3 bits of byte 0. -/
theorem elementId_eq_four_iff (b : Byte) : b >>> 5 = 4#8 ↔ b.toNat / 32 = 4 := by
  simp [BitVec.toNat_eq, Nat.shiftRight_eq_div_pow]

theorem startsWithDse_iff (d : List Byte) :
    startsWithDse d = true ↔ 3 ≤ d.length ∧ (byteAt d 0).toNat / 32 = 4 := by
  simp [startsWithDse, elementId_eq_four_iff]

theorem padFits_iff (d : List Byte) : padFits d = true ↔ 2 ≤ padLen d ∧ padStart d + padLen d ≤ d.length := by
  rw [padFits, Bool.and_eq_true, decide_eq_true_iff, decide_eq_true_iff]
  rfl

theorem padLocate_of_valid {d : List Byte} (hdse : 3 ≤ d.length ∧ (byteAt d 0).toNat / 32 = 4)
    (hfits : 2 ≤ padLen d ∧ padStart d + padLen d ≤ d.length) (i : Nat) : padLocate i d = evPad i (padRegion d) := by
  rw [padLocate, (startsWithDse_iff d).mpr hdse, (padFits_iff d).mpr hfits]
  rfl

theorem padLocate_of_not_dse {d : List Byte} (h : ¬ (3 ≤ d.length ∧ (byteAt d 0).toNat / 32 = 4)) (i : Nat) :
    padLocate i d = evPadResetNone i := by
  rw [padLocate, Bool.eq_false_iff.mpr (mt (startsWithDse_iff d).mp h)]
  rfl

theorem padLocate_of_not_fits {d : List Byte} (h : ¬ (2 ≤ padLen d ∧ padStart d + padLen d ≤ d.length)) (i : Nat) :
    padLocate i d = evPadResetNone i := by
  rw [padLocate, Bool.eq_false_iff.mpr (mt (padFits_iff d).mp h), Bool.and_false]
  rfl

/-! ## The two length forms (R232) -/

theorem padLen_direct {len : Byte} (h : len.toNat ≠ 255) (head : Byte) (rest : List Byte) :
    padLen (head :: len :: rest) = len.toNat := if_neg h

theorem padStart_direct {len : Byte} (h : len.toNat ≠ 255) (head : Byte) (rest : List Byte) :
    padStart (head :: len :: rest) = 2 := if_neg h

theorem padLen_escape (head esc : Byte) (rest : List Byte) :
    padLen (head :: 0xFF#8 :: esc :: rest) = 255 + esc.toNat := rfl

theorem padStart_escape (head esc : Byte) (rest : List Byte) : padStart (head :: 0xFF#8 :: esc :: rest) = 3 := rfl

theorem padRegion_direct {len : Byte} (h : len.toNat ≠ 255) (head : Byte) (rest : List Byte) :
    padRegion (head :: len :: rest) = rest.take len.toNat := by
  rw [padRegion, padLen_direct h, padStart_direct h]
  rfl

theorem padRegion_escape (head esc : Byte) (rest : List Byte) :
    padRegion (head :: 0xFF#8 :: esc :: rest) = rest.take (255 + esc.toNat) := rfl

/-- A count that is not the escape and leaves no room for the F-PAD, or more than the bytes that follow, is refused. -/
theorem padLocate_of_bad_count {len : Byte} {rest : List Byte}
    (h : len.toNat < 2 ∨ (len.toNat ≠ 255 ∧ rest.length < len.toNat)) (i : Nat) (head : Byte) :
    padLocate i (head :: len :: rest) = evPadResetNone i := by
  have hlen : len.toNat ≠ 255 := by omega
  refine padLocate_of_not_fits ?_ i
  rw [padLen_direct hlen, padStart_direct hlen, List.length_cons, List.length_cons]
  omega

/-- An escaped count of more than the bytes that follow is refused. -/
theorem padLocate_of_bad_escape {esc : Byte} {rest : List Byte} (h : rest.length < 255 + esc.toNat) (i : Nat)
    (head : Byte) : padLocate i (head :: 0xFF#8 :: esc :: rest) = evPadResetNone i := by
  refine padLocate_of_not_fits ?_ i
  rw [padLen_escape, padStart_escape, List.length_cons, List.length_cons, List.length_cons]
  omega

/-! ## EV_PAD and the reset of cause NO_PAD (R234, R235, R240) -/

theorem padLocate_direct {head len : Byte} {region : List Byte} (hhead : head.toNat / 32 = 4)
    (hmin : 2 ≤ region.length) (hlen : len.toNat ≠ 255) (hcount : len.toNat = region.length) (i : Nat)
    (after : List Byte) :
    padLocate i (head :: len :: (region ++ after)) = evPad i region := by
  rw [padLocate_of_valid, padRegion_direct hlen, hcount, List.take_left]
  · exact ⟨by simp only [List.length_cons, List.length_append]; omega, hhead⟩
  · simp only [padLen_direct hlen, padStart_direct hlen, List.length_cons, List.length_append]
    omega

theorem padLocate_escape {head esc : Byte} {region : List Byte} (hhead : head.toNat / 32 = 4)
    (hcount : 255 + esc.toNat = region.length) (i : Nat) (after : List Byte) :
    padLocate i (head :: 0xFF#8 :: esc :: (region ++ after)) = evPad i region := by
  rw [padLocate_of_valid, padRegion_escape, hcount, List.take_left]
  · exact ⟨by simp only [List.length_cons]; omega, hhead⟩
  · simp only [padLen_escape, padStart_escape, List.length_cons, List.length_append]
    omega

/-- Settles O32: in each form both tests pass, and the region is the counted prefix of what follows the count. -/
theorem padRegionIsLocated : Obligations.PadRegionIsLocated := fun i _ _ after hhead hmin =>
  ⟨fun _ hlen hcount => padLocate_direct hhead hmin hlen hcount i after,
    fun _ hcount => padLocate_escape hhead hcount i after⟩

/-- Settles O33: the first two cases fail the DSE test, the other two the test that the region fits. -/
theorem missingPadIsReset : Obligations.MissingPadIsReset := by
  intro i d hi h
  rw [← evPadResetNone_eq hi]
  obtain hshort | ⟨head, rest, rfl, hid⟩ | ⟨head, len, rest, rfl, hcount⟩ | ⟨head, esc, rest, rfl, hcount⟩ := h
  · exact padLocate_of_not_dse (fun hdse => Nat.not_le.mpr hshort hdse.1) i
  · exact padLocate_of_not_dse (d := head :: rest) (fun hdse => hid hdse.2) i
  · exact padLocate_of_bad_count hcount i head
  · exact padLocate_of_bad_escape hcount i head

end Sys2Proof.Machine
end

section
/-! 45_control R250 to R257, 70_reset R311: the decoder's checks in their order, what CORE's turn does with a whole
command, a command that holds, and the two control commands. -/

namespace Sys2Proof

/-! ## The decoder's checks -/

theorem legalOpcode_iff_toNat {opc : Byte} : legalOpcode opc = true ↔ 1 ≤ opc.toNat ∧ opc.toNat ≤ 6 := by
  simp only [legalOpcode_iff, ← BitVec.toNat_inj, BitVec.reduceToNat]
  omega

/-- The first check is the opcode (R75, R257). -/
theorem decode_of_illegalOpcode {c : Command} (ho : ¬ legalOpcode c.opc = true) :
    decode c = .rejected .illegalOpcode :=
  if_pos (by simpa using ho)

/-- The second check is RSV (R75, R257). -/
theorem decode_of_reserved {c : Command} (ho : legalOpcode c.opc = true) (hr : c.rsv ≠ 0x00#8) :
    decode c = .rejected .reservedNonzero := by
  rw [decode, if_neg (by simpa using ho), if_pos hr]

/-- The third check is LEN, and a command that passes all three is an instruction (R75, R257). -/
theorem decode_of_rsv_zero {c : Command} (ho : legalOpcode c.opc = true) (hr : c.rsv = 0x00#8) :
    decode c = if legalLength c.opc c.payload.length = true then .instr (instrOf c.opc c.payload)
      else .rejected .badLength := by
  rw [decode, if_neg (by simpa using ho), if_neg (not_not.mpr hr)]
  by_cases hl : legalLength c.opc c.payload.length = true <;> simp [hl]

/-- Settles O4, by the three checks; the opcode then names the instruction and the lengths it admits. -/
theorem decoderChecksInOrder : Obligations.DecoderChecksInOrder := by
  refine fun c => ⟨fun h => decode_of_illegalOpcode fun ho => ?_, fun hlo hhi => ?_⟩
  · have := legalOpcode_iff_toNat.mp ho
    omega
  have ho : legalOpcode c.opc = true := legalOpcode_iff_toNat.mpr ⟨hlo, hhi⟩
  refine ⟨decode_of_reserved ho, fun hr => ?_⟩
  have hop : ∀ v : Byte, c.opc.toNat = v.toNat → c.opc = v := fun _ => BitVec.eq_of_toNat_eq
  rw [decode_of_rsv_zero ho hr]
  refine ⟨fun h => ?_, fun h => ?_, fun h => ?_, fun h => ?_, fun h => ?_, fun h => ?_⟩
  · rw [hop 0x01#8 h]; rfl
  · rw [hop 0x02#8 h]; rfl
  · rw [hop 0x03#8 h]; rfl
  · rw [hop 0x04#8 h]; simp [legalLength, instrOf]
  · rw [hop 0x05#8 h]; simp [legalLength, instrOf]
  · rw [hop 0x06#8 h]; simp [legalLength, instrOf]

end Sys2Proof

namespace Sys2Proof.Machine

/-! ## CORE's turn with a whole command at the port -/

theorem coreTurn_of_instr {s : State} {c : Command} {rest : List Byte} {i : Instr} (hs : s.held = [])
    (hc : splitCommand s.rx = some (c, rest)) (hd : decode c = .instr i) :
    coreTurn s = exec i (s.setRx rest) := by
  simp only [coreTurn, hs, hc, hd]

theorem coreTurn_of_rejected {s : State} {c : Command} {rest : List Byte} {why : CmdReason} (hs : s.held = [])
    (hc : splitCommand s.rx = some (c, rest)) (hd : decode c = .rejected why) :
    coreTurn s = raiseCmdError why c.opc c.rsv (s.setRx rest) := by
  simp only [coreTurn, hs, hc, hd]

/-- Settles O6: the step is CORE's turn, which executes the decoded command. -/
theorem stepRunsDecodedCommand : Obligations.StepRunsDecodedCommand := fun s _ _ _ hcore hs hc hd =>
  (step_core hcore).trans (coreTurn_of_instr (s := s.setScript s.script.tail) hs hc hd)

/-- Settles O7: the step is CORE's turn, and a CmdError performs one emit. -/
theorem rejectedCommandOnlyEmitsError : Obligations.RejectedCommandOnlyEmitsError := by
  intro s c rest why hcore hs hroom hc hd
  rw [step_core hcore, coreTurn_of_rejected (s := s.setScript s.script.tail) hs hc hd, raiseCmdError,
    perform_emit (evCmdErr why c.opc c.rsv) ((s.setScript s.script.tail).setRx rest) hs hroom]
  cases why <;> rfl

/-! ## A command that holds -/

/-- Settles O12: the effects split into those done and those held, and CORE holds only at an emit that finds EVQ
full. -/
theorem holdingLosesNothing : Obligations.HoldingLosesNothing := by
  intro s effects hs
  refine ⟨State.carryOut effects s, by rw [perform_next, hs, List.nil_append], ?_⟩
  obtain ⟨done, hsplit, hregs, hevq, hend⟩ := State.carryOut_split effects s
  refine ⟨?_, ?_, fun hheld hcap => ?_⟩
  · rw [State.settledRegs, hregs, ← lastRegs_append, ← hsplit]
  · rw [hevq, List.append_assoc, ← eventsOf_append, ← hsplit]
  · obtain hnil | ⟨e, rest, -, hfull⟩ := hend
    · exact absurd hnil hheld
    · exact Nat.le_antisymm (State.carryOut_within effects s hcap) hfull

/-! ## The control commands -/

theorem flagWord_toNat (b : Bool) : (flagWord b).toNat = if b = true then 1 else 0 := by cases b <;> rfl

theorem length_flatMap_be32Bytes (words : List Word32) : (words.flatMap be32Bytes).length = 4 * words.length := by
  simp [be32Bytes, List.length_flatMap, Nat.mul_comm]

theorem length_statusWords (r : Regs) : (statusWords r).length = 17 := by simp [statusWords]

/-- The status words are the registers' values: none is cut short in 32 bits (10_state R33). -/
theorem statusWords_toNat (r : Regs) :
    (statusWords r).map BitVec.toNat =
      [if r.latched = true then 1 else 0, r.l.toNat, r.c.toNat, r.syncFrames.toNat,
        if r.fmtSet = true then 1 else 0, r.fmtRaw.toNat, r.rsCorr.toNat,
        if r.rsUncorr = true then 1 else 0, r.lastSync.toNat, r.n.toNat] ++ r.auStart.toList.map BitVec.toNat := by
  have hwide : ∀ {w : Nat} (v : BitVec w), w ≤ 32 → (v.setWidth 32).toNat = v.toNat :=
    fun _ hw => BitVec.toNat_setWidth_of_le hw
  simp [statusWords, flagWord_toNat, hwide]

/-- Settles O45: the command performs one emit, of the status words. -/
theorem readStatusReportsEveryWord : Obligations.ReadStatusReportsEveryWord := fun s hs hroom =>
  ⟨statusWords s.regs, statusWords_toNat s.regs, by rw [length_flatMap_be32Bytes, length_statusWords],
    perform_emit (evStatus (statusWords s.regs)) s hs hroom⟩

/-- Settles O46: the command performs one register write, which emits nothing. -/
theorem softResetKeepsQueue : Obligations.SoftResetKeepsQueue := fun s hs =>
  ⟨Regs.reset, perform_silent [.write Regs.reset] s hs rfl, rfl, rfl, rfl, rfl, rfl, rfl, rfl, rfl, rfl, rfl, rfl⟩

end Sys2Proof.Machine
end

section
/-! 60_exceptions R272, R273: CORE has no fault and no fatal state. FEED alone could stop, in registers that the
invariant shuts out (log 8); every other command performs its effects in every state. -/

namespace Sys2Proof.Machine

/-- With good registers every command gives a next state. -/
theorem exec_of_ok {s : State} (hp : s.params.legal = true) (hr : s.regs.geometryOk s.params) (i : Instr) :
    ∃ t, exec i s = .next t := by
  by_cases hf : ∃ frame, i = .feed frame
  · obtain ⟨frame, rfl⟩ := hf
    exact ⟨_, (execFeed_of_ok hp hr frame).trans (perform_next _ s)⟩
  by_cases hreset : i = .softReset
  · subst hreset
    exact ⟨_, perform_next [.write Regs.reset] s⟩
  · obtain ⟨e, he⟩ := exec_emits (fun frame h => hf ⟨frame, h⟩) hreset s
    exact ⟨_, he.trans (perform_next [.emit e] s)⟩

/-- From a good state CORE's turn gives a next state. -/
theorem State.Inv.coreTurn_continues {s : State} (h : s.Inv) : ∃ t, coreTurn s = .next t := by
  obtain ⟨-, hc⟩ | ⟨-, -, hc⟩ | ⟨c, rest, i, -, -, -, hc⟩ | ⟨c, rest, why, -, -, -, hc⟩ := coreTurn_cases s
  case inl => exact ⟨_, hc⟩
  case inr.inl => exact ⟨_, hc⟩
  case inr.inr.inl =>
    obtain ⟨hgeometry, -⟩ := h.regs
    rw [hc]
    exact exec_of_ok (s := s.setRx rest) h.params hgeometry i
  case inr.inr.inr => exact ⟨_, hc.trans (perform_next [.emit (evCmdErr why c.opc c.rsv)] (s.setRx rest))⟩

/-- Settles O49, by whose turn the step is: an action of the host always gives a next state, and CORE's turn gives one
from good registers. -/
theorem goodStateNeverStops : Obligations.GoodStateNeverStops := by
  intro s h
  obtain hcore | ⟨a, rest, hscript⟩ := s.turn_cases
  · rw [step_core hcore]
    exact (h.of_fields_eq (t := s.setScript s.script.tail) rfl rfl rfl rfl).coreTurn_continues
  · exact ⟨_, step_host hscript⟩

end Sys2Proof.Machine
end

section
/-! 70_reset_and_hazards R300, R311, R312: the reset input, the hold at a full EVQ and the wait for a whole command. -/

namespace Sys2Proof.Machine

/-! ## The reset input -/

/-- Settles O9: the step is the host's RST, after its turn is consumed. RST gives every register its reset value
(10_state R35). -/
theorem rstResetsEverything : Obligations.RstResetsEverything := fun s rest hscript =>
  ⟨(s.setScript rest).rst, step_host hscript, rfl, rfl, rfl, rfl, rfl, rfl, rfl, rfl, rfl, rfl, rfl, rfl, rfl, rfl,
    rfl, rfl, rfl⟩

/-! ## The hold at a full EVQ -/

theorem State.hold_eq_self {s : State} {es : List Effect} (h : s.held = es) : s.hold es = s := by
  subst h
  rfl

theorem State.carryOut_emit_of_room {s : State} (h : s.evq.length < s.params.evtDepth) (e : Event)
    (more : List Effect) : State.carryOut (.emit e :: more) s = State.carryOut more (s.pushEvent e) :=
  if_pos (s.evqHasRoom_iff.mpr h)

theorem State.carryOut_emit_of_full {s : State} (h : s.params.evtDepth ≤ s.evq.length) (e : Event)
    (more : List Effect) : State.carryOut (.emit e :: more) s = s.hold (.emit e :: more) :=
  if_neg fun hroom => Nat.not_lt.mpr h (s.evqHasRoom_iff.mp hroom)

theorem coreTurn_of_held {s : State} (h : s.held ≠ []) : coreTurn s = .next (State.carryOut s.held s) := by
  obtain ⟨-, hc⟩ | ⟨hs, -⟩ | ⟨-, -, -, hs, -⟩ | ⟨-, -, -, hs, -⟩ := coreTurn_cases s
  · exact hc
  all_goals exact absurd hs h

/-- Where a command holds at an emit, CORE's turn takes it up at that emit. -/
theorem step_of_held_emit {s : State} {e : Event} {more : List Effect} (hcore : s.coreIsNext)
    (hheld : s.held = .emit e :: more) :
    step s = .next (State.carryOut (.emit e :: more) (s.setScript s.script.tail)) := by
  rw [step_core hcore, coreTurn_of_held (s := s.setScript s.script.tail) (by simp [hheld]), State.setScript_held, hheld]

/-- Settles O11: CORE takes up the held emit. With EVQ full it holds there again; with room the record goes out and
the effects after it split into those done and those held. -/
theorem fullQueueHoldsTheCommand : Obligations.FullQueueHoldsTheCommand := by
  intro s e more hcore hheld
  rw [step_of_held_emit hcore hheld]
  constructor
  · intro hfull
    rw [State.carryOut_emit_of_full (s := s.setScript s.script.tail) hfull]
    exact congrArg _ (State.hold_eq_self (s := s.setScript s.script.tail) hheld)
  · intro hroom
    rw [State.carryOut_emit_of_room (s := s.setScript s.script.tail) hroom]
    obtain ⟨done, hsplit, hregs, hevq, hend⟩ :=
      State.carryOut_split more ((s.setScript s.script.tail).pushEvent e)
    refine ⟨_, done, rfl, hsplit, ?_, hregs, ?_⟩
    · simpa using hevq
    · simpa using hend

/-! ## The wait for a whole command -/

theorem coreTurn_of_partial {s : State} (hs : s.held = []) (hc : splitCommand s.rx = none) :
    coreTurn s = .next s := by
  simp only [coreTurn, hs, hc]

theorem step_of_partial {s : State} (hcore : s.coreIsNext) (hs : s.held = []) (hc : splitCommand s.rx = none) :
    step s = .next (s.setScript s.script.tail) :=
  (step_core hcore).trans (coreTurn_of_partial (s := s.setScript s.script.tail) hs hc)

/-- Settles O8: CORE's turn waits, so the bytes that the host then sends join those received before. -/
theorem partialCommandWaits : Obligations.PartialCommandWaits := by
  intro s hcore hs
  refine ⟨step_of_partial hcore hs, fun more rest hscript hc => ⟨_, step_of_partial hcore hs hc, ?_⟩⟩
  have hturn : (s.setScript s.script.tail).script = .host (.send more) :: rest := by simp [hscript]
  exact step_host hturn

end Sys2Proof.Machine
end
